-- ==== Sys2Proof/Word.lean ====
section
/-! DEFINITION. The word types of the zepto8 raster/synth block and the data type of its exact reals.

The ports move 32-bit words (30_encoding R100, R103, R104); registers and array cells are bytes,
half-words and nibbles (10_state R34, 20_memory R72). -/

namespace Sys2Proof

/-- A 32-bit word of a port (30_encoding R100). -/
abbrev Word := BitVec 32

/-- A 16-bit register (10_state R34: the int16 registers and FILLP). -/
abbrev Half := BitVec 16

/-- A byte of the memory port (20_memory R75). -/
abbrev Byte := BitVec 8

/-- A 4-bit pixel or colour (00_scope R16). -/
abbrev Nibble := BitVec 4

/-- One term `coef * 2^exp` of an exact real of the audio path.

DESIGN CHOICE (log 3): under `AUDIO_REAL` = exact reals (00_scope R10, 42_audio) every real the rules compute
from the sfx table by +, -, *, / by an integer and `2^(rational)` is a finite sum of such terms, so an exact
real can be plain data. -/
structure Term where
  exp  : Rat
  coef : Rat
  deriving DecidableEq, Repr

/-- A real as a finite sum of terms. The canonical form (`Sys2Proof.Machine.Surd.wf`) has strictly rising
exponents in [0, 1) and no zero coefficient; distinct powers `2^e` with rational `e` in [0, 1) are linearly
independent over the rationals, so equal reals are equal lists. -/
abbrev Surd := List Term

end Sys2Proof
end

