-- ==== Sys2Proof/Config.lean ====
section
/-! DEFINITION. The named parameters of 00_scope R10 and the free values.

A parameter with finitely many settings is a field of `Params`, which State carries and no transaction changes
(log 1): a statement about every state holds for every setting, as R10 asks ("parameters a model takes as
arguments"). What R10 leaves open as a function, and the unconstrained draw of `SAMPLE_OVERFLOW`, are opaque
constants: nothing can evaluate them, and a statement holds whatever they are. -/

namespace Sys2Proof

/-- `STIPPLE_ORDER` (00_scope R10, 40_rasterizer R141). -/
inductive StippleOrder where
  | lsbFirst | msbFirst
  deriving DecidableEq, Repr

/-- `LINE_TIE` (00_scope R10, 40_rasterizer R161). -/
inductive LineTie where
  | awayFromZero | halfUp
  deriving DecidableEq, Repr

/-- `LAYER_MATCH` (00_scope R10, 41_sprite_map R206). -/
inductive LayerMatch where
  | allBits | anyBit
  deriving DecidableEq, Repr

/-- `AUDIO_REAL` (00_scope R10, 10_state R52). -/
inductive AudioReal where
  | exactReals | binary32
  deriving DecidableEq, Repr

/-- `VIBRATO` (00_scope R10): the formula of 42_audio R272, or any other function. -/
inductive Vibrato where
  | formula | other
  deriving DecidableEq, Repr

/-- What an SSET on the sheet without its colour slot does, on which two passages of the spec differ (log 22). Not a
parameter of 00_scope R10: DESIGN CHOICE, both readings are settings of the model. -/
inductive SsetNoColour where
  /-- It stores the draw-table colour of the kept pen: the pseudocode of 41_sprite_map R213. -/
  | storesPen
  /-- It changes nothing: the row of 60_exceptions R311 on a missing value, 92_eei_decisions D24. -/
  | noChange
  deriving DecidableEq, Repr

/-- The settings of the named parameters of 00_scope R10 that are plain data, and of the model's own `ssetNoColour`. -/
structure Params where
  stippleOrder   : StippleOrder
  lineTie        : LineTie
  layerMatch     : LayerMatch
  /-- `MAP_SHEET_SHARED` (20_memory R71). -/
  mapSheetShared : Bool
  audioReal      : AudioReal
  vibrato        : Vibrato
  /-- The model's own (log 22). -/
  ssetNoColour   : SsetNoColour
  deriving DecidableEq, Repr

/-- The defaults of 00_scope R10, and for an SSET without a colour the reading of R213 (log 22). -/
def Params.default : Params :=
  { stippleOrder := .lsbFirst, lineTie := .awayFromZero, layerMatch := .allBits,
    mapSheetShared := false, audioReal := .exactReals, vibrato := .formula,
    ssetNoColour := .storesPen }

/-- `NOISE1D` (00_scope R10, 42_audio R267): the open noise function, before it is bounded to [-1, 1].
Free value (log 4): no body, no value of it can be proved. DESIGN CHOICE: its values are rational. -/
opaque Config.noise1d : Surd → Rat

/-- `VIBRATO` other than the default formula (42_audio R272): a function of the frequency and the offset.
Free value (log 5). DESIGN CHOICE: its values are finite sums of coef · 2^exp with rational coef and exp, where 00_scope
R10 allows any real frequency. -/
opaque Config.vibratoOther : Surd → Rat → Surd

/-- `SAMPLE_OVERFLOW` (42_audio R286): the n-th draw of an unconstrained int16. Free value (log 6). -/
opaque Config.freeSample : Nat → BitVec 16

end Sys2Proof
end

