-- ==== Sys2Proof/Machine/Arith.lean ====
section
/-! DEFINITION. The narrowing, division and rounding primitives of 00_scope R12, on unbounded integers and
rationals. -/

namespace Sys2Proof.Machine

/-- `wrap16(v)`: the integer congruent to v mod 2^16 in [-32768, 32767]. -/
def wrap16 (v : Int) : Int := (BitVec.ofInt 16 v).toInt

/-- `tdiv(a, b)`: a / b rounded toward zero. -/
def tdiv (a b : Int) : Int := Int.tdiv a b

/-- `fdiv(a, b)` = ⌊a / b⌋, for the positive divisors the rules use. -/
def fdiv (a b : Int) : Int := a / b

/-- `mod4(v)` = v - 4·⌊v/4⌋. -/
def mod4 (v : Int) : Int := v - 4 * fdiv v 4

/-- `clamp(v, lo, hi)` = min(max(v, lo), hi). -/
def clamp (v lo hi : Int) : Int := min (max v lo) hi

/-- `frac(r)` = r - ⌊r⌋. -/
def fracQ (r : Rat) : Rat := r - r.floor

/-- `trunc(r)`: r rounded toward zero. -/
def truncQ (r : Rat) : Int := if 0 ≤ r then r.floor else -(-r).floor

/-- `round_tie(r)`: the nearest integer, ties by the parameter `LINE_TIE`. -/
def roundTie (tie : LineTie) (r : Rat) : Int :=
  match tie with
  | .halfUp => (r + 1 / 2).floor
  | .awayFromZero => if 0 ≤ r then (r + 1 / 2).floor else -(-r + 1 / 2).floor

/-- "for x from a to b" (00_scope R15): a, a+1, …, b, empty when a > b. -/
def rangeIncl (a b : Int) : List Int := (List.range (b - a + 1).toNat).map (fun (k : Nat) => a + (k : Int))

/-- "for i from 0 to n - 1" (00_scope R15). -/
def upTo (n : Int) : List Int := rangeIncl 0 (n - 1)

/-- `fmodr(a, b)` = a - b·⌊a/b⌋ for b > 0 (42_audio). -/
def fmodrQ (a b : Rat) : Rat := a - b * (a / b).floor

end Sys2Proof.Machine
end

