-- ==== Sys2Proof/Syntax.lean ====
section
/-! DEFINITION. The transactions of the block as terms: one constructor per row of spec/opcode_table.json.

A command's argument slot is `some w` when its presence bit is set and `none` when it is absent
(30_encoding R100, R107, 00_scope R14: argument presence, not value). -/

namespace Sys2Proof

/-- The port a word arrives on (20_memory R79; 30_encoding R100, R103, R104). -/
inductive Port where
  | command | memory | audio
  deriving DecidableEq, Repr

/-- An argument slot: absent, or present with its raw 32-bit word (00_scope R14). -/
abbrev Arg := Option Word

/-- The transactions: the 23 commands of 30_encoding R109 with their slots in order, the two memory-port
transactions of R103 and the sample request of R104. -/
inductive Instr where
  | nop
  | pset (x y c : Arg)
  | pget (x y : Arg)
  | line (x0 y0 x1 y1 c : Arg)
  | hline (x0 x1 y c : Arg)
  | vline (x y0 y1 c : Arg)
  | circ (x y r c : Arg)
  | circfill (x y r c : Arg)
  | clip (x y w h : Arg)
  | cls (c : Arg)
  | camera (x y : Arg)
  | spr (n x y w h fx fy : Arg)
  | sspr (sx sy sw sh dx dy dw dh fx fy : Arg)
  | map (cx cy dx dy cw ch layer : Arg)
  | mget (x y : Arg)
  | mset (x y v : Arg)
  | sget (x y : Arg)
  | sset (x y c : Arg)
  | fget (n b : Arg)
  | fset (n b v : Arg)
  | pal (c0 c1 p : Arg)
  | palt (c f : Arg)
  | sfx (id ch off : Arg)
  /-- MEMR: a read of the byte at `addr`. -/
  | memr (addr : Nat)
  /-- MEMW: a write of `v` at `addr`. -/
  | memw (addr : Nat) (v : Byte)
  /-- SAMPLE: a request for one sample of channel `ch`. -/
  | sample (ch : Nat)
  deriving DecidableEq, Repr

/-- The port an instruction's words are sent on. -/
def Instr.port : Instr → Port
  | .memr _ => .memory
  | .memw _ _ => .memory
  | .sample _ => .audio
  | .nop | .pset .. | .pget .. | .line .. | .hline .. | .vline .. | .circ .. | .circfill .. | .clip ..
  | .cls .. | .camera .. | .spr .. | .sspr .. | .map .. | .mget .. | .mset .. | .sget .. | .sset ..
  | .fget .. | .fset .. | .pal .. | .palt .. | .sfx .. => .command

end Sys2Proof
end

