-- ==== Sys2Proof/Machine/Operands.lean ====
section
/-! DEFINITION. The argument conversions of 30_encoding R105, the colour word of R106 and the result words of
R111. -/

namespace Sys2Proof.Machine

/-- `a[i]`: the raw word of a slot, 0 when absent (30_encoding R107, 00_scope R14). -/
def argWord (a : Arg) : Word := a.getD 0

/-- `int16(w)`: the integer part, i.e. the floor of the 16.16 value, as int16. -/
def int16 (w : Word) : Int := (w.extractLsb' 16 16).toInt

/-- The integer part of an argument as a 16-bit register value. -/
def half16 (w : Word) : Half := w.extractLsb' 16 16

/-- `fix(w)`: the exact rational value. -/
def fix (w : Word) : Rat := (w.toInt : Rat) / 65536

/-- `bool(w)`: w ≠ 0. -/
def boolOf (w : Word) : Bool := w ≠ 0

/-- `byte(w)`: the low byte of the integer part. -/
def byteOf (w : Word) : Byte := w.extractLsb' 16 8

/-- `nib(w)`: the low nibble of the integer part. -/
def nibOf (w : Word) : Nibble := w.extractLsb' 16 4

/-- `int16` of an optional slot with a default of its own. -/
def int16D (a : Arg) (d : Int) : Int :=
  match a with
  | some w => int16 w
  | none => d

/-- PEN of a colour word, bits [23:16] (30_encoding R106). -/
def colourPen (w : Word) : Byte := w.extractLsb' 16 8

/-- PATFLAG, bit 28. -/
def colourPatFlag (w : Word) : Bool := w.getLsbD 28

/-- PATTRANS, bit 24. -/
def colourPatTrans (w : Word) : Bool := w.getLsbD 24

/-- PATTERN, bits [15:0]. -/
def colourPattern (w : Word) : Half := w.extractLsb' 0 16

/-- An integer result v as the word v << 16 (mod 2^32) (30_encoding R111). -/
def resultInt (v : Int) : Word := BitVec.ofInt 32 (v * 65536)

/-- A boolean result (30_encoding R111). -/
def resultBool (b : Bool) : Word := if b then 0x00010000#32 else 0#32

/-- An index of a palette table (10_state R46). -/
def palIndex (n : Nibble) : Fin 16 := ⟨n.toNat, n.isLt⟩

end Sys2Proof.Machine
end

