-- ==== Sys2Proof/Machine/State.lean ====
section
/-! DEFINITION. The state of the block (10_state R30), the reasons a step can stop, and the state after reset
(70_reset_and_hazards R331).

Beside the block's own state, State carries the settings of the named parameters (log 1), the words waiting at the
ports and the words placed on the response channels (log 2), and the counter of the free draws (log 6). -/

namespace Sys2Proof.Machine

/-- Why a step stops with a fault. The block raises no exception (60_exceptions R310). -/
inductive Fault where
  /-- A memory transaction at an address outside the block's 2^16 addresses (20_memory R70). Raised by `execMemr`
  and `execMemw` on a term that is not well-formed, which no word decodes to. Safe. -/
  | outsideAddressSpace (addr : Nat)
  deriving DecidableEq, Repr

/-- Why a step is refused. -/
inductive Refusal where
  /-- Raised by an arm of `exec` that has no meaning yet. Safe. -/
  | notModelled (mnemonic : String)
  deriving DecidableEq, Repr

/-- The clip rectangle: each field is a register byte whose legal values are 0..128, and no write stores another
(10_state R34, R36). -/
structure Clip where
  x1 : Fin 129
  y1 : Fin 129
  x2 : Fin 129
  y2 : Fin 129
  deriving DecidableEq, Repr

/-- An audio channel (10_state R52): `sfx` is `none` for Idle (the source's -1), else the id 0..63. The reals are
in the format of `AUDIO_REAL`; `offset` and `prevVol` are rational in both formats. -/
structure Channel where
  sfx     : Option (Fin 64)
  offset  : Rat
  phase   : Surd
  loop    : Bool
  prevKey : BitVec 6
  prevVol : Rat
  deriving DecidableEq, Repr

/-- A word on its way into a port. -/
structure Transfer where
  port : Port
  word : Word
  deriving DecidableEq, Repr

/-- The state of the block. -/
structure State where
  /-- The named parameters of 00_scope R10 and the model's `ssetNoColour` (log 22); no transaction changes them. -/
  params     : Params
  /-- DRAWPAL[0..15]: bits [3:0] COLOR, bit 4 TRANS (10_state R37). -/
  drawPal    : Vector (BitVec 5) 16
  /-- SCREENPAL[0..15] (10_state R38). -/
  screenPal  : Vector Byte 16
  /-- CLIP_X1, CLIP_Y1, CLIP_X2, CLIP_Y2 (10_state R36). -/
  clip       : Clip
  /-- PEN (10_state R35). -/
  pen        : Byte
  /-- CURSOR_X, CURSOR_Y (10_state R42). -/
  cursorX    : Byte
  cursorY    : Byte
  /-- CAMERA_X, CAMERA_Y, int16 (10_state R39). -/
  cameraX    : Half
  cameraY    : Half
  /-- ANCHOR_X, ANCHOR_Y, int16 (10_state R43). -/
  anchorX    : Half
  anchorY    : Half
  /-- FILLP and the two bits of FILLP_CTL (10_state R40, R41). -/
  fillp      : Half
  fillpTrans : Bool
  fillpMode  : Bool
  /-- DISTORT, bit c for channel c (10_state R44). -/
  distort    : BitVec 4
  /-- SHEET, MAP, FLAGS, SFXT and FB at their block addresses (10_state R47–R51, 20_memory R70, R71): the bytes
  that are not 0, by rising address. -/
  mem        : List Host.Cell
  /-- ch[0..3] (10_state R52). -/
  ch         : Vector Channel 4
  /-- The words waiting at the three ports, in the order of their arrival at the block (20_memory R79–R82). -/
  inbox      : List Transfer
  /-- Response words placed on the command port's response channel, oldest first (30_encoding R102). -/
  cmdOut     : List Word
  /-- Response words of memory-port reads, oldest first (30_encoding R103). -/
  memOut     : List Word
  /-- Response words of the audio port, oldest first (30_encoding R104). -/
  audOut     : List Word
  /-- How many free values have been drawn (log 6); the model's own field. -/
  draws      : Nat
  deriving DecidableEq, Repr

/-- An Idle channel as reset leaves it (70_reset_and_hazards R331). -/
def Channel.reset : Channel :=
  { sfx := none, offset := 0, phase := [], loop := false, prevKey := 24#6, prevVol := 0 }

/-- The block after its construction (70_reset_and_hazards R330, R331): every value is the table's, the parameters
are at their defaults (00_scope R10), and no port holds a word. -/
def State.reset : State :=
  { params := Params.default
    drawPal := #v[0x10#5, 1#5, 2#5, 3#5, 4#5, 5#5, 6#5, 7#5, 8#5, 9#5, 10#5, 11#5, 12#5, 13#5, 14#5, 15#5]
    screenPal := #v[0#8, 1#8, 2#8, 3#8, 4#8, 5#8, 6#8, 7#8, 8#8, 9#8, 10#8, 11#8, 12#8, 13#8, 14#8, 15#8]
    clip := ⟨0, 0, 128, 128⟩
    pen := 6#8
    cursorX := 0#8
    cursorY := 0#8
    cameraX := 0#16
    cameraY := 0#16
    anchorX := 0#16
    anchorY := 0#16
    fillp := 0#16
    fillpTrans := false
    fillpMode := false
    distort := 0#4
    mem := []
    ch := #v[Channel.reset, Channel.reset, Channel.reset, Channel.reset]
    inbox := []
    cmdOut := []
    memOut := []
    audOut := []
    draws := 0 }

end Sys2Proof.Machine
end

