-- ==== Sys2Proof/Machine/Ops.lean ====
section
/-! DEFINITION. The named operations over the memory, the register window, the palettes, the channels and the
response channels.

The block takes no exception and returns from none (60_exceptions R310, R315), so there is no such operation. -/

namespace Sys2Proof.Machine

/-! ### Memory: the bytes of the arrays -/

namespace Memory

/-- What a byte that nothing has written reads as: every array byte is 0 at reset (70_reset_and_hazards R331). -/
def unwritten : Byte := 0

/-- The canonical form: addresses strictly rising, no listed byte equal to `unwritten`. -/
abbrev wf (m : List Host.Cell) : Prop :=
  m.Pairwise (fun c d => c.1 < d.1) ∧ ∀ c ∈ m, c.2 ≠ unwritten

/-- The byte at an address. -/
def read : List Host.Cell → Nat → Byte
  | [], _ => unwritten
  | c :: m, a => if c.1 = a then c.2 else read m a

/-- The memory without the cell of an address. -/
def erase (m : List Host.Cell) (a : Nat) : List Host.Cell := m.filter (fun c => c.1 ≠ a)

/-- The memory with a cell put in its place by address. -/
def insert : List Host.Cell → Nat → Byte → List Host.Cell
  | [], a, v => [(a, v)]
  | c :: m, a, v => if a < c.1 then (a, v) :: c :: m else c :: insert m a v

/-- The memory with one byte written; a byte that reads as `unwritten` is not listed. -/
def write (m : List Host.Cell) (a : Nat) (v : Byte) : List Host.Cell :=
  if v = unwritten then erase m a else insert (erase m a) a v

/-- The memory with the `n` bytes from `lo` on all set to `v`. -/
def fill (m : List Host.Cell) (lo n : Nat) (v : Byte) : List Host.Cell :=
  m.filter (fun c => c.1 < lo)
    ++ ((if v = unwritten then [] else (List.range n).map (fun k => (lo + k, v)))
    ++ m.filter (fun c => lo + n ≤ c.1))

end Memory

/-! ### The address map (20_memory R70, R71) -/

def sheetBase : Nat := 0x0000
def mapBase : Nat := 0x2000
def flagsBase : Nat := 0x4000
def sfxtBase : Nat := 0x4100
def regBase : Nat := 0x5F00
def fbBase : Nat := 0x6000

/-- The addresses of SHEET, MAP, FLAGS, SFXT and FB (20_memory R70). -/
def isArray (a : Nat) : Bool := a < 0x5200 || (0x6000 ≤ a && a < 0x8000)

/-- The addresses of the register window (20_memory R70). -/
def isRegister (a : Nat) : Bool := 0x5F00 ≤ a && a < 0x5F80

/-- Where the byte of an array address is stored: with `MAP_SHEET_SHARED`, MAP rows 32–63 are the bytes
0x1000–0x1FFF of SHEET (20_memory R71). -/
def physAddr (p : Params) (a : Nat) : Nat :=
  if p.mapSheetShared && 0x3000 ≤ a && a < 0x4000 then a - 0x2000 else a

/-- The byte of the arrays at an array address. -/
def arrayByte (s : State) (a : Nat) : Byte := Memory.read s.mem (physAddr s.params a)

/-- The state with one array byte written. -/
def setArrayByte (s : State) (a : Nat) (v : Byte) : State :=
  { s with mem := Memory.write s.mem (physAddr s.params a) v }

/-! ### The register window (10_state R34) -/

/-- The low byte of a 16-bit register, at its lower address (20_memory R73). -/
def loByte (h : Half) : Byte := h.extractLsb' 0 8

/-- The high byte, at the higher address. -/
def hiByte (h : Half) : Byte := h.extractLsb' 8 8

/-- A 16-bit register with its low byte replaced (20_memory R75). -/
def withLo (h : Half) (v : Byte) : Half := hiByte h ++ v

/-- A 16-bit register with its high byte replaced. -/
def withHi (h : Half) (v : Byte) : Half := v ++ loByte h

/-- COLOR of a draw-table entry, bits [3:0] (10_state R37). -/
def entryColor (e : BitVec 5) : Nibble := e.extractLsb' 0 4

/-- TRANS of a draw-table entry, bit 4. -/
def entryTrans (e : BitVec 5) : Bool := e.getLsbD 4

/-- A draw-table entry of its two fields. -/
def mkEntry (trans : Bool) (color : Nibble) : BitVec 5 := BitVec.ofBool trans ++ color

/-- What a memory-port write of byte v stores in a CLIP field: min(v, 128) (10_state R36). -/
def clipOfByte (v : Byte) : Fin 129 := ⟨min v.toNat 128, by omega⟩

/-- `clamp(v, 0, 128)` as a CLIP field (40_rasterizer R170). -/
def clipOfInt (v : Int) : Fin 129 := ⟨(clamp v 0 128).toNat, by unfold clamp; omega⟩

/-- The sfx id of a channel as an integer in -1..63, -1 for Idle (10_state R52). -/
def sfxInt (c : Channel) : Int :=
  match c.sfx with
  | some S => (S.val : Int)
  | none => -1

/-- CHSFX[c]: the sfx id as a signed byte, 0xFF for Idle (10_state R45). -/
def chsfxByte (c : Channel) : Byte := BitVec.ofInt 8 (sfxInt c)

/-- FILLP_CTL: [0] FILLP_TRANS, [1] FILLP_MODE, the rest 0 (10_state R34). -/
def fillpCtl (s : State) : Byte := 0#6 ++ BitVec.ofBool s.fillpMode ++ BitVec.ofBool s.fillpTrans

/-- The byte at register address 0x5F00 + k, k < 0x80; a reserved one reads 0 (10_state R34, 20_memory R74). -/
def readReg (s : State) (k : Nat) : Byte :=
  if h : k < 16 then (s.drawPal[k]).setWidth 8
  else if h : k - 16 < 16 then s.screenPal[k - 16]
  else if h : 0x34 ≤ k ∧ k - 0x34 < 4 then chsfxByte (s.ch[k - 0x34]'h.2)
  else
    match k with
    | 0x20 => BitVec.ofNat 8 s.clip.x1.val
    | 0x21 => BitVec.ofNat 8 s.clip.y1.val
    | 0x22 => BitVec.ofNat 8 s.clip.x2.val
    | 0x23 => BitVec.ofNat 8 s.clip.y2.val
    | 0x24 => s.pen
    | 0x25 => s.cursorX
    | 0x26 => s.cursorY
    | 0x28 => loByte s.cameraX
    | 0x29 => hiByte s.cameraX
    | 0x2A => loByte s.cameraY
    | 0x2B => hiByte s.cameraY
    | 0x2C => loByte s.anchorX
    | 0x2D => hiByte s.anchorX
    | 0x2E => loByte s.anchorY
    | 0x2F => hiByte s.anchorY
    | 0x30 => loByte s.fillp
    | 0x31 => hiByte s.fillp
    | 0x32 => fillpCtl s
    | 0x33 => s.distort.setWidth 8
    | _ => 0

/-- A write at register address 0x5F00 + k: RAZ/WI bits and the read-only CHSFX ignore it (10_state R34,
20_memory R74), a CLIP field is clamped (10_state R36). -/
def writeReg (s : State) (k : Nat) (v : Byte) : State :=
  if h : k < 16 then { s with drawPal := s.drawPal.set k (v.setWidth 5) }
  else if h : k - 16 < 16 then { s with screenPal := s.screenPal.set (k - 16) v }
  else
    match k with
    | 0x20 => { s with clip := { s.clip with x1 := clipOfByte v } }
    | 0x21 => { s with clip := { s.clip with y1 := clipOfByte v } }
    | 0x22 => { s with clip := { s.clip with x2 := clipOfByte v } }
    | 0x23 => { s with clip := { s.clip with y2 := clipOfByte v } }
    | 0x24 => { s with pen := v }
    | 0x25 => { s with cursorX := v }
    | 0x26 => { s with cursorY := v }
    | 0x28 => { s with cameraX := withLo s.cameraX v }
    | 0x29 => { s with cameraX := withHi s.cameraX v }
    | 0x2A => { s with cameraY := withLo s.cameraY v }
    | 0x2B => { s with cameraY := withHi s.cameraY v }
    | 0x2C => { s with anchorX := withLo s.anchorX v }
    | 0x2D => { s with anchorX := withHi s.anchorX v }
    | 0x2E => { s with anchorY := withLo s.anchorY v }
    | 0x2F => { s with anchorY := withHi s.anchorY v }
    | 0x30 => { s with fillp := withLo s.fillp v }
    | 0x31 => { s with fillp := withHi s.fillp v }
    | 0x32 => { s with fillpTrans := v.getLsbD 0, fillpMode := v.getLsbD 1 }
    | 0x33 => { s with distort := v.setWidth 4 }
    | _ => s

/-! ### The memory port (20_memory R74–R76) -/

/-- `MemRead(addr, 1)`: no read has a side effect (R76), a reserved address reads 0 (R74). -/
def memRead (s : State) (a : Nat) : Byte :=
  if isArray a then arrayByte s a else if isRegister a then readReg s (a - regBase) else 0

/-- `MemWrite(addr, 1, v)`: a reserved address ignores it (R74). -/
def memWrite (s : State) (a : Nat) (v : Byte) : State :=
  if isArray a then setArrayByte s a v else if isRegister a then writeReg s (a - regBase) v else s

/-! ### Packed pixels (20_memory R71, R72) -/

/-- The address of the byte of pixel (x, y) of an array with 64 bytes a row. -/
def pixelAddr (base x y : Nat) : Nat := base + 64 * y + x / 2

/-- The nibble of a pixel in its byte: even x low, odd x high. -/
def nibbleAt (x : Nat) (b : Byte) : Nibble := if x % 2 = 0 then b.extractLsb' 0 4 else b.extractLsb' 4 4

/-- The byte with the pixel's nibble replaced; the other nibble stays. -/
def withNibble (x : Nat) (b : Byte) (n : Nibble) : Byte :=
  if x % 2 = 0 then b.extractLsb' 4 4 ++ n else n ++ b.extractLsb' 0 4

/-- A pixel of a packed array. -/
def pixelGet (m : List Host.Cell) (base x y : Nat) : Nibble := nibbleAt x (Memory.read m (pixelAddr base x y))

/-- The memory with one pixel of a packed array written. -/
def pixelPut (m : List Host.Cell) (base x y : Nat) (n : Nibble) : List Host.Cell :=
  Memory.write m (pixelAddr base x y) (withNibble x (Memory.read m (pixelAddr base x y)) n)

/-- `FB_get(x, y)`, 0 ≤ x, y < 128. -/
def fbGet (s : State) (x y : Nat) : Nibble := pixelGet s.mem fbBase x y

/-- `SHEET_get(x, y)`, 0 ≤ x, y < 128. -/
def sheetGet (s : State) (x y : Nat) : Nibble := pixelGet s.mem sheetBase x y

/-- `SHEET_put(x, y, n)`. -/
def sheetPut (s : State) (x y : Nat) (n : Nibble) : State := { s with mem := pixelPut s.mem sheetBase x y n }

/-- The address of MAP[x, y] (20_memory R71). -/
def mapAddr (x y : Nat) : Nat := mapBase + 128 * y + x

/-- MAP[x, y]. -/
def mapGet (s : State) (x y : Nat) : Byte := arrayByte s (mapAddr x y)

/-- FLAGS[i]. -/
def flagsGet (s : State) (i : Nat) : Byte := arrayByte s (flagsBase + i)

/-- Byte k of sfx record S (20_memory R71, 42_audio R250). -/
def sfxByte (s : State) (S : Fin 64) (k : Nat) : Byte := memRead s (sfxtBase + 68 * S.val + k)

/-! ### Channels and responses -/

/-- The state with channel c changed by f. -/
def updateCh (s : State) (c : Fin 4) (f : Channel → Channel) : State :=
  { s with ch := s.ch.set c.val (f s.ch[c]) c.isLt }

/-- `ch[c].sfx <- -1; ch[c].offset <- 0`: the other fields keep their values (42_audio R282, R290). -/
def Channel.idle (c : Channel) : Channel := { c with sfx := none, offset := 0 }

/-- `respond(v0, v1, …)` on the command port's response channel (30_encoding R102). -/
def respond (s : State) (ws : List Word) : State := { s with cmdOut := s.cmdOut ++ ws }

/-- The response word of a memory read (30_encoding R103). -/
def respondMem (s : State) (w : Word) : State := { s with memOut := s.memOut ++ [w] }

/-- The response word of a sample request (30_encoding R104). -/
def respondAud (s : State) (w : Word) : State := { s with audOut := s.audOut ++ [w] }

/-- The outcome of a step. -/
abbrev Out := Host.Outcome State Fault Refusal

end Sys2Proof.Machine
end

