-- ==== Sys2Proof/Machine/Flags.lean ====
section
/-! DEFINITION. The flags the block has: the 8 flag bits of each sprite (10_state R50) with the layer filter of
41_sprite_map R206, and the draw-table transparency bits (R37). It has no condition codes (10_state R33). -/

namespace Sys2Proof.Machine

/-- The layer filter `layerPass(f, m)` (41_sprite_map R206). -/
def layerPass (lm : LayerMatch) (f m : Byte) : Bool :=
  if m = 0 then true
  else
    match lm with
    | .allBits => f &&& m = m
    | .anyBit => f &&& m ≠ 0

/-- A flags byte with bit b set to v, the other bits preserved (41_sprite_map R215). -/
def withFlagBit (f : Byte) (b : Nat) (v : Bool) : Byte :=
  if v then f ||| (1#8 <<< b) else f &&& ~~~(1#8 <<< b)

/-- FLAGS[n] written. -/
def flagsPut (s : State) (n : Nat) (v : Byte) : State := setArrayByte s (flagsBase + n) v

/-- `DRAWPAL[i].TRANS <- v`, COLOR preserved. -/
def setTrans (s : State) (i : Fin 16) (v : Bool) : State :=
  { s with drawPal := s.drawPal.set i.val (mkEntry v (entryColor s.drawPal[i])) i.isLt }

/-- `DRAWPAL[i].COLOR <- n`, TRANS preserved. -/
def setColor (s : State) (i : Fin 16) (n : Nibble) : State :=
  { s with drawPal := s.drawPal.set i.val (mkEntry (entryTrans s.drawPal[i]) n) i.isLt }

end Sys2Proof.Machine
end

