-- ==== Sys2Proof/Machine/Raster.lean ====
section
/-! DEFINITION. The rasterizer's internal operations (40_rasterizer R140–R147, R161–R165).

Every drawing rule ends in a sequence of `setPixel` calls; it is given here as the list of its dots in the rule's
order, which `paint` draws. -/

namespace Sys2Proof.Machine

/-- The colour bits of a drawing call (00_scope R16, the source's ColorBits). -/
structure ColorBits where
  stipple     : Half
  transparent : Bool
  primary     : Nibble
  secondary   : Nibble
  deriving DecidableEq, Repr

/-- One `setPixel(x, y, cb)` call, in device coordinates. -/
structure Dot where
  x  : Int
  y  : Int
  cb : ColorBits
  deriving DecidableEq, Repr

/-- The colour bits of the current pen and fill pattern (40_rasterizer R140). -/
def penBits (s : State) : ColorBits :=
  { stipple := s.fillp
    transparent := s.fillpTrans
    primary := entryColor s.drawPal[palIndex (s.pen.extractLsb' 0 4)]
    secondary := entryColor s.drawPal[palIndex (s.pen.extractLsb' 4 4)] }

/-- The writes of `resolveColor` (40_rasterizer R140): a supplied colour sets the pen, and with the pattern flag in
fill-pattern mode the stored pattern. -/
def loadColor (c : Arg) (s : State) : State :=
  match c with
  | none => s
  | some w =>
    if colourPatFlag w && s.fillpMode then
      { s with pen := colourPen w, fillp := colourPattern w, fillpTrans := colourPatTrans w }
    else { s with pen := colourPen w }

/-- `resolveColor(i)` (40_rasterizer R140): the colour bits and the state after its writes. -/
def resolveColor (c : Arg) (s : State) : ColorBits × State := (penBits (loadColor c s), loadColor c s)

/-- `sbit(stipple, x, y)` (40_rasterizer R141). -/
def sbit (o : StippleOrder) (stipple : Half) (x y : Int) : Bool :=
  let k := (mod4 x + 4 * mod4 y).toNat
  match o with
  | .lsbFirst => stipple.getLsbD k
  | .msbFirst => stipple.getLsbD (15 - k)

/-- The pixel is inside the clip rectangle (10_state R36). -/
def Clip.inside (c : Clip) (x y : Int) : Bool :=
  (c.x1.val : Int) ≤ x && x < (c.x2.val : Int) && (c.y1.val : Int) ≤ y && y < (c.y2.val : Int)

/-- What `setPixel` reads besides its arguments and the framebuffer: the clip rectangle and `STIPPLE_ORDER`. -/
structure DrawEnv where
  clip  : Clip
  order : StippleOrder
  deriving DecidableEq, Repr

/-- The drawing environment of a state. -/
def drawEnv (s : State) : DrawEnv := { clip := s.clip, order := s.params.stippleOrder }

/-- The colour a dot writes, if it writes one (40_rasterizer R142). -/
def dotColor (e : DrawEnv) (d : Dot) : Option Nibble :=
  if !e.clip.inside d.x d.y then none
  else if sbit e.order d.cb.stipple d.x d.y then (if d.cb.transparent then none else some d.cb.secondary)
  else some d.cb.primary

/-- `setPixel(x, y, cb)` on the framebuffer (40_rasterizer R142). -/
def setPixel (e : DrawEnv) (m : List Host.Cell) (d : Dot) : List Host.Cell :=
  match dotColor e d with
  | some n => pixelPut m fbBase d.x.toNat d.y.toNat n
  | none => m

/-- The `setPixel` calls of a list of dots, in order. -/
def paint (s : State) (dots : List Dot) : State :=
  { s with mem := dots.foldl (setPixel (drawEnv s)) s.mem }

/-- `getPixel(x, y)` (40_rasterizer R143). -/
def getPixel (s : State) (x y : Int) : Nibble := if s.clip.inside x y then fbGet s x.toNat y.toNat else 0

/-- `solid(n)` (40_rasterizer R144). -/
def solid (n : Nibble) : ColorBits := { stipple := 0, transparent := false, primary := n, secondary := n }

/-- `devx(u)` (40_rasterizer R147). -/
def devx (s : State) (u : Int) : Int := wrap16 (u - s.cameraX.toInt)

/-- `devy(u)`. -/
def devy (s : State) (u : Int) : Int := wrap16 (u - s.cameraY.toInt)

/-- `hline(x0, x1, y, cb)` (40_rasterizer R145). -/
def hlineDots (x0 x1 y : Int) (cb : ColorBits) : List Dot :=
  (rangeIncl (min x0 x1) (max x0 x1)).map (fun x => ⟨x, y, cb⟩)

/-- `vline(x, y0, y1, cb)` (40_rasterizer R145). -/
def vlineDots (x y0 y1 : Int) (cb : ColorBits) : List Dot :=
  (rangeIncl (min y0 y1) (max y0 y1)).map (fun y => ⟨x, y, cb⟩)

/-- `rasterLine(x0, y0, x1, y1, cb)` (40_rasterizer R161). DESIGN CHOICE (log 21): a coordinate is the exact rational one
rounded by `LINE_TIE`, with no allowance for the floating-point error of a reference near a tie. -/
def lineDots (tie : LineTie) (x0 y0 x1 y1 : Int) (cb : ColorBits) : List Dot :=
  if x0 = x1 ∧ y0 = y1 then [⟨x0, y0, cb⟩]
  else if (x1 - x0).natAbs > (y1 - y0).natAbs then
    (rangeIncl (min x0 x1) (max x0 x1)).map (fun (x : Int) =>
      ⟨x, roundTie tie ((y0 : Rat) + ((y1 : Rat) - y0) * ((x : Rat) - x0) / ((x1 : Rat) - x0)), cb⟩)
  else
    (rangeIncl (min y0 y1) (max y0 y1)).map (fun (y : Int) =>
      ⟨roundTie tie ((x0 : Rat) + ((x1 : Rat) - x0) * ((y : Rat) - y0) / ((y1 : Rat) - y0)), y, cb⟩)

/-- The loop of `circleSteps` (40_rasterizer R163) from (dx, dy, err): the (dx, dy) of the body's runs, at most
`fuel` of them. -/
def circleLoop (r : Int) : Nat → Int → Int → Int → List (Int × Int)
  | 0, _, _, _ => []
  | fuel + 1, dx, dy, err =>
    if dy ≤ dx then
      let dy' := dy + 1
      let err' := err + 1 + 2 * dy'
      if 2 * (err' - dx) > r + 1 then
        (dx, dy) :: circleLoop r fuel (dx - 1) dy' (err' + 1 - 2 * (dx - 1))
      else (dx, dy) :: circleLoop r fuel dx dy' err'
    else []

/-- `circleSteps(r, body)` (40_rasterizer R163). dy grows by 1 each step and dx never exceeds r, so r + 1 runs of
the body are never exceeded. -/
def circleSteps (r : Int) : List (Int × Int) := circleLoop r (r + 1).toNat r 0 0

/-- `circleOutline`'s body (40_rasterizer R164). -/
def outlineDots (X Y : Int) (cb : ColorBits) (dx dy : Int) : List Dot :=
  [(X + dx, Y + dy), (X + dy, Y + dx), (X - dy, Y + dx), (X - dx, Y + dy),
   (X - dx, Y - dy), (X - dy, Y - dx), (X + dy, Y - dx), (X + dx, Y - dy)].map
    (fun p => ⟨wrap16 p.1, wrap16 p.2, cb⟩)

/-- `circleFill`'s body (40_rasterizer R165). -/
def fillDots (X Y : Int) (cb : ColorBits) (dx dy : Int) : List Dot :=
  hlineDots (wrap16 (X - dx)) (wrap16 (X + dx)) (wrap16 (Y - dy)) cb
    ++ hlineDots (wrap16 (X - dx)) (wrap16 (X + dx)) (wrap16 (Y + dy)) cb
    ++ vlineDots (wrap16 (X - dy)) (wrap16 (Y - dx)) (wrap16 (Y + dx)) cb
    ++ vlineDots (wrap16 (X + dy)) (wrap16 (Y - dx)) (wrap16 (Y + dx)) cb

end Sys2Proof.Machine
end

