-- ==== Sys2Proof/Machine/Access.lean ====
section
/-! DEFINITION. The accessors of 41_sprite_map: MGET, MSET, SGET, SSET, FGET and FSET. They take sheet and map
coordinates: no camera, no clip. -/

namespace Sys2Proof.Machine

/-- 0 ≤ x < 128 and 0 ≤ y < 64. -/
def onMap (x y : Int) : Bool := 0 ≤ x && x < 128 && 0 ≤ y && y < 64

/-- 0 ≤ x < 128 and 0 ≤ y < 128. -/
def onSheet (x y : Int) : Bool := 0 ≤ x && x < 128 && 0 ≤ y && y < 128

/-- MGET (41_sprite_map R210). -/
def execMget (x y : Arg) (s : State) : Out :=
  let X := int16 (argWord x)
  let Y := int16 (argWord y)
  .next (respond s [if onMap X Y then resultInt (mapGet s X.toNat Y.toNat).toNat else 0])

/-- MSET (41_sprite_map R211). -/
def execMset (x y v : Arg) (s : State) : Out :=
  match v with
  | none => .next s
  | some w =>
    let X := int16 (argWord x)
    let Y := int16 (argWord y)
    if onMap X Y then .next (setArrayByte s (mapAddr X.toNat Y.toNat) (byteOf w)) else .next s

/-- SGET (41_sprite_map R212). -/
def execSget (x y : Arg) (s : State) : Out :=
  let X := int16 (argWord x)
  let Y := int16 (argWord y)
  .next (respond s [if onSheet X Y then resultInt (sheetGet s X.toNat Y.toNat).toNat else 0])

/-- SSET with its colour slot, or without it under the reading that stores the pen's colour (41_sprite_map R213): the
colour resolves before the coordinates are tested. -/
def ssetResolved (x y c : Arg) (s : State) : State :=
  let (cb, s1) := resolveColor c s
  let X := int16 (argWord x)
  let Y := int16 (argWord y)
  if onSheet X Y then sheetPut s1 X.toNat Y.toNat cb.primary else s1

/-- SSET (41_sprite_map R213). DESIGN CHOICE (log 22): R213's pseudocode stores the pen's colour when the colour slot is
absent, R311's table counts a missing value as no change, and each is a setting of `ssetNoColour`. -/
def execSset (x y c : Arg) (s : State) : Out :=
  if c = none ∧ s.params.ssetNoColour = .noChange then .next s else .next (ssetResolved x y c s)

/-- What FGET answers (41_sprite_map R214): a bit index outside 0..7 answers false. -/
def fgetResult (n b : Arg) (s : State) : Word :=
  let N := int16 (argWord n)
  if 0 ≤ N ∧ N < 256 then
    match b with
    | none => resultInt (flagsGet s N.toNat).toNat
    | some bw =>
      let B := int16 bw
      if 0 ≤ B ∧ B ≤ 7 then resultBool ((flagsGet s N.toNat).getLsbD B.toNat) else 0
  else 0

/-- FGET (41_sprite_map R214). -/
def execFget (n b : Arg) (s : State) : Out := .next (respond s [fgetResult n b s])

/-- FSET (41_sprite_map R215): a missing value or a bit index outside 0..7 changes nothing. -/
def execFset (n b v : Arg) (s : State) : Out :=
  let N := int16 (argWord n)
  match v with
  | none => .next s
  | some vw =>
    if 0 ≤ N ∧ N < 256 then
      match b with
      | none => .next (flagsPut s N.toNat (byteOf vw))
      | some bw =>
        let B := int16 bw
        if 0 ≤ B ∧ B ≤ 7 then
          .next (flagsPut s N.toNat (withFlagBit (flagsGet s N.toNat) B.toNat (boolOf vw)))
        else .next s
    else .next s

end Sys2Proof.Machine
end

