-- ==== Sys2Proof/Machine/Real.lean ====
section
/-! DEFINITION. The reals of the audio path (42_audio, parameter `AUDIO_REAL`).

`Surd` holds the reals as finite sums of `coef * 2^exp` (log 3). The operations are exact; `⌊x⌋` is found
by enclosing the powers of 2 between rationals at rising precision, and every comparison is made with it. Under
`AUDIO_REAL` = binary32 each operation's exact result is then rounded to the nearest binary32 value, ties to even
(log 7). -/

namespace Sys2Proof.Machine

namespace Surd

/-- The canonical form: exponents strictly rising in [0, 1), no zero coefficient. -/
abbrev wf (x : Surd) : Prop :=
  x.Pairwise (fun s t => s.exp < t.exp) ∧ ∀ t ∈ x, 0 ≤ t.exp ∧ t.exp < 1 ∧ t.coef ≠ 0

/-- The sum of a term and a real. -/
def addTerm (t : Term) : Surd → Surd
  | [] => if t.coef = 0 then [] else [t]
  | u :: x =>
    if t.exp < u.exp then (if t.coef = 0 then u :: x else t :: u :: x)
    else if t.exp = u.exp then
      (if t.coef + u.coef = 0 then x else ⟨u.exp, t.coef + u.coef⟩ :: x)
    else u :: addTerm t x

/-- x + y. -/
def add (x y : Surd) : Surd := x.foldr addTerm y

/-- q · x for a rational q. -/
def scale (q : Rat) (x : Surd) : Surd :=
  if q = 0 then [] else x.map (fun t => ⟨t.exp, q * t.coef⟩)

/-- -x. -/
def neg (x : Surd) : Surd := scale (-1) x

/-- x - y. -/
def sub (x y : Surd) : Surd := add x (neg y)

/-- A rational as a real. -/
def ofRat (q : Rat) : Surd := if q = 0 then [] else [⟨0, q⟩]

/-- 2^n for an integer n. -/
def pow2Int : Int → Rat
  | .ofNat n => ((2 ^ n : Nat) : Rat)
  | .negSucc n => 1 / ((2 ^ (n + 1) : Nat) : Rat)

/-- The term c · 2^e with its exponent brought into [0, 1). -/
def mkTerm (e c : Rat) : Term := ⟨fracQ e, c * pow2Int e.floor⟩

/-- 2^e for a rational e. -/
def pow2 (e : Rat) : Surd := [mkTerm e 1]

/-- x · y. -/
def mul (x y : Surd) : Surd :=
  x.foldr (fun s acc => y.foldr (fun t acc' => addTerm (mkTerm (s.exp + t.exp) (s.coef * t.coef)) acc') acc) []

/-- A real given by terms in any order, brought to the canonical form. -/
def normalize (x : Surd) : Surd := x.foldr (fun t acc => addTerm (mkTerm t.exp t.coef) acc) []

/-- The bounds of 2^e, e in [0, 1), scaled by 2^k, after n binary digits of e: `sL`, `sU` bound 2^(2^-i), `aL`, `aU`
bound the power of the digits read so far. -/
def pow2Loop (k : Nat) : Nat → Nat → Nat → Nat → Nat → Rat → Nat × Nat
  | 0, _, sU, aL, aU, _ => (aL, aU * sU / 2 ^ k + 1)
  | n + 1, sL, sU, aL, aU, e =>
    let sL' := Nat.sqrt (sL * 2 ^ k)
    let sU' := Nat.sqrt (sU * 2 ^ k) + 1
    if 1 ≤ 2 * e then pow2Loop k n sL' sU' (aL * sL' / 2 ^ k) (aU * sU' / 2 ^ k + 1) (2 * e - 1)
    else pow2Loop k n sL' sU' aL aU (2 * e)

/-- Bounds of 2^k · 2^e for e in [0, 1). -/
def pow2Bounds (k : Nat) (e : Rat) : Nat × Nat := pow2Loop k k (2 * 2 ^ k) (2 * 2 ^ k) (2 ^ k) (2 ^ k) e

/-- Integer bounds of 2^k times a term. -/
def termBounds (k : Nat) (t : Term) : Int × Int :=
  let p := pow2Bounds k t.exp
  if 0 ≤ t.coef.num then
    (t.coef.num * p.1 / t.coef.den, -(-(t.coef.num * p.2) / t.coef.den))
  else (t.coef.num * p.2 / t.coef.den, -(-(t.coef.num * p.1) / t.coef.den))

/-- Integer bounds of 2^k · x. -/
def bounds (k : Nat) (x : Surd) : Int × Int :=
  x.foldr (fun t b => ((termBounds k t).1 + b.1, (termBounds k t).2 + b.2)) (0, 0)

/-- ⌊x⌋ from bounds at precision k, 2k, 4k, … until both bounds have one floor. -/
def floorSearch (x : Surd) : Nat → Nat → Int
  | 0, k => (bounds k x).1 / 2 ^ k
  | fuel + 1, k =>
    if (bounds k x).1 / 2 ^ k = (bounds k x).2 / 2 ^ k then (bounds k x).1 / 2 ^ k
    else floorSearch x fuel (2 * k)

/-- The rational value of a canonical real that is rational. -/
def toRat? : Surd → Option Rat
  | [] => some 0
  | [t] => if t.exp = 0 then some t.coef else none
  | _ :: _ :: _ => none

/-- The bits of the coefficients of x. -/
def coefBits (x : Surd) : Nat :=
  x.foldr (fun t n => Nat.log2 t.coef.num.natAbs + Nat.log2 t.coef.den + 2 + n) 4

/-- The common denominator of the exponents of x. -/
def expDen (x : Surd) : Nat := x.foldr (fun t n => Nat.lcm t.exp.den n) 1

/-- How often the precision may double. An irrational canonical x is an algebraic number of degree at most
`expDen x`, so its distance to the nearest integer has a lower bound of about 2^(-4 · coefBits · expDen), which 32 · 2^fuel
bits resolve (log 3). -/
def floorFuel (x : Surd) : Nat := Nat.log2 (coefBits x * expDen x) + 8

/-- ⌊x⌋ of a canonical real. -/
def floor (x : Surd) : Int :=
  match toRat? x with
  | some q => q.floor
  | none => floorSearch x (floorFuel x) 32

/-- x < q for a rational q. -/
def ltRat (x : Surd) (q : Rat) : Bool := floor (sub x (ofRat q)) < 0

/-- |x|. -/
def abs (x : Surd) : Surd := if floor x < 0 then neg x else x

/-- x - ⌊x⌋. -/
def frac (x : Surd) : Surd := sub x (ofRat (floor x))

/-- x rounded toward zero. -/
def trunc (x : Surd) : Int := if 0 ≤ floor x then floor x else -floor (neg x)

/-- The nearest integer to x ≥ 0, ties to even. -/
def roundEven (x : Surd) : Int :=
  let f := floor x
  let d := sub (frac x) (ofRat (1 / 2))
  if d = [] then (if f % 2 = 0 then f else f + 1) else if floor d < 0 then f else f + 1

/-- The nearest binary32 value to x ≥ 0, ties to even: a multiple of 2^-149 with a 24-bit significand. -/
def roundMag32 (x : Surd) : Rat :=
  let n := (floor (scale (2 ^ 149 : Nat) x)).toNat
  let sh := Nat.log2 n - 23
  (roundEven (scale ((2 ^ 149 : Nat) / (2 ^ sh : Nat)) x) : Rat) * (2 ^ sh : Nat) / (2 ^ 149 : Nat)

/-- x rounded to IEEE 754 binary32, to nearest, ties to even. -/
def round32 (x : Surd) : Rat := if floor x < 0 then -roundMag32 (neg x) else roundMag32 x

end Surd

/-! ### Arithmetic in the format of `AUDIO_REAL`: each operation's exact result, rounded by the format -/

namespace Fmt

/-- A result in the format. -/
def rnd (m : AudioReal) (x : Surd) : Surd :=
  match m with
  | .exactReals => x
  | .binary32 => Surd.ofRat (Surd.round32 x)

/-- A rational result in the format. -/
def rndQ (m : AudioReal) (q : Rat) : Rat :=
  match m with
  | .exactReals => q
  | .binary32 => Surd.round32 (Surd.ofRat q)

/-- x + y. -/
def add (m : AudioReal) (x y : Surd) : Surd := rnd m (Surd.add x y)

/-- x - y. -/
def sub (m : AudioReal) (x y : Surd) : Surd := rnd m (Surd.sub x y)

/-- x · y. -/
def mul (m : AudioReal) (x y : Surd) : Surd := rnd m (Surd.mul x y)

/-- q · x for a rational constant or variable q. -/
def mulQ (m : AudioReal) (q : Rat) (x : Surd) : Surd := rnd m (Surd.scale (rndQ m q) x)

/-- x / q for a rational q ≠ 0. -/
def divQ (m : AudioReal) (x : Surd) (q : Rat) : Surd := rnd m (Surd.scale (1 / rndQ m q) x)

/-- x - q for a rational q. -/
def subQ (m : AudioReal) (x : Surd) (q : Rat) : Surd := rnd m (Surd.sub x (Surd.ofRat (rndQ m q)))

/-- q - x for a rational q. -/
def rsubQ (m : AudioReal) (q : Rat) (x : Surd) : Surd := rnd m (Surd.sub (Surd.ofRat (rndQ m q)) x)

/-- frac(x). -/
def frac (m : AudioReal) (x : Surd) : Surd := rnd m (Surd.frac x)

/-- |x|. -/
def abs (m : AudioReal) (x : Surd) : Surd := rnd m (Surd.abs x)

/-- 2^e for a rational e. -/
def pow2 (m : AudioReal) (e : Rat) : Surd := rnd m (Surd.pow2 e)

/-- x < q for a rational constant q. -/
def ltQ (m : AudioReal) (x : Surd) (q : Rat) : Bool := Surd.ltRat x (rndQ m q)

end Fmt

end Sys2Proof.Machine
end

