-- ==== Sys2Proof/Machine/Audio.lean ====
section
/-! DEFINITION. The oscillator, the effect processors and the sample step of 42_audio (R250–R287). Arithmetic on
reals is in the format of `AUDIO_REAL`. -/

namespace Sys2Proof.Machine

/-! ### The sfx table (R250–R253) -/

/-- The fields of a note word (42_audio R251). -/
structure Note where
  key  : BitVec 6
  inst : BitVec 3
  vol  : BitVec 3
  fx   : BitVec 3
  deriving DecidableEq, Repr

/-- The fields of a note word: [5:0] KEY, [8:6] INST, [11:9] VOL, [14:12] FX; bit 15 is ignored (42_audio R251). -/
def noteOf (w : Half) : Note :=
  { key := w.extractLsb' 0 6, inst := w.extractLsb' 6 3, vol := w.extractLsb' 9 3, fx := w.extractLsb' 12 3 }

/-- `note(S, i)`: note i of record S, little-endian in bytes 2i and 2i + 1 (42_audio R250). -/
def noteAt (s : State) (S : Fin 64) (i : Nat) : Note := noteOf (sfxByte s S (2 * i + 1) ++ sfxByte s S (2 * i))

/-- SPEED, LOOP_START and LOOP_END of record S (42_audio R250). -/
def sfxSpeed (s : State) (S : Fin 64) : Nat := (sfxByte s S 65).toNat
def sfxLoopStart (s : State) (S : Fin 64) : Nat := (sfxByte s S 66).toNat
def sfxLoopEnd (s : State) (S : Fin 64) : Nat := (sfxByte s S 67).toNat

/-- `keyFreq(k)` = 440 · 2^((k - 33)/12) (42_audio R252). -/
def keyFreq (m : AudioReal) (k : BitVec 6) : Surd :=
  Fmt.mulQ m 440 (Fmt.pow2 m (Fmt.rndQ m (((k.toNat : Rat) - 33) / 12)))

/-- VOL / 7 (42_audio R253). -/
def volOf (m : AudioReal) (v : BitVec 3) : Rat := Fmt.rndQ m ((v.toNat : Rat) / 7)

/-! ### Waveforms (R260–R268), of t = frac(ph) or of the unwrapped phase ph -/

/-- Instrument 0, triangle: 0.354 · (|4t - 2| - 1) (42_audio R261). -/
def waveTriangle (m : AudioReal) (t : Surd) : Surd :=
  Fmt.mulQ m (354 / 1000) (Fmt.subQ m (Fmt.abs m (Fmt.subQ m (Fmt.mulQ m 4 t) 2)) 1)

/-- Instrument 1, tilted saw with its break at t = 0.9 (42_audio R262). -/
def waveTiltedSaw (m : AudioReal) (t : Surd) : Surd :=
  if Fmt.ltQ m t (9 / 10) then
    Fmt.mulQ m (406 / 1000) (Fmt.subQ m (Fmt.divQ m (Fmt.mulQ m 2 t) (9 / 10)) 1)
  else Fmt.mulQ m (406 / 1000) (Fmt.subQ m (Fmt.divQ m (Fmt.mulQ m 2 (Fmt.rsubQ m 1 t)) (1 / 10)) 1)

/-- Instrument 2, saw: 0.653 · (t < 0.5 ? t : t - 1) (42_audio R263). -/
def waveSaw (m : AudioReal) (t : Surd) : Surd :=
  Fmt.mulQ m (653 / 1000) (if Fmt.ltQ m t (1 / 2) then t else Fmt.subQ m t 1)

/-- Instrument 3, square: ±0.25, positive for t < 0.5 (42_audio R264). -/
def waveSquare (m : AudioReal) (t : Surd) : Surd :=
  Surd.ofRat (if Fmt.ltQ m t (1 / 2) then 1 / 4 else -1 / 4)

/-- Instrument 4, pulse: ±0.25, positive for t < 1/3 (42_audio R265). -/
def wavePulse (m : AudioReal) (t : Surd) : Surd :=
  Surd.ofRat (if Fmt.ltQ m t (1 / 3) then 1 / 4 else -1 / 4)

/-- Instrument 5, organ: two triangles (42_audio R266). -/
def waveOrgan (m : AudioReal) (t : Surd) : Surd :=
  if Fmt.ltQ m t (1 / 2) then
    Fmt.mulQ m (111 / 1000) (Fmt.rsubQ m 3 (Fmt.abs m (Fmt.subQ m (Fmt.mulQ m 24 t) 6)))
  else Fmt.mulQ m (111 / 1000) (Fmt.rsubQ m 1 (Fmt.abs m (Fmt.subQ m (Fmt.mulQ m 16 t) 12)))

/-- `NOISE1D`, a value in [-1, 1] (00_scope R10, 42_audio R267): the free function, bounded. -/
def noise1d (x : Surd) : Rat := min (max (Config.noise1d x) (-1)) 1

/-- Octave j of instrument 6: 0.75^j · NOISE1D(1.75 · 2.25^j · ph) (42_audio R267). -/
def noiseOctave (m : AudioReal) (ph : Surd) (j : Nat) : Surd :=
  Fmt.mulQ m ((3 / 4) ^ j) (Surd.ofRat (Fmt.rndQ m (noise1d (Fmt.mulQ m (7 / 4 * (9 / 4) ^ j) ph))))

/-- Instrument 6, noise: 0.4 times the sum of six octaves (42_audio R267). -/
def waveNoise (m : AudioReal) (ph : Surd) : Surd :=
  Fmt.mulQ m (2 / 5) ((List.range 6).foldl (fun acc j => Fmt.add m acc (noiseOctave m ph j)) [])

/-- Instrument 7, phaser, with k = |2 · frac(ph / 128) - 1| and u = frac(t + 0.5 · k) (42_audio R268). -/
def wavePhaser (m : AudioReal) (ph : Surd) : Surd :=
  let t := Fmt.frac m ph
  let k := Fmt.abs m (Fmt.subQ m (Fmt.mulQ m 2 (Fmt.frac m (Fmt.divQ m ph 128))) 1)
  let u := Fmt.frac m (Fmt.add m t (Fmt.mulQ m (1 / 2) k))
  Fmt.mulQ m (1667 / 10000)
    (Fmt.sub m (Fmt.abs m (Fmt.subQ m (Fmt.mulQ m 4 u) 2)) (Fmt.abs m (Fmt.subQ m (Fmt.mulQ m 8 t) 4)))

/-- `WAVE(inst, ph)` (42_audio R260). -/
def wave (m : AudioReal) (inst : BitVec 3) (ph : Surd) : Surd :=
  match inst.toNat with
  | 0 => waveTriangle m (Fmt.frac m ph)
  | 1 => waveTiltedSaw m (Fmt.frac m ph)
  | 2 => waveSaw m (Fmt.frac m ph)
  | 3 => waveSquare m (Fmt.frac m ph)
  | 4 => wavePulse m (Fmt.frac m ph)
  | 5 => waveOrgan m (Fmt.frac m ph)
  | 6 => waveNoise m ph
  | _ => wavePhaser m ph

/-! ### Note effects (R270–R276) -/

/-- The frequency and the volume of one sample. -/
structure Voice where
  freq : Surd
  vol  : Rat
  deriving DecidableEq, Repr

/-- The vibrato curve v = 4 · |frac(7.5 · offset) - 0.5| - 1 (42_audio R272). -/
def vibratoCurve (m : AudioReal) (offset : Rat) : Rat :=
  Fmt.rndQ m (Fmt.rndQ m (4 * |Fmt.rndQ m (fracQ (Fmt.rndQ m (15 / 2 * offset)) - 1 / 2)|) - 1)

/-- `VIBRATO(freq, offset)`: the formula of 42_audio R272, or the free function of the other setting, which is
taken as a frequency: not negative. -/
def vibrato (p : Params) (freq : Surd) (offset : Rat) : Surd :=
  match p.vibrato with
  | .formula =>
    Fmt.mul p.audioReal freq
      (Fmt.pow2 p.audioReal (Fmt.rndQ p.audioReal (vibratoCurve p.audioReal offset / 12)))
  | .other =>
    let f := Fmt.rnd p.audioReal (Surd.normalize (Config.vibratoOther freq offset))
    if Surd.floor f < 0 then [] else f

/-- The note of the 4-note block whose key the arpeggio takes: 4 · ⌊n/4⌋ + k, with k the step count mod 4 and steps of
A ticks (42_audio R276). -/
def arpeggioNote (m : AudioReal) (fx : BitVec 3) (offset : Rat) (n speed : Nat) : Nat :=
  let A0 : Nat := if fx = 6#3 then 4 else 8
  let A : Nat := if speed ≤ 8 then A0 / 2 else A0
  let k := ((Fmt.rndQ m (Fmt.rndQ m (offset * speed) / A)).floor % 4).toNat
  4 * (n / 4) + k

/-- `effect(N, C, S, speed)` for note N at index n of record S on channel C (42_audio R270–R276). -/
def effect (s : State) (N : Note) (C : Channel) (S : Fin 64) (n speed : Nat) : Voice :=
  let m := s.params.audioReal
  let freq := keyFreq m N.key
  let vol := volOf m N.vol
  let t := Fmt.rndQ m (C.offset - n)
  match N.fx.toNat with
  | 1 =>
    let pf := keyFreq m C.prevKey
    ⟨Fmt.add m pf (Fmt.mulQ m t (Fmt.sub m freq pf)),
      if 0 < C.prevVol then
        Fmt.rndQ m (C.prevVol + Fmt.rndQ m (Fmt.rndQ m (vol - C.prevVol) * t))
      else vol⟩
  | 2 => ⟨vibrato s.params freq C.offset, vol⟩
  | 3 => ⟨Fmt.mulQ m (Fmt.rndQ m (1 - t)) freq, vol⟩
  | 4 => ⟨freq, Fmt.rndQ m (vol * t)⟩
  | 5 => ⟨freq, Fmt.rndQ m (vol * Fmt.rndQ m (1 - t))⟩
  | 6 => ⟨keyFreq m (noteAt s S (arpeggioNote m N.fx C.offset n speed)).key, vol⟩
  | 7 => ⟨keyFreq m (noteAt s S (arpeggioNote m N.fx C.offset n speed)).key, vol⟩
  | _ => ⟨freq, vol⟩

/-! ### The sample step (R280–R286) -/

/-- The speed a record plays at, max(1, SPEED) (42_audio R280). -/
def playSpeed (s : State) (S : Fin 64) : Nat := max 1 (sfxSpeed s S)

/-- `nextOffset` of `advance(C, S)`, with the loop wrap (42_audio R280). DESIGN CHOICE (log 7): under binary32 each sample's
addition is rounded, so at high SPEED the note boundaries move by more than the one sample of R287. -/
def nextOffset (s : State) (C : Channel) (S : Fin 64) : Rat :=
  let m := s.params.audioReal
  let next := Fmt.rndQ m (C.offset + Fmt.rndQ m (1 / (183 * (playSpeed s S : Rat))))
  let ls := sfxLoopStart s S
  let le := sfxLoopEnd s S
  if C.loop && ls < le && (le : Rat) ≤ next then
    Fmt.rndQ m (ls + Fmt.rndQ m (fmodrQ (Fmt.rndQ m (next - ls)) ((le : Rat) - ls)))
  else next

/-- `bitcrush(s)` (42_audio R285). -/
def bitcrush (v : Int) : Int := tdiv v 0x1000 * 0x1249

/-- `toSample(r)` (42_audio R286): the truncated scaled sample, or the next free draw when it leaves int16. The
second component is the draw counter afterwards. -/
def toSample (m : AudioReal) (draws : Nat) (r : Surd) : Int × Nat :=
  let v := Surd.trunc (Fmt.mulQ m 32767 r)
  if -32768 ≤ v ∧ v ≤ 32767 then (v, draws) else ((Config.freeSample draws).toInt, draws + 1)

/-- The phase after the advance of one sample (42_audio R283). -/
def nextPhase (m : AudioReal) (ph freq : Surd) : Surd := Fmt.add m ph (Fmt.divQ m freq 22050)

/-- What one sample of a Playing channel makes: the new phase, the sample before its narrowing, and the draw counter. A
silent note leaves the phase (42_audio R283, R284). -/
def voiceSample (s : State) (c : Fin 4) (S : Fin 64) : Surd × Int × Nat :=
  let m := s.params.audioReal
  let C := s.ch[c]
  let n := C.offset.floor.toNat
  let N := noteAt s S n
  if N.vol = 0 then (C.phase, 0, s.draws)
  else
    let v := effect s N C S n (playSpeed s S)
    let ph := nextPhase m C.phase v.freq
    let smp := toSample m s.draws (Fmt.mulQ m v.vol (wave m N.inst ph))
    (ph, if s.distort.getLsbD c.val then bitcrush smp.1 else smp.1, smp.2)

/-- The channel after one sample of record S: the phase, the snapshot of R281, the offset or the end of R282. -/
def stepChannel (s : State) (c : Fin 4) (S : Fin 64) : Channel :=
  let m := s.params.audioReal
  let C := s.ch[c]
  let n := C.offset.floor
  let N := noteAt s S n.toNat
  let next := nextOffset s C S
  let C1 := { C with phase := (voiceSample s c S).1 }
  let C2 := if next.floor ≠ n ∧ next < 32 then { C1 with prevKey := N.key, prevVol := volOf m N.vol } else C1
  if 32 ≤ next then C2.idle else { C2 with offset := next }

/-- One sample of a Playing channel (42_audio R284): the response is sext_32(s[15:0]). -/
def playSample (s : State) (c : Fin 4) (S : Fin 64) : State :=
  let v := voiceSample s c S
  respondAud { updateCh s c (fun _ => stepChannel s c S) with draws := v.2.2 }
    ((BitVec.ofInt 16 v.2.1).signExtend 32)

/-- SAMPLE (42_audio R284): a channel above 3 and an Idle channel answer 0 and change nothing. -/
def execSample (ch : Nat) (s : State) : Out :=
  if h : ch < 4 then
    match (s.ch[ch]).sfx with
    | none => .next (respondAud s 0)
    | some S => .next (playSample s ⟨ch, h⟩ S)
  else .next (respondAud s 0)

end Sys2Proof.Machine
end

