-- ==== Sys2Proof/Machine/Draw.lean ====
section
/-! DEFINITION. The drawing commands of 40_rasterizer: PSET, PGET, HLINE, VLINE, LINE, CIRC, CIRCFILL, CLIP, CLS
and CAMERA. -/

namespace Sys2Proof.Machine

/-- PSET (40_rasterizer R150). -/
def execPset (x y c : Arg) (s : State) : Out :=
  let (cb, s1) := resolveColor c s
  .next (paint s1 [⟨devx s1 (int16 (argWord x)), devy s1 (int16 (argWord y)), cb⟩])

/-- PGET (40_rasterizer R151). -/
def execPget (x y : Arg) (s : State) : Out :=
  let n := getPixel s (devx s (int16 (argWord x))) (devy s (int16 (argWord y)))
  .next (respond s [resultInt n.toNat])

/-- HLINE (40_rasterizer R152). -/
def execHline (x0 x1 y c : Arg) (s : State) : Out :=
  let (cb, s1) := resolveColor c s
  .next (paint s1 (hlineDots (devx s1 (int16 (argWord x0))) (devx s1 (int16 (argWord x1)))
    (devy s1 (int16 (argWord y))) cb))

/-- VLINE (40_rasterizer R153). -/
def execVline (x y0 y1 c : Arg) (s : State) : Out :=
  let (cb, s1) := resolveColor c s
  .next (paint s1 (vlineDots (devx s1 (int16 (argWord x))) (devy s1 (int16 (argWord y0)))
    (devy s1 (int16 (argWord y1))) cb))

/-- The start point of a LINE, as its presence bits choose it: explicit, the anchor, or none (40_rasterizer
R160). -/
def lineStart (x0 y0 : Arg) (s : State) : Option (Int × Int) :=
  match x0, y0 with
  | some a, some b => some (int16 a, int16 b)
  | none, none => some (s.anchorX.toInt, s.anchorY.toInt)
  | some _, none => none
  | none, some _ => none

/-- LINE (40_rasterizer R160): an incomplete slot set changes nothing; the anchor takes the end point before the
camera is subtracted. -/
def execLine (x0 y0 x1 y1 c : Arg) (s : State) : Out :=
  match x1, y1, lineStart x0 y0 s with
  | some ex, some ey, some (X0, Y0) =>
    let (cb, s1) := resolveColor c s
    let s2 := paint s1 (lineDots s1.params.lineTie (devx s1 X0) (devy s1 Y0) (devx s1 (int16 ex))
      (devy s1 (int16 ey)) cb)
    .next { s2 with anchorX := half16 ex, anchorY := half16 ey }
  | _, _, _ => .next s

/-- CIRC (40_rasterizer R166). -/
def execCirc (x y r c : Arg) (s : State) : Out :=
  let (cb, s1) := resolveColor c s
  let X := devx s1 (int16 (argWord x))
  let Y := devy s1 (int16 (argWord y))
  .next (paint s1 ((circleSteps (int16 (argWord r))).flatMap (fun d => outlineDots X Y cb d.1 d.2)))

/-- CIRCFILL (40_rasterizer R167). -/
def execCircfill (x y r c : Arg) (s : State) : Out :=
  let (cb, s1) := resolveColor c s
  let X := devx s1 (int16 (argWord x))
  let Y := devy s1 (int16 (argWord y))
  .next (paint s1 ((circleSteps (int16 (argWord r))).flatMap (fun d => fillDots X Y cb d.1 d.2)))

/-- The full-frame clip rectangle. -/
def fullClip : Clip := ⟨0, 0, 128, 128⟩

/-- CLIP (40_rasterizer R170): no h resets; the edges are computed without wrap and clamped. -/
def execClip (x y w h : Arg) (s : State) : Out :=
  match h with
  | none => .next { s with clip := fullClip }
  | some hw =>
    let X := int16 (argWord x)
    let Y := int16 (argWord y)
    let W := int16 (argWord w)
    let H := int16 hw
    .next { s with clip := ⟨clipOfInt X, clipOfInt Y, clipOfInt (X + W), clipOfInt (Y + H)⟩ }

/-- CLS (40_rasterizer R172): every FB byte gets the colour in both nibbles; clip and cursor are restored. -/
def execCls (c : Arg) (s : State) : Out :=
  let n := nibOf (argWord c)
  .next { s with mem := Memory.fill s.mem fbBase 8192 (n ++ n), clip := fullClip, cursorX := 0, cursorY := 0 }

/-- CAMERA (40_rasterizer R173). -/
def execCamera (x y : Arg) (s : State) : Out :=
  let s1 := { s with cameraX := half16 (argWord x), cameraY := half16 (argWord y) }
  .next (respond s1 [resultInt s.cameraX.toInt, resultInt s.cameraY.toInt])

end Sys2Proof.Machine
end

