-- ==== Sys2Proof/Machine/Palette.lean ====
section
/-! DEFINITION. The palette commands of 41_sprite_map: PAL and PALT. -/

namespace Sys2Proof.Machine

/-- The draw table of the identity mapping with only index 0 transparent (41_sprite_map R220). -/
def identityDrawPal : Vector (BitVec 5) 16 := Vector.ofFn fun i => mkEntry (i.val = 0) (BitVec.ofNat 4 i.val)

/-- The identity screen table. -/
def identityScreenPal : Vector Byte 16 := Vector.ofFn fun i => BitVec.ofNat 8 i.val

/-- PAL (41_sprite_map R220). -/
def execPal (c0 c1 p : Arg) (s : State) : Out :=
  match c0, c1 with
  | none, none => .next { s with drawPal := identityDrawPal, screenPal := identityScreenPal }
  | some a, some b =>
    let page := int16 (argWord p)
    if page = 0 then .next (setColor s (palIndex (nibOf a)) (nibOf b))
    else if page = 1 then .next { s with screenPal := s.screenPal.set (palIndex (nibOf a)).val (byteOf b) }
    else .next s
  | some _, none => .next s
  | none, some _ => .next s

/-- PALT (41_sprite_map R221). -/
def execPalt (c f : Arg) (s : State) : Out :=
  match c, f with
  | none, none =>
    .next { s with drawPal := Vector.ofFn fun i => mkEntry (i.val = 0) (entryColor s.drawPal[i]) }
  | none, some _ => .next s
  | some a, none => .next (respond s [resultBool (entryTrans s.drawPal[palIndex (nibOf a)])])
  | some a, some b => .next (setTrans s (palIndex (nibOf a)) (boolOf b))

end Sys2Proof.Machine
end

