-- ==== Sys2Proof/Machine/PortOps.lean ====
section
/-! DEFINITION. NOP (30_encoding R110) and the memory-port transactions MEMR and MEMW (30_encoding R103, 20_memory
R75). -/

namespace Sys2Proof.Machine

/-- NOP: writes nothing, responds nothing (30_encoding R110). -/
def execNop (s : State) : Out := .next s

/-- MEMR: the byte in [7:0] of the response, zeros above (30_encoding R103). -/
def execMemr (addr : Nat) (s : State) : Out :=
  if addr < 2 ^ 16 then .next (respondMem s ((memRead s addr).setWidth 32)) else .fault (.outsideAddressSpace addr)

/-- MEMW: one byte stored (20_memory R75), nothing answered. -/
def execMemw (addr : Nat) (v : Byte) (s : State) : Out :=
  if addr < 2 ^ 16 then .next (memWrite s addr v) else .fault (.outsideAddressSpace addr)

end Sys2Proof.Machine
end

