-- ==== Sys2Proof/Machine/Sprite.lean ====
section
/-! DEFINITION. The blit commands of 41_sprite_map: SPR, SSPR and MAP, with their shared operations. -/

namespace Sys2Proof.Machine

/-- `sheetSrc(x, y)`: a source pixel off the sheet reads 0 (41_sprite_map R201). -/
def sheetSrc (s : State) (x y : Int) : Nibble :=
  if 0 ≤ x ∧ x < 128 ∧ 0 ≤ y ∧ y < 128 then sheetGet s x.toNat y.toNat else 0

/-- `blitPixel(x, y, n)` (41_sprite_map R202): a transparent entry draws nothing. -/
def blitDot (s : State) (x y : Int) (n : Nibble) : Option Dot :=
  let e := s.drawPal[palIndex n]
  if entryTrans e then none else some ⟨wrap16 x, wrap16 y, solid (entryColor e)⟩

/-- A sprite size of SPR in pixels: trunc(fix(a) · 8), or 8 when absent (41_sprite_map R200). -/
def cels8 (a : Arg) : Int :=
  match a with
  | some w => truncQ (fix w * 8)
  | none => 8

/-- `fx ? n - 1 - i : i`. -/
def flip (f : Bool) (n i : Int) : Int := if f then n - 1 - i else i

/-- The dots of SPR in the rule's order (41_sprite_map R200). -/
def sprDots (s : State) (n : Byte) (X Y W8 H8 : Int) (fx fy : Bool) : List Dot :=
  (upTo H8).flatMap fun j => (upTo W8).filterMap fun i =>
    blitDot s (X + i) (Y + j)
      (sheetSrc s (8 * ((n.toNat % 16 : Nat) : Int) + flip fx W8 i) (8 * ((n.toNat / 16 : Nat) : Int) + flip fy H8 j))

/-- SPR (41_sprite_map R200). -/
def execSpr (n x y w h fx fy : Arg) (s : State) : Out :=
  .next (paint s (sprDots s (byteOf (argWord n)) (devx s (int16 (argWord x))) (devy s (int16 (argWord y)))
    (cels8 w) (cels8 h) (boolOf (argWord fx)) (boolOf (argWord fy))))

/-- The dots of SSPR in the rule's order (41_sprite_map R203). -/
def ssprDots (s : State) (sx sy sw sh X Y dw dh : Int) (fx fy : Bool) : List Dot :=
  (upTo dh).flatMap fun j => (upTo dw).filterMap fun i =>
    blitDot s (X + i) (Y + j)
      (sheetSrc s (sx + tdiv (sw * flip fx dw i) dw) (sy + tdiv (sh * flip fy dh j) dh))

/-- SSPR (41_sprite_map R203): the destination size defaults to the source size. -/
def execSspr (sx sy sw sh dx dy dw dh fx fy : Arg) (s : State) : Out :=
  let SW := int16 (argWord sw)
  let SH := int16 (argWord sh)
  .next (paint s (ssprDots s (int16 (argWord sx)) (int16 (argWord sy)) SW SH (devx s (int16 (argWord dx)))
    (devy s (int16 (argWord dy))) (int16D dw SW) (int16D dh SH) (boolOf (argWord fx)) (boolOf (argWord fy))))

/-- The dot of pixel (px, py) of a MAP (41_sprite_map R205): a cell off the map, a tile the layer filter rejects,
tile 0 and a transparent colour draw nothing. -/
def mapDot (s : State) (cx cy X Y : Int) (m : Byte) (px py : Int) : Option Dot :=
  let mx := cx + fdiv px 8
  let my := cy + fdiv py 8
  if 0 ≤ mx ∧ mx < 128 ∧ 0 ≤ my ∧ my < 64 then
    let idx := mapGet s mx.toNat my.toNat
    if layerPass s.params.layerMatch (flagsGet s idx.toNat) m && idx ≠ 0 then
      blitDot s (X + px) (Y + py)
        (sheetGet s (8 * (idx.toNat % 16) + (px % 8).toNat) (8 * (idx.toNat / 16) + (py % 8).toNat))
    else none
  else none

/-- The dots of MAP in the rule's order (41_sprite_map R205). -/
def mapDots (s : State) (cx cy X Y cw ch : Int) (m : Byte) : List Dot :=
  (upTo (8 * ch)).flatMap fun py => (upTo (8 * cw)).filterMap fun px => mapDot s cx cy X Y m px py

/-- MAP (41_sprite_map R205): each size has its own default. -/
def execMap (cx cy dx dy cw ch layer : Arg) (s : State) : Out :=
  .next (paint s (mapDots s (int16 (argWord cx)) (int16 (argWord cy)) (devx s (int16 (argWord dx)))
    (devy s (int16 (argWord dy))) (int16D cw 128) (int16D ch 32) (byteOf (argWord layer))))

end Sys2Proof.Machine
end

