-- ==== Sys2Proof/Machine/Trigger.lean ====
section
/-! DEFINITION. The sfx trigger SFX (42_audio R290, R291). -/

namespace Sys2Proof.Machine

/-- The channel numbers 0..3 in order. -/
def channels : List (Fin 4) := [0, 1, 2, 3]

/-- The lowest channel number with a property. -/
def lowestCh (p : Fin 4 → Bool) : Option (Fin 4) := channels.find? p

/-- min over i of ch[i].sfx, Idle counted as -1. -/
def minSfx (s : State) : Int :=
  min (min (sfxInt s.ch[0]) (sfxInt s.ch[1])) (min (sfxInt s.ch[2]) (sfxInt s.ch[3]))

/-- `pickChannel(id)` (42_audio R291): the channel playing id, else the lowest Idle one, else the lowest with the
least id. -/
def pickChannel (s : State) (id : Fin 64) : Fin 4 :=
  match lowestCh (fun c => s.ch[c].sfx = some id) with
  | some c => c
  | none =>
    match lowestCh (fun c => s.ch[c].sfx = none) with
    | some c => c
    | none => (lowestCh (fun c => sfxInt s.ch[c] = minSfx s)).getD 0

/-- A channel as a trigger starts it (42_audio R290). -/
def startedCh (id : Fin 64) (off : Int) : Channel :=
  { sfx := some id, offset := ((max 0 off : Int) : Rat), phase := [], loop := true, prevKey := 24#6, prevVol := 0 }

/-- The channels after channel c starts id: any other channel playing id stops (42_audio R290). -/
def triggerCh (s : State) (c : Fin 4) (id : Fin 64) (off : Int) : State :=
  { s with ch := Vector.ofFn fun i =>
      if i = c then startedCh id off else if s.ch[i].sfx = some id then s.ch[i].idle else s.ch[i] }

/-- The channel number of an argument in 0..3. -/
def chOf (n : Int) : Fin 4 := Fin.ofNat 4 n.toNat

/-- The sfx id of an argument in 0..63. -/
def idOf (n : Int) : Fin 64 := Fin.ofNat 64 n.toNat

/-- The ranges SFX accepts (42_audio R290). -/
def sfxArgsValid (id chn off : Int) : Bool :=
  -2 ≤ id && id ≤ 63 && -1 ≤ chn && chn ≤ 3 && 0 ≤ off && off ≤ 31

/-- SFX (42_audio R290). -/
def execSfx (id ch off : Arg) (s : State) : Out :=
  let ID := int16 (argWord id)
  let chn := int16D ch (-1)
  let o := int16D off 0
  if !sfxArgsValid ID chn o then .next s
  else if ID = -1 then (if chn = -1 then .next s else .next (updateCh s (chOf chn) Channel.idle))
  else if ID = -2 then
    (if chn = -1 then .next s else .next (updateCh s (chOf chn) (fun c => { c with loop := false })))
  else .next (triggerCh s (if chn = -1 then pickChannel s (idOf ID) else chOf chn) (idOf ID) o)

end Sys2Proof.Machine
end

