-- ==== Sys2Proof/Machine/Dispatch.lean ====
section
/-! DEFINITION. The meaning of every transaction: one arm per constructor of Instr. -/

namespace Sys2Proof.Machine

/-- The meaning of an instruction (30_encoding R109 and the rules it names). -/
def exec (i : Instr) (s : State) : Host.Outcome State Fault Refusal :=
  match i with
  | .nop => Sys2Proof.Machine.execNop s
  | .pset x y c => Sys2Proof.Machine.execPset x y c s
  | .pget x y => Sys2Proof.Machine.execPget x y s
  | .line x0 y0 x1 y1 c => Sys2Proof.Machine.execLine x0 y0 x1 y1 c s
  | .hline x0 x1 y c => Sys2Proof.Machine.execHline x0 x1 y c s
  | .vline x y0 y1 c => Sys2Proof.Machine.execVline x y0 y1 c s
  | .circ x y r c => Sys2Proof.Machine.execCirc x y r c s
  | .circfill x y r c => Sys2Proof.Machine.execCircfill x y r c s
  | .clip x y w h => Sys2Proof.Machine.execClip x y w h s
  | .cls c => Sys2Proof.Machine.execCls c s
  | .camera x y => Sys2Proof.Machine.execCamera x y s
  | .spr n x y w h fx fy => Sys2Proof.Machine.execSpr n x y w h fx fy s
  | .sspr sx sy sw sh dx dy dw dh fx fy => Sys2Proof.Machine.execSspr sx sy sw sh dx dy dw dh fx fy s
  | .map cx cy dx dy cw ch layer => Sys2Proof.Machine.execMap cx cy dx dy cw ch layer s
  | .mget x y => Sys2Proof.Machine.execMget x y s
  | .mset x y v => Sys2Proof.Machine.execMset x y v s
  | .sget x y => Sys2Proof.Machine.execSget x y s
  | .sset x y c => Sys2Proof.Machine.execSset x y c s
  | .fget n b => Sys2Proof.Machine.execFget n b s
  | .fset n b v => Sys2Proof.Machine.execFset n b v s
  | .pal c0 c1 p => Sys2Proof.Machine.execPal c0 c1 p s
  | .palt c f => Sys2Proof.Machine.execPalt c f s
  | .sfx id ch off => Sys2Proof.Machine.execSfx id ch off s
  | .memr addr => Sys2Proof.Machine.execMemr addr s
  | .memw addr v => Sys2Proof.Machine.execMemw addr v s
  | .sample ch => Sys2Proof.Machine.execSample ch s

end Sys2Proof.Machine
end

