-- ==== Sys2Proof/WellFormed.lean ====
section
/-! DEFINITION. Which terms of `Instr` have an encoding: the address of a memory transaction is 16 bits wide
(30_encoding R103, 20_memory R70) and the channel of a sample request is an unsigned byte (30_encoding R104).
A command is well-formed with every set of present slots and every argument word (30_encoding R100, R107). -/

namespace Sys2Proof

/-- The check a decoded transaction passes. -/
def WellFormed : Instr → Bool
  | .memr addr => addr < 2 ^ 16
  | .memw addr _ => addr < 2 ^ 16
  | .sample ch => ch < 2 ^ 8
  | .nop | .pset .. | .pget .. | .line .. | .hline .. | .vline .. | .circ .. | .circfill .. | .clip ..
  | .cls .. | .camera .. | .spr .. | .sspr .. | .map .. | .mget .. | .mset .. | .sget .. | .sset ..
  | .fget .. | .fset .. | .pal .. | .palt .. | .sfx .. => true

end Sys2Proof
end

