-- ==== Sys2Proof/Decode.lean ====
section
/-! DEFINITION. The decoder and the encoder of 30_encoding: formats CMD (R100), MEM (R103) and AUD (R104).

The decoder is total on any list of words of a port. It answers an instruction, or names why the block ignores
the words (R108, R103), or says that the packet's words have not all arrived. -/

namespace Sys2Proof

/-- Why the block ignores a whole packet or transaction (30_encoding R108, R103). -/
inductive Ignored where
  /-- OP is not in the table of R109. -/
  | reservedOpcode
  /-- The header's Z field is not 0. -/
  | nonzeroZ
  /-- Bits [30:24] of a MEM word are not 0. -/
  | reservedMemBits
  deriving DecidableEq, Repr

/-- What the decoder answers; `rest` is what follows the transaction's words. -/
inductive Decoded where
  | instr (i : Instr) (rest : List Word)
  | ignored (why : Ignored) (rest : List Word)
  | incomplete
  deriving DecidableEq, Repr

namespace Header

/-- OP, bits [7:0] of a command header (30_encoding R100). -/
def op (h : Word) : Byte := h.extractLsb' 0 8

/-- P, the presence mask, bits [23:8]. -/
def presence (h : Word) : Half := h.extractLsb' 8 16

/-- Z, bits [31:24]. -/
def z (h : Word) : Byte := h.extractLsb' 24 8

/-- The header word of the three fields. -/
def mk (z : Byte) (p : Half) (op : Byte) : Word := z ++ p ++ op

end Header

/-- The number of 1 bits among bits 0 .. n-1 of `p`. -/
def popcountTo : Nat → Half → Nat
  | 0, _ => 0
  | n + 1, p => (if p.getLsbD n then 1 else 0) + popcountTo n p

/-- How many argument words follow a header (30_encoding R101). -/
def argCount (h : Word) : Nat := popcountTo 16 (Header.presence h)

/-- The slots `k`, `k+1`, …, `k+n-1` of a packet with presence mask `p`: the word of each present slot in
increasing order (30_encoding R100). -/
def slotsFrom : Nat → Nat → Half → List Word → List Arg
  | 0, _, _, _ => []
  | n + 1, k, p, ws =>
    if p.getLsbD k then ws.head? :: slotsFrom n (k + 1) p ws.tail else none :: slotsFrom n (k + 1) p ws

/-- The command of opcode `op` with argument slots `a` (30_encoding R109); `none` for a reserved opcode. A slot
the command does not define is dropped (R108). -/
def commandOf (op : Nat) (a : List Arg) : Option Instr :=
  let s := fun i => a.getD i none
  match op with
  | 0x00 => some .nop
  | 0x01 => some (.pset (s 0) (s 1) (s 2))
  | 0x02 => some (.pget (s 0) (s 1))
  | 0x03 => some (.line (s 0) (s 1) (s 2) (s 3) (s 4))
  | 0x04 => some (.hline (s 0) (s 1) (s 2) (s 3))
  | 0x05 => some (.vline (s 0) (s 1) (s 2) (s 3))
  | 0x06 => some (.circ (s 0) (s 1) (s 2) (s 3))
  | 0x07 => some (.circfill (s 0) (s 1) (s 2) (s 3))
  | 0x08 => some (.clip (s 0) (s 1) (s 2) (s 3))
  | 0x09 => some (.cls (s 0))
  | 0x0A => some (.camera (s 0) (s 1))
  | 0x10 => some (.spr (s 0) (s 1) (s 2) (s 3) (s 4) (s 5) (s 6))
  | 0x11 => some (.sspr (s 0) (s 1) (s 2) (s 3) (s 4) (s 5) (s 6) (s 7) (s 8) (s 9))
  | 0x12 => some (.map (s 0) (s 1) (s 2) (s 3) (s 4) (s 5) (s 6))
  | 0x13 => some (.mget (s 0) (s 1))
  | 0x14 => some (.mset (s 0) (s 1) (s 2))
  | 0x15 => some (.sget (s 0) (s 1))
  | 0x16 => some (.sset (s 0) (s 1) (s 2))
  | 0x17 => some (.fget (s 0) (s 1))
  | 0x18 => some (.fset (s 0) (s 1) (s 2))
  | 0x19 => some (.pal (s 0) (s 1) (s 2))
  | 0x1A => some (.palt (s 0) (s 1))
  | 0x20 => some (.sfx (s 0) (s 1) (s 2))
  | _ => none

/-- A command packet: its length is known from the header alone (30_encoding R101), so an ignored packet's
argument words are consumed too (R108). -/
def decodeCommand : List Word → Decoded
  | [] => .incomplete
  | h :: ws =>
    let n := argCount h
    if ws.length < n then .incomplete
    else if Header.z h ≠ 0 then .ignored .nonzeroZ (ws.drop n)
    else
      match commandOf (Header.op h).toNat (slotsFrom 16 0 (Header.presence h) (ws.take n)) with
      | some i => .instr i (ws.drop n)
      | none => .ignored .reservedOpcode (ws.drop n)

/-- A memory-port word: [31] W, [30:24] 0, [23:8] ADDR, [7:0] DATA (30_encoding R103). -/
def decodeMemory : List Word → Decoded
  | [] => .incomplete
  | w :: ws =>
    if w.extractLsb' 24 7 ≠ 0 then .ignored .reservedMemBits ws
    else if w.getLsbD 31 then .instr (.memw (w.extractLsb' 8 16).toNat (w.extractLsb' 0 8)) ws
    else .instr (.memr (w.extractLsb' 8 16).toNat) ws

/-- An audio-port word: [7:0] CH, the rest ignored (30_encoding R104). -/
def decodeAudio : List Word → Decoded
  | [] => .incomplete
  | w :: ws => .instr (.sample (w.extractLsb' 0 8).toNat) ws

/-- The decoder: the next transaction of a port's words. -/
def decode : Port → List Word → Decoded
  | .command, ws => decodeCommand ws
  | .memory, ws => decodeMemory ws
  | .audio, ws => decodeAudio ws

/-- The opcode of a command (30_encoding R109); `none` for a port transaction. -/
def Instr.opcode : Instr → Option Byte
  | .nop => some 0x00#8
  | .pset .. => some 0x01#8
  | .pget .. => some 0x02#8
  | .line .. => some 0x03#8
  | .hline .. => some 0x04#8
  | .vline .. => some 0x05#8
  | .circ .. => some 0x06#8
  | .circfill .. => some 0x07#8
  | .clip .. => some 0x08#8
  | .cls .. => some 0x09#8
  | .camera .. => some 0x0A#8
  | .spr .. => some 0x10#8
  | .sspr .. => some 0x11#8
  | .map .. => some 0x12#8
  | .mget .. => some 0x13#8
  | .mset .. => some 0x14#8
  | .sget .. => some 0x15#8
  | .sset .. => some 0x16#8
  | .fget .. => some 0x17#8
  | .fset .. => some 0x18#8
  | .pal .. => some 0x19#8
  | .palt .. => some 0x1A#8
  | .sfx .. => some 0x20#8
  | .memr _ => none
  | .memw _ _ => none
  | .sample _ => none

/-- The argument slots of a command in slot order (30_encoding R109). -/
def Instr.slots : Instr → List Arg
  | .nop => []
  | .pset x y c => [x, y, c]
  | .pget x y => [x, y]
  | .line x0 y0 x1 y1 c => [x0, y0, x1, y1, c]
  | .hline x0 x1 y c => [x0, x1, y, c]
  | .vline x y0 y1 c => [x, y0, y1, c]
  | .circ x y r c => [x, y, r, c]
  | .circfill x y r c => [x, y, r, c]
  | .clip x y w h => [x, y, w, h]
  | .cls c => [c]
  | .camera x y => [x, y]
  | .spr n x y w h fx fy => [n, x, y, w, h, fx, fy]
  | .sspr sx sy sw sh dx dy dw dh fx fy => [sx, sy, sw, sh, dx, dy, dw, dh, fx, fy]
  | .map cx cy dx dy cw ch layer => [cx, cy, dx, dy, cw, ch, layer]
  | .mget x y => [x, y]
  | .mset x y v => [x, y, v]
  | .sget x y => [x, y]
  | .sset x y c => [x, y, c]
  | .fget n b => [n, b]
  | .fset n b v => [n, b, v]
  | .pal c0 c1 p => [c0, c1, p]
  | .palt c f => [c, f]
  | .sfx id ch off => [id, ch, off]
  | .memr _ => []
  | .memw _ _ => []
  | .sample _ => []

/-- The presence mask of a list of slots: bit i is set when slot i is present (30_encoding R100). -/
def presenceOf : List Arg → Half
  | [] => 0
  | a :: as => (presenceOf as <<< 1) ||| (if a.isSome then 1 else 0)

/-- A command packet: the header and the words of the present slots in order (30_encoding R100). -/
def encodeCommand (op : Byte) (slots : List Arg) : List Word :=
  Header.mk 0 (presenceOf slots) op :: slots.reduceOption

/-- The words of an instruction on its port: a command packet (30_encoding R100), a MEM word with DATA 0 for a
read (R103), an AUD word with the ignored bits 0 (R104). -/
def encode (i : Instr) : List Word :=
  match i with
  | .memr addr => [0#8 ++ BitVec.ofNat 16 addr ++ 0#8]
  | .memw addr v => [0x80#8 ++ BitVec.ofNat 16 addr ++ v]
  | .sample ch => [0#24 ++ BitVec.ofNat 8 ch]
  | i => encodeCommand (i.opcode.getD 0) i.slots

/-- The words of one instruction given as one number (the opcode table's numbering): the first word is bits
[31:0], and the argument words a command header calls for count on from bit 32 (30_encoding R101). -/
def tableWords (p : Port) (w : Nat) : List Word :=
  let h : Word := BitVec.ofNat 32 w
  match p with
  | .command => h :: (List.range (argCount h)).map (fun k => BitVec.ofNat 32 (w >>> (32 * (k + 1))))
  | .memory => [h]
  | .audio => [h]

/-- The port a bare word of the opcode table is read on. The table's rows of the three formats overlap (the word 0
is NOP, MEMR and SAMPLE), and only the port tells them apart. DESIGN CHOICE (log 12): a word that is a command
packet is read as one, else a word that is a MEM transaction as one, else as an AUD request. -/
def tablePort (w : Nat) : Port :=
  match decode .command (tableWords .command w) with
  | .instr _ _ => .command
  | _ =>
    match decode .memory (tableWords .memory w) with
    | .instr _ _ => .memory
    | _ => .audio

/-- The instruction the decoder reads from an opcode-table word; `nbits` bounds the bits that count. -/
def decodeTableWord (nbits w : Nat) : Option Instr :=
  let v := w % 2 ^ nbits
  match decode (tablePort v) (tableWords (tablePort v) v) with
  | .instr i _ => some i
  | _ => none

end Sys2Proof
end

