-- ==== Sys2Proof/Machine/Fetch.lean ====
section
/-! DEFINITION. How the block takes its next transaction from the words that have arrived at its ports.

The block fetches nothing (10_state R31, 20_memory R86): the words come from the two agents. State's inbox lists
them in the order of their arrival, whichever agent sent them, so that a list of arrivals is an interleaving of the agents'
transactions and every interleaving is a list (20_memory R79–R82, log 2). -/

namespace Sys2Proof.Machine

/-- What waits for a command header's argument words. -/
inductive Gathered where
  /-- All argument words are there; `rest` follows them. -/
  | whole (args : List Word) (rest : List Transfer)
  /-- A word of another port arrived before the packet was whole; `rest` is the inbox without it. -/
  | other (t : Transfer) (rest : List Transfer)
  /-- The packet is not whole and nothing else has arrived. -/
  | waiting
  deriving DecidableEq, Repr

/-- The next `n` words of the command port. -/
def gather : Nat → List Transfer → Gathered
  | 0, ts => .whole [] ts
  | _ + 1, [] => .waiting
  | n + 1, t :: ts =>
    if t.port = .command then
      match gather n ts with
      | .whole args rest => .whole (t.word :: args) rest
      | .other u rest => .other u (t :: rest)
      | .waiting => .waiting
    else .other t ts

/-- The transaction whose last word arrived first: its port, its words, and the inbox without them. A transaction
takes effect as a whole (20_memory R80), so a packet takes effect once its last word is there. -/
def nextTransaction : List Transfer → Option (Port × List Word × List Transfer)
  | [] => none
  | t :: ts =>
    match t.port with
    | .command =>
      match gather (argCount t.word) ts with
      | .whole args rest => some (.command, t.word :: args, rest)
      | .other u rest => some (u.port, [u.word], t :: rest)
      | .waiting => none
    | .memory => some (.memory, [t.word], ts)
    | .audio => some (.audio, [t.word], ts)

/-- The words of a transaction as they arrive at a port. -/
def transfersOn (p : Port) (ws : List Word) : List Transfer := ws.map (fun w => ⟨p, w⟩)

/-- The words of an instruction as they arrive at its port. -/
def transfersOf (i : Instr) : List Transfer := transfersOn i.port (encode i)

end Sys2Proof.Machine
end

