-- ==== Sys2Proof/Machine/Step.lean ====
section
/-! DEFINITION. One step of the block: the next whole transaction (20_memory R80), or nothing when none is there
(60_exceptions R322). -/

namespace Sys2Proof.Machine

/-- One step. An ignored packet or MEM word is consumed and changes nothing else (30_encoding R103, R108). -/
def step (s : State) : Host.Outcome State Fault Refusal :=
  match nextTransaction s.inbox with
  | none => .next s
  | some (port, ws, rest) =>
    match decode port ws with
    | .instr i _ => exec i { s with inbox := rest }
    | .ignored _ _ => .next { s with inbox := rest }
    | .incomplete => .next s

/-- The state with the words of an opcode-table word first in the inbox (log 12): a host sends the block its
program, transaction by transaction. -/
def State.withFetchWord (s : State) (nbits w : Nat) : State :=
  let v := w % 2 ^ nbits
  { s with inbox := transfersOn (tablePort v) (tableWords (tablePort v) v) ++ s.inbox }

end Sys2Proof.Machine
end

