-- ==== Sys2Proof/Machine/Display.lean ====
section
/-! DEFINITION. The display port (20_memory R77): a read-only view of FB and SCREENPAL between two transactions. It
is no transaction: it changes nothing, and a snapshot of any state of a run is one of its reads. -/

namespace Sys2Proof.Machine

/-- Byte k, 0 ≤ k < 8192, of the packed framebuffer the display sink pulls (20_memory R72, R77). -/
def displayByte (s : State) (k : Nat) : Byte := memRead s (fbBase + k)

/-- The colour the display shows for pixel (x, y): SCREENPAL[FB_get(x, y)] (20_memory R77). -/
def displayColor (s : State) (x y : Nat) : Byte := s.screenPal[palIndex (fbGet s x y)]

end Sys2Proof.Machine
end

