-- ==== Sys2Proof/Safety.lean ====
section
/-! DEFINITION. The terms in which claims about runs are stated: the real a `Surd` denotes, the words that arrive
from outside, runs, and the invariant of every state a run reaches. -/

namespace Sys2Proof.Machine

namespace Surd

/-- The real a term denotes. -/
noncomputable def termReal (t : Term) : ℝ := (t.coef : ℝ) * (2 : ℝ) ^ (t.exp : ℝ)

/-- The real a list of terms denotes. -/
noncomputable def toReal (x : Surd) : ℝ := (x.map termReal).sum

end Surd

/-- Words from the host arrive behind those that wait (20_memory R79–R82). -/
def State.arrive (s : State) (ts : List Transfer) : State := { s with inbox := s.inbox ++ ts }

/-- `n` steps; a stop is final. -/
def run : Nat → State → Out
  | 0, s => .next s
  | n + 1, s =>
    match step s with
    | .next t => run n t
    | .fault f => .fault f
    | .refused r => .refused r

/-- A channel between two transactions (10_state R52, R53): while Playing its offset is in [0, 32), while Idle it is
0; the phase is a canonical real ≥ 0; prev_vol is in [0, 1]. -/
def ChannelOk (c : Channel) : Prop :=
  (0 ≤ c.offset ∧ c.offset < 32) ∧ (c.sfx = none → c.offset = 0) ∧ (Surd.wf c.phase ∧ 0 ≤ Surd.toReal c.phase)
    ∧ (0 ≤ c.prevVol ∧ c.prevVol ≤ 1)

/-- No two channels hold the same sfx id (10_state R53). -/
def DistinctSfx (s : State) : Prop :=
  ∀ (a b : Fin 4) (id : Fin 64), s.ch[a].sfx = some id → s.ch[b].sfx = some id → a = b

/-- Every listed byte is the storage of an array address (20_memory R70, R71): no byte is listed at a reserved or a
register address, nor at an alias. -/
def MemInArrays (s : State) : Prop := ∀ c ∈ s.mem, isArray c.1 = true ∧ physAddr s.params c.1 = c.1

/-- What holds of the state between two transactions. -/
structure Inv (s : State) : Prop where
  memWf    : Memory.wf s.mem
  memArray : MemInArrays s
  channels : ∀ c : Fin 4, ChannelOk s.ch[c]
  distinct : DistinctSfx s

end Sys2Proof.Machine
end

