-- ==== Sys2Proof/Certificates/Slice0/Obligations.lean ====
section
/-! DEFINITION. The statements for the provers, and the words they are stated in (`Sys2Proof.Spec`), which are written
from the rules of spec/ and not from the model's own definitions wherever the two could differ. -/

namespace Sys2Proof.Spec

open Sys2Proof.Machine

/-! ### Encoding -/

/-- The number of 1 bits of a presence mask (30_encoding R100). -/
def popcount (p : Half) : Nat := ((List.range 16).filter (fun i => p.getLsbD i)).length

/-- The word of slot i in a packet with presence mask p: the words of the present slots stand in increasing order
(30_encoding R100). -/
def slotValue (p : Half) (args : List Word) (i : Nat) : Arg :=
  if p.getLsbD i then args[((List.range i).filter (fun j => p.getLsbD j)).length]? else none

/-- The opcode table: OP and the number of slots (30_encoding R109). -/
def slotCounts : List (Nat × Nat) :=
  [(0x00, 0), (0x01, 3), (0x02, 2), (0x03, 5), (0x04, 4), (0x05, 4), (0x06, 4), (0x07, 4), (0x08, 4), (0x09, 1),
   (0x0A, 2)]
  ++ [(0x10, 7), (0x11, 10), (0x12, 7), (0x13, 2), (0x14, 3), (0x15, 2), (0x16, 3), (0x17, 2), (0x18, 3), (0x19, 3),
   (0x1A, 2)]
  ++ [(0x20, 3)]

/-- The fields OP, P and Z of a header word (30_encoding R100). -/
def opField (h : Word) : Nat := (h.extractLsb' 0 8).toNat
def maskField (h : Word) : Half := h.extractLsb' 8 16
def zField (h : Word) : Nat := (h.extractLsb' 24 8).toNat

/-- The row of the opcode table: the OP of a command, and a number above every OP for MEMR, MEMW and SAMPLE. -/
def row (i : Instr) : Nat :=
  match i with
  | .memr _ => 0x100
  | .memw _ _ => 0x101
  | .sample _ => 0x102
  | i => (i.opcode.getD 0).toNat

/-! ### Frames -/

/-- Nothing but framebuffer bytes changed (20_memory R70). -/
def OnlyFb (s t : State) : Prop :=
  t = { s with mem := t.mem } ∧ ∀ a, ¬(0x6000 ≤ a ∧ a < 0x8000) → Memory.read t.mem a = Memory.read s.mem a

/-- x lies between a and b, in either order of the two. -/
def Between (a b x : Int) : Prop := min a b ≤ x ∧ x ≤ max a b

/-! ### Drawing -/

/-- The pixel is inside the clip rectangle (10_state R36). -/
def InClip (s : State) (x y : Int) : Prop :=
  ((s.clip.x1.val : Int) ≤ x ∧ x < (s.clip.x2.val : Int)) ∧ (s.clip.y1.val : Int) ≤ y ∧ y < (s.clip.y2.val : Int)

/-- The stipple bit of a pixel (40_rasterizer R141). -/
def stippleBit (o : StippleOrder) (st : Half) (x y : Int) : Bool :=
  let k := (x % 4 + 4 * (y % 4)).toNat
  if o = .lsbFirst then st.getLsbD k else st.getLsbD (15 - k)

open Classical in
/-- What the pixel (x, y) of state s holds after `setPixel` with colour bits cb (40_rasterizer R142). -/
noncomputable def drawn (s : State) (cb : ColorBits) (x y : Nat) : Nibble :=
  if InClip s x y then
    (if stippleBit s.params.stippleOrder cb.stipple x y = true then
      (if cb.transparent = true then fbGet s x y else cb.secondary)
    else cb.primary)
  else fbGet s x y

/-- t is s with `setPixel` done at exactly the pixels of P, all with colour bits cb. -/
def Plots (s t : State) (cb : ColorBits) (P : Int → Int → Prop) : Prop :=
  OnlyFb s t ∧ ∀ x y : Nat, x < 128 → y < 128 →
    (P x y → fbGet t x y = drawn s cb x y) ∧ (¬P x y → fbGet t x y = fbGet s x y)

/-- A primitive with an optional colour c: the colour is resolved first, then the pixels of P are drawn with its colour
bits (40_rasterizer R140). -/
def Draws (i : Instr) (c : Arg) (s : State) (P : Int → Int → Prop) : Prop :=
  ∃ t, exec i s = .next t ∧ Plots (loadColor c s) t (penBits (loadColor c s)) P

/-- n is the nearest integer to q, a tie resolved by `LINE_TIE` (00_scope R10, R12). -/
def Nearest (tie : LineTie) (q : Rat) (n : Int) : Prop :=
  |q - n| < 1 / 2 ∨ (|q - n| = 1 / 2 ∧ (if tie = .awayFromZero then |q| < |(n : Rat)| else q < n))

/-- The pixels of `rasterLine` (40_rasterizer R161). -/
def OnLine (tie : LineTie) (x0 y0 x1 y1 x y : Int) : Prop :=
  if x0 = x1 ∧ y0 = y1 then x = x0 ∧ y = y0
  else if |x1 - x0| > |y1 - y0| then
    Between x0 x1 x ∧ Nearest tie ((y0 : Rat) + (y1 - y0) * (x - x0) / (x1 - x0)) y
  else Between y0 y1 y ∧ Nearest tie ((x0 : Rat) + (x1 - x0) * (y - y0) / (y1 - y0)) x

/-- dx and err of `circleSteps` after k runs of the loop, when dy = k (40_rasterizer R163). -/
def circState (r : Int) : Nat → Int × Int
  | 0 => (r, 0)
  | k + 1 =>
    let dx := (circState r k).1
    let dy : Int := (k : Int) + 1
    let err := (circState r k).2 + 1 + 2 * dy
    if 2 * (err - dx) > r + 1 then (dx - 1, err + 1 - 2 * (dx - 1)) else (dx, err)

/-- The loop's body runs with (dx, dy). -/
def CircStep (r dx dy : Int) : Prop :=
  ∃ k : Nat, dy = (k : Int) ∧ dx = (circState r k).1 ∧ ∀ j : Nat, j ≤ k → (j : Int) ≤ (circState r j).1

/-- The pixels of a circle outline (40_rasterizer R164). -/
def OnCircle (X Y r x y : Int) : Prop :=
  ∃ dx dy, CircStep r dx dy ∧
    (((x = wrap16 (X + dx) ∨ x = wrap16 (X - dx)) ∧ (y = wrap16 (Y + dy) ∨ y = wrap16 (Y - dy)))
    ∨ ((x = wrap16 (X + dy) ∨ x = wrap16 (X - dy)) ∧ (y = wrap16 (Y + dx) ∨ y = wrap16 (Y - dx))))

/-- The pixels of a filled circle (40_rasterizer R165). -/
def InDisc (X Y r x y : Int) : Prop :=
  ∃ dx dy, CircStep r dx dy ∧
    ((Between (wrap16 (X - dx)) (wrap16 (X + dx)) x ∧ (y = wrap16 (Y - dy) ∨ y = wrap16 (Y + dy)))
    ∨ ((x = wrap16 (X - dy) ∨ x = wrap16 (X + dy)) ∧ Between (wrap16 (Y - dx)) (wrap16 (Y + dx)) y))

/-! ### Blits -/

/-- Column i, row j of a block with its top left corner at (X, Y) writes colour n at the pixel (x, y); `src` gives the
resolved colour, or none where nothing is drawn. -/
def Hit (X Y W H : Int) (src : Int → Int → Option Nibble) (x y i j : Int) (n : Nibble) : Prop :=
  (0 ≤ i ∧ i < W) ∧ (0 ≤ j ∧ j < H) ∧ (wrap16 (X + i) = x ∧ wrap16 (Y + j) = y) ∧ src i j = some n

/-- The last such write in the order of the loops: rows outside, columns inside. -/
def LastHit (X Y W H : Int) (src : Int → Int → Option Nibble) (x y i j : Int) (n : Nibble) : Prop :=
  Hit X Y W H src x y i j n ∧ ∀ i' j' n', Hit X Y W H src x y i' j' n' → j' < j ∨ (j' = j ∧ i' ≤ i)

/-- t is s with a block blitted: a pixel inside the clip rectangle takes the last colour written to it, every other pixel
stays. -/
def Blits (s t : State) (X Y W H : Int) (src : Int → Int → Option Nibble) : Prop :=
  OnlyFb s t ∧ ∀ x y : Nat, x < 128 → y < 128 →
    (InClip s x y → ∀ i j n, LastHit X Y W H src x y i j n → fbGet t x y = n)
    ∧ ((¬InClip s x y ∨ ¬∃ i j n, Hit X Y W H src x y i j n) → fbGet t x y = fbGet s x y)

/-- The palette lookup of the blitters (41_sprite_map R202). -/
def lookup (s : State) (n : Nibble) : Option Nibble :=
  let e := s.drawPal[palIndex n]
  if e.getLsbD 4 = true then none else some (e.extractLsb' 0 4)

/-- The sheet pixel (x, y) in the bytes the memory port reads: 64 bytes a row, the even pixel in the low nibble
(20_memory R71, R72). -/
def sheetNibble (s : State) (x y : Nat) : Nibble :=
  if x % 2 = 0 then (memRead s (64 * y + x / 2)).extractLsb' 0 4 else (memRead s (64 * y + x / 2)).extractLsb' 4 4

/-- A sheet pixel, 0 off the sheet (41_sprite_map R201). -/
def sheetAt (s : State) (x y : Int) : Nibble :=
  if (0 ≤ x ∧ x < 128) ∧ (0 ≤ y ∧ y < 128) then sheetNibble s x.toNat y.toNat else 0

/-- A size of SPR in pixels: the argument times 8, truncated; 8 when absent (41_sprite_map R200). -/
def sprSize (a : Arg) : Int :=
  match a with
  | none => 8
  | some w => (w.toInt * 8).tdiv 65536

/-- The index i or, flipped, the mirrored one. -/
def mirror (f : Arg) (n i : Int) : Int := if f.getD 0 ≠ 0 then n - 1 - i else i

/-- An int16 argument with a default (30_encoding R105). -/
def intArg (a : Arg) (d : Int) : Int :=
  match a with
  | none => d
  | some w => (w.extractLsb' 16 16).toInt

/-- A word for the integer n (30_encoding R111). -/
def intWord (n : Nat) : Word := BitVec.ofNat 32 (n * 65536)

/-- A word for a truth value (30_encoding R111). -/
def boolWord (b : Bool) : Word := if b = true then 0x00010000#32 else 0#32

/-- What a tile of the map draws at pixel (px, py) of the area (41_sprite_map R205). -/
def tileColor (s : State) (cx cy : Int) (m : Byte) (px py : Int) : Option Nibble :=
  let mx := cx + px / 8
  let my := cy + py / 8
  if (0 ≤ mx ∧ mx < 128) ∧ (0 ≤ my ∧ my < 64) then
    let idx := (memRead s (0x2000 + 128 * my.toNat + mx.toNat)).toNat
    if layerPass s.params.layerMatch (memRead s (0x4000 + idx)) m = true ∧ idx ≠ 0 then
      lookup s (sheetNibble s (8 * (idx % 16) + (px % 8).toNat) (8 * (idx / 16) + (py % 8).toNat))
    else none
  else none

/-! ### Memory -/

/-- Two addresses name one byte: they are equal, or, with `MAP_SHEET_SHARED`, one is a byte of map rows 32–63 and the
other its place in the sheet (20_memory R71). -/
def sameByte (p : Params) (a b : Nat) : Bool :=
  a = b || (p.mapSheetShared
    && ((0x3000 ≤ a && a < 0x4000 && b + 0x2000 = a) || (0x3000 ≤ b && b < 0x4000 && a + 0x2000 = b)))

/-- The byte a memory-port write of v leaves at address a, where `old` was (10_state R34, R36, 20_memory R74). -/
def stored (a : Nat) (old v : Byte) : Byte :=
  if a < 0x5200 then v
  else if a < 0x5F00 then 0
  else if a < 0x5F10 then v &&& 0x1F#8
  else if a < 0x5F20 then v
  else if a < 0x5F24 then (if v.toNat ≤ 128 then v else 128#8)
  else if a < 0x5F27 then v
  else if a = 0x5F27 then 0
  else if a < 0x5F32 then v
  else if a = 0x5F32 then v &&& 0x03#8
  else if a = 0x5F33 then v &&& 0x0F#8
  else if a < 0x5F38 then old
  else if a < 0x6000 then 0
  else if a < 0x8000 then v
  else 0

/-- The bits of an address that read as zero (10_state R34, 20_memory R74). -/
def razBits (a : Nat) : Byte :=
  if a < 0x5200 ∨ (0x6000 ≤ a ∧ a < 0x8000) then 0
  else if 0x5F00 ≤ a ∧ a < 0x5F10 then 0xE0#8
  else if a = 0x5F32 then 0xFC#8
  else if a = 0x5F33 then 0xF0#8
  else if (0x5F10 ≤ a ∧ a < 0x5F27) ∨ (0x5F28 ≤ a ∧ a < 0x5F38) then 0
  else 0xFF#8

/-! ### Audio -/

/-- `keyFreq` in Hz (42_audio R252). -/
noncomputable def keyHz (k : BitVec 6) : ℝ := 440 * 2 ^ (((k.toNat : ℝ) - 33) / 12)

/-- The note word of index i of record S: two bytes, little-endian (42_audio R250, R251). -/
def noteWord (s : State) (S : Fin 64) (i : Nat) : Half :=
  memRead s (0x4100 + 68 * S.val + 2 * i + 1) ++ memRead s (0x4100 + 68 * S.val + 2 * i)

/-- The key of a note: bits [5:0] (42_audio R251). -/
def noteKey (s : State) (S : Fin 64) (i : Nat) : BitVec 6 := (noteWord s S i).extractLsb' 0 6

/-- SPEED, LOOP_START and LOOP_END: bytes 65, 66 and 67 of a record (42_audio R250). -/
def speedByte (s : State) (S : Fin 64) : Nat := (memRead s (0x4100 + 68 * S.val + 65)).toNat
def loopStart (s : State) (S : Fin 64) : Nat := (memRead s (0x4100 + 68 * S.val + 66)).toNat
def loopEnd (s : State) (S : Fin 64) : Nat := (memRead s (0x4100 + 68 * S.val + 67)).toNat

/-- `WAVE(inst, ph)` as real numbers, for the instruments whose formula is closed (42_audio R261–R266, R268). -/
noncomputable def waveReal (inst : Nat) (ph : ℝ) : ℝ :=
  let t := Int.fract ph
  match inst with
  | 0 => 0.354 * (|4 * t - 2| - 1)
  | 1 => if t < 0.9 then 0.406 * (2 * t / 0.9 - 1) else 0.406 * (2 * (1 - t) / 0.1 - 1)
  | 2 => 0.653 * (if t < 0.5 then t else t - 1)
  | 3 => if t < 0.5 then 0.25 else -0.25
  | 4 => if t < 1 / 3 then 0.25 else -0.25
  | 5 => if t < 0.5 then 0.111 * (3 - |24 * t - 6|) else 0.111 * (1 - |16 * t - 12|)
  | _ =>
    let k := |2 * Int.fract (ph / 128) - 1|
    let u := Int.fract (t + 0.5 * k)
    0.1667 * (|4 * u - 2| - |8 * t - 4|)

/-- r rounded toward zero. -/
noncomputable def truncReal (r : ℝ) : ℤ := if 0 ≤ r then ⌊r⌋ else ⌈r⌉

/-- The response word of a sample: its low 16 bits, sign-extended (30_encoding R104, 42_audio R284). -/
def sampleWord (v : Int) : Word := (BitVec.ofInt 16 v).signExtend 32

end Sys2Proof.Spec

section Statements

open Sys2Proof Sys2Proof.Machine Sys2Proof.Spec

/-! ### Encoding and decoding -/

/-- Decoding the words of a well-formed transaction gives it back, with every operand, and leaves what follows. -/
def Obligations.EncodeDecodeRoundTrip : Prop :=
  ∀ (i : Instr) (rest : List Word), WellFormed i = true → decode i.port (encode i ++ rest) = .instr i rest

/-- What the decoder reads on a port is well-formed and belongs to that port. -/
def Obligations.DecodedIsWellFormed : Prop :=
  ∀ (p : Port) (ws rest : List Word) (i : Instr), decode p ws = .instr i rest → WellFormed i = true ∧ i.port = p

/-- A packet is 1 + popcount(word0[23:8]) words long, whatever its OP: with fewer words the decoder waits, and with
that many or more it consumes exactly those (30_encoding R101). -/
def Obligations.PacketLength : Prop :=
  ∀ (h : Word) (args tail : List Word),
    (args.length < popcount (maskField h) → decode .command (h :: args) = .incomplete)
    ∧ (args.length = popcount (maskField h) →
        (∃ i, decode .command (h :: (args ++ tail)) = .instr i tail)
        ∨ ∃ why, decode .command (h :: (args ++ tail)) = .ignored why tail)

/-- The words that follow a header are those of the slots i with P[i] = 1, in increasing i, and a slot that is not
present is absent (30_encoding R100). -/
def Obligations.CommandFields : Prop :=
  ∀ (h : Word) (args tail : List Word) (n : Nat), zField h = 0 → slotCounts.lookup (opField h) = some n →
    args.length = popcount (maskField h) →
    ∃ i : Instr, decode .command (h :: (args ++ tail)) = .instr i tail ∧ i.opcode.map BitVec.toNat = some (opField h)
      ∧ i.slots = (List.range n).map (slotValue (maskField h) args)

/-- A packet with Z ≠ 0 or an OP not in the table is consumed and ignored: no state changes, no response is placed; a
presence bit for a slot the command does not define is ignored and its word consumed: two packets of one command that
agree on its slots do the same (30_encoding R108). -/
def Obligations.ReservedPacketsAreIgnored : Prop :=
  (∀ (s : State) (h : Word) (args : List Word) (rest : List Transfer), args.length = popcount (maskField h) →
    s.inbox = transfersOn .command (h :: args) ++ rest →
    (zField h ≠ 0 ∨ slotCounts.lookup (opField h) = none) → step s = .next { s with inbox := rest })
  ∧ ∀ (s : State) (h h' : Word) (args args' : List Word) (rest : List Transfer) (n : Nat),
    args.length = popcount (maskField h) → args'.length = popcount (maskField h') → zField h = 0 → zField h' = 0 →
    opField h = opField h' → slotCounts.lookup (opField h) = some n →
    (∀ k, k < n → slotValue (maskField h) args k = slotValue (maskField h') args' k) →
    step { s with inbox := transfersOn .command (h :: args) ++ rest }
      = step { s with inbox := transfersOn .command (h' :: args') ++ rest }

/-- One word of the memory port: W in bit 31, ADDR in [23:8], DATA in [7:0]; a read answers the byte in [7:0] with zeros
above; a word with [30:24] ≠ 0 is ignored and answers nothing (30_encoding R103). -/
def Obligations.MemoryWord : Prop :=
  ∀ (s : State) (w : Word) (rest : List Transfer), s.inbox = ⟨.memory, w⟩ :: rest →
    step s =
      if w.toNat / 2 ^ 24 % 2 ^ 7 ≠ 0 then .next { s with inbox := rest }
      else if w.toNat / 2 ^ 31 = 1 then
        .next (memWrite { s with inbox := rest } (w.toNat / 2 ^ 8 % 2 ^ 16) (BitVec.ofNat 8 w.toNat))
      else .next { s with
        inbox := rest
        memOut := s.memOut ++ [BitVec.ofNat 32 (memRead s (w.toNat / 2 ^ 8 % 2 ^ 16)).toNat] }

/-- One word of the audio port asks for a sample of channel CH = [7:0], whatever its other bits are, and the answer is one
word that is the sign extension of its low 16 bits (30_encoding R104). -/
def Obligations.AudioWord : Prop :=
  ∀ (s : State) (w : Word) (rest : List Transfer), s.inbox = ⟨.audio, w⟩ :: rest →
    ∃ t r, step s = .next t ∧ exec (.sample (w.toNat % 2 ^ 8)) { s with inbox := rest } = .next t
      ∧ t.audOut = s.audOut ++ [r] ∧ r = (r.extractLsb' 0 16).signExtend 32

/-- Words written out from the encodings decode to the transactions they stand for: `PSET 15, 15, 8` and
`LINE _, _, 100, 20` (30_encoding R113), and `SPR 1, 0, 0, _, _, true`, `MEMW 0x5F24, 0x45` and `SAMPLE 2`
(95_test_vectors L2.1). -/
def Obligations.WrittenWordsDecode : Prop :=
  decode .command [0x00000701#32, 0x000F0000#32, 0x000F0000#32, 0x00080000#32]
      = .instr (.pset (some 0x000F0000#32) (some 0x000F0000#32) (some 0x00080000#32)) []
  ∧ decode .command [0x00000C03#32, 0x00640000#32, 0x00140000#32]
      = .instr (.line none none (some 0x00640000#32) (some 0x00140000#32) none) []
  ∧ decode .command [0x00002710#32, 0x00010000#32, 0#32, 0#32, 0x00010000#32]
      = .instr (.spr (some 0x00010000#32) (some 0#32) (some 0#32) none none (some 0x00010000#32) none) []
  ∧ decode .memory [0x805F2445#32] = .instr (.memw 0x5F24 0x45#8) []
  ∧ decode .audio [0x00000002#32] = .instr (.sample 2) []

/-- The five conversions of an argument word w, which stands for sext_32(w) / 65536: its floor as an int16, its exact
value, whether it is not 0, and the low byte and nibble of its floor; an integer v in int16 is encoded as v << 16
(30_encoding R105). An integer result v is the word v << 16 (mod 2^32), a boolean result 0x00010000 or 0 (R111). -/
def Obligations.ArgumentAndResultWords : Prop :=
  (∀ w : Word, int16 w = ⌊(w.toInt : ℚ) / 65536⌋ ∧ fix w = (w.toInt : ℚ) / 65536
    ∧ (boolOf w = true ↔ w ≠ 0)
    ∧ ((byteOf w).toNat : Int) = ⌊(w.toInt : ℚ) / 65536⌋ % 256
    ∧ ((nibOf w).toNat : Int) = ⌊(w.toInt : ℚ) / 65536⌋ % 16)
  ∧ (∀ v : Int, -32768 ≤ v → v ≤ 32767 → int16 (BitVec.ofInt 32 v <<< 16) = v)
  ∧ (∀ v : Int, resultInt v = BitVec.ofInt 32 v <<< 16)
  ∧ resultBool true = 0x00010000#32 ∧ resultBool false = 0#32

/-! ### The machine as a whole -/

/-- A step whose next transaction is the well-formed i runs exec of i on the state without i's words. -/
def Obligations.StepRunsDecodedInstruction : Prop :=
  ∀ (i : Instr) (s : State) (rest : List Transfer), WellFormed i = true → s.inbox = transfersOf i ++ rest →
    step s = exec i { s with inbox := rest }

/-- No word, or a packet whose words have not all arrived, changes nothing; and a word of another port that arrives in
the middle of a packet is a whole transaction and goes first, the packet's words staying as they are. The second half is
the model's reading of the interleaving of 20_memory R80, R82 (log 2). -/
def Obligations.WaitingAndInterleaving : Prop :=
  (∀ s : State, s.inbox = [] → step s = .next s)
  ∧ (∀ (s : State) (h : Word) (args : List Word), args.length < popcount (maskField h) →
      s.inbox = transfersOn .command (h :: args) → step s = .next s)
  ∧ ∀ (s : State) (h : Word) (args : List Word) (u : Transfer) (rest : List Transfer),
      args.length < popcount (maskField h) → u.port ≠ .command →
      s.inbox = transfersOn .command (h :: args) ++ u :: rest →
      ∀ t, step { s with inbox := [u] } = .next t →
        step s = .next { t with inbox := transfersOn .command (h :: args) ++ rest }

/-- No transaction traps, faults or halts: every step, and every well-formed transaction in every state, ends in a next
state (60_exceptions R310). The model's own terms that no word decodes to, an address above 0xFFFF, stop by name
(the model's choice, log 13). -/
def Obligations.NothingStops : Prop :=
  (∀ s : State, ∃ t, step s = .next t)
  ∧ (∀ (i : Instr) (s : State), WellFormed i = true → ∃ t, exec i s = .next t)
  ∧ ∀ (a : Nat) (v : Byte) (s : State), 2 ^ 16 ≤ a →
      exec (.memr a) s = .fault (.outsideAddressSpace a) ∧ exec (.memw a v) s = .fault (.outsideAddressSpace a)

/-- Every step keeps the invariant: memory stays canonical and lists array bytes only, every channel's offset stays in
[0, 32), its phase canonical and ≥ 0, its prev_vol in [0, 1], and no two channels play one id (10_state R52, R53,
20_memory R70). Under the setting `other` of `VIBRATO` the phase stays ≥ 0 by the model's choice (log 5). -/
def Obligations.StepKeepsInvariant : Prop := ∀ s t : State, Inv s → step s = .next t → Inv t

/-- The invariant holds after reset. -/
def Obligations.ResetMeetsInvariant : Prop := Inv State.reset

/-- The reset value of every piece of state, and the silence of every SAMPLE request until an SFX starts a channel
(70_reset_and_hazards R331): at reset every channel is Idle, a state whose channels are all Idle answers every SAMPLE with
0, and every step whose transaction is no SFX leaves them all Idle. -/
def Obligations.ResetValues : Prop :=
  memRead State.reset 0x5F00 = 0x10#8
  ∧ (∀ i : Fin 16, i ≠ 0 → memRead State.reset (0x5F00 + i.val) = BitVec.ofNat 8 i.val)
  ∧ (∀ i : Fin 16, memRead State.reset (0x5F10 + i.val) = BitVec.ofNat 8 i.val)
  ∧ (memRead State.reset 0x5F20 = 0#8 ∧ memRead State.reset 0x5F21 = 0#8
    ∧ memRead State.reset 0x5F22 = 128#8 ∧ memRead State.reset 0x5F23 = 128#8)
  ∧ memRead State.reset 0x5F24 = 6#8
  ∧ (∀ a, 0x5F25 ≤ a → a < 0x5F34 → memRead State.reset a = 0#8)
  ∧ (∀ c : Fin 4, memRead State.reset (0x5F34 + c.val) = 0xFF#8)
  ∧ (∀ a, 0x5F38 ≤ a → a < 0x5F80 → memRead State.reset a = 0#8)
  ∧ (∀ a, a < 0x5200 ∨ (0x6000 ≤ a ∧ a < 0x8000) → memRead State.reset a = 0#8)
  ∧ (∀ c : Fin 4, State.reset.ch[c] = { sfx := none, offset := 0, phase := [], loop := false, prevKey := 24#6, prevVol := 0 })
  ∧ (∀ (s : State) (c : Nat), (∀ d : Fin 4, s.ch[d].sfx = none) →
      exec (.sample c) s = .next { s with audOut := s.audOut ++ [0#32] })
  ∧ ∀ s t : State, (∀ d : Fin 4, s.ch[d].sfx = none) →
      (∀ (p : Port) (ws tail : List Word) (rest : List Transfer) (i : Instr),
        nextTransaction s.inbox = some (p, ws, rest) → decode p ws = .instr i tail → row i ≠ 0x20) →
      step s = .next t → ∀ d : Fin 4, t.ch[d].sfx = none

/-- Which transactions can write which register and which queue ("written by" of 10_state R35–R44, R52; the parameters
never change, R55): pen and pattern by the commands with a colour slot and MEMW, FILLP_MODE and DISTORT by MEMW alone,
the clip rectangle by CLIP, CLS and MEMW, and so on; the sample step writes no register. -/
def Obligations.RegisterWriters : Prop :=
  ∀ (i : Instr) (s t : State), exec i s = .next t →
    t.params = s.params ∧ t.inbox = s.inbox
    ∧ (t.pen ≠ s.pen → row i ∈ [0x01, 0x03, 0x04, 0x05, 0x06, 0x07, 0x16, 0x101])
    ∧ (t.fillp ≠ s.fillp ∨ t.fillpTrans ≠ s.fillpTrans → row i ∈ [0x01, 0x03, 0x04, 0x05, 0x06, 0x07, 0x16, 0x101])
    ∧ (t.fillpMode ≠ s.fillpMode ∨ t.distort ≠ s.distort → row i = 0x101)
    ∧ (t.clip ≠ s.clip → row i ∈ [0x08, 0x09, 0x101])
    ∧ (t.cursorX ≠ s.cursorX ∨ t.cursorY ≠ s.cursorY → row i ∈ [0x09, 0x101])
    ∧ (t.cameraX ≠ s.cameraX ∨ t.cameraY ≠ s.cameraY → row i ∈ [0x0A, 0x101])
    ∧ (t.anchorX ≠ s.anchorX ∨ t.anchorY ≠ s.anchorY → row i ∈ [0x03, 0x101])
    ∧ (t.drawPal ≠ s.drawPal → row i ∈ [0x19, 0x1A, 0x101])
    ∧ (t.screenPal ≠ s.screenPal → row i ∈ [0x19, 0x101])
    ∧ (t.ch ≠ s.ch → row i ∈ [0x20, 0x102])
    ∧ (t.cmdOut ≠ s.cmdOut → row i ∈ [0x02, 0x0A, 0x13, 0x15, 0x17, 0x1A])
    ∧ (t.memOut ≠ s.memOut → row i = 0x100)
    ∧ (t.audOut ≠ s.audOut ∨ t.draws ≠ s.draws → row i = 0x102)

/-- Which transactions can write which array ("written by" of 10_state R47–R51, and 20_memory R71): FB by the drawing
commands and CLS, SHEET by SSET, MAP by MSET, FLAGS by FSET, each also by MEMW; SFXT by MEMW alone; with
`MAP_SHEET_SHARED` an MSET can write a byte of the sheet. -/
def Obligations.ArrayWriters : Prop :=
  ∀ (i : Instr) (s t : State) (a : Nat), exec i s = .next t → Memory.read t.mem a ≠ Memory.read s.mem a →
    (0x6000 ≤ a ∧ a < 0x8000 ∧ row i ∈ [0x01, 0x03, 0x04, 0x05, 0x06, 0x07, 0x09, 0x10, 0x11, 0x12, 0x101])
    ∨ (a < 0x2000 ∧ (row i ∈ [0x16, 0x101] ∨ (row i = 0x14 ∧ s.params.mapSheetShared = true ∧ 0x1000 ≤ a)))
    ∨ (0x2000 ≤ a ∧ a < 0x4000 ∧ row i ∈ [0x14, 0x101])
    ∨ (0x4000 ≤ a ∧ a < 0x4100 ∧ row i ∈ [0x18, 0x101])
    ∨ (0x4100 ≤ a ∧ a < 0x5200 ∧ row i = 0x101)

/-- How many result words each command places on the command port (30_encoding R102, R109): PGET, MGET, SGET and FGET one,
CAMERA two, PALT one in its read form, every other command none. -/
def Obligations.ResultCounts : Prop :=
  ∀ (i : Instr) (s t : State), exec i s = .next t → ∃ ws : List Word, t.cmdOut = s.cmdOut ++ ws
    ∧ ws.length =
      (if row i ∈ [0x02, 0x13, 0x15, 0x17] then 1
      else if row i = 0x0A then 2
      else if row i = 0x1A ∧ i.slots.map Option.isSome = [true, false] then 1
      else 0)

/-- NOP writes nothing and responds nothing (30_encoding R110). -/
def Obligations.NopDoesNothing : Prop := ∀ s : State, exec .nop s = .next s

/-! ### The memory port and the register window -/

/-- The register map (10_state R34, R45, 20_memory R73): what each address of the window reads as, and what a write of v
there changes. -/
def Obligations.RegisterMap : Prop :=
  ∀ (s : State) (v : Byte),
    (∀ i : Fin 16, memRead s (0x5F00 + i.val) = (0#3 ++ s.drawPal[i] : BitVec 8)
      ∧ exec (.memw (0x5F00 + i.val) v) s = .next { s with drawPal := s.drawPal.set i.val (v.extractLsb' 0 5) i.isLt })
    ∧ (∀ i : Fin 16, memRead s (0x5F10 + i.val) = s.screenPal[i]
      ∧ exec (.memw (0x5F10 + i.val) v) s = .next { s with screenPal := s.screenPal.set i.val v i.isLt })
    ∧ ((memRead s 0x5F20).toNat = s.clip.x1.val ∧ (memRead s 0x5F21).toNat = s.clip.y1.val
      ∧ (memRead s 0x5F22).toNat = s.clip.x2.val ∧ (memRead s 0x5F23).toNat = s.clip.y2.val)
    ∧ (∃ c : Fin 129, c.val = min v.toNat 128
      ∧ exec (.memw 0x5F20 v) s = .next { s with clip := { s.clip with x1 := c } }
      ∧ exec (.memw 0x5F21 v) s = .next { s with clip := { s.clip with y1 := c } }
      ∧ exec (.memw 0x5F22 v) s = .next { s with clip := { s.clip with x2 := c } }
      ∧ exec (.memw 0x5F23 v) s = .next { s with clip := { s.clip with y2 := c } })
    ∧ (memRead s 0x5F24 = s.pen ∧ exec (.memw 0x5F24 v) s = .next { s with pen := v })
    ∧ (memRead s 0x5F25 = s.cursorX ∧ exec (.memw 0x5F25 v) s = .next { s with cursorX := v })
    ∧ (memRead s 0x5F26 = s.cursorY ∧ exec (.memw 0x5F26 v) s = .next { s with cursorY := v })
    ∧ (memRead s 0x5F28 = s.cameraX.extractLsb' 0 8 ∧ memRead s 0x5F29 = s.cameraX.extractLsb' 8 8
      ∧ exec (.memw 0x5F28 v) s = .next { s with cameraX := s.cameraX.extractLsb' 8 8 ++ v }
      ∧ exec (.memw 0x5F29 v) s = .next { s with cameraX := v ++ s.cameraX.extractLsb' 0 8 })
    ∧ (memRead s 0x5F2A = s.cameraY.extractLsb' 0 8 ∧ memRead s 0x5F2B = s.cameraY.extractLsb' 8 8
      ∧ exec (.memw 0x5F2A v) s = .next { s with cameraY := s.cameraY.extractLsb' 8 8 ++ v }
      ∧ exec (.memw 0x5F2B v) s = .next { s with cameraY := v ++ s.cameraY.extractLsb' 0 8 })
    ∧ (memRead s 0x5F2C = s.anchorX.extractLsb' 0 8 ∧ memRead s 0x5F2D = s.anchorX.extractLsb' 8 8
      ∧ exec (.memw 0x5F2C v) s = .next { s with anchorX := s.anchorX.extractLsb' 8 8 ++ v }
      ∧ exec (.memw 0x5F2D v) s = .next { s with anchorX := v ++ s.anchorX.extractLsb' 0 8 })
    ∧ (memRead s 0x5F2E = s.anchorY.extractLsb' 0 8 ∧ memRead s 0x5F2F = s.anchorY.extractLsb' 8 8
      ∧ exec (.memw 0x5F2E v) s = .next { s with anchorY := s.anchorY.extractLsb' 8 8 ++ v }
      ∧ exec (.memw 0x5F2F v) s = .next { s with anchorY := v ++ s.anchorY.extractLsb' 0 8 })
    ∧ (memRead s 0x5F30 = s.fillp.extractLsb' 0 8 ∧ memRead s 0x5F31 = s.fillp.extractLsb' 8 8
      ∧ exec (.memw 0x5F30 v) s = .next { s with fillp := s.fillp.extractLsb' 8 8 ++ v }
      ∧ exec (.memw 0x5F31 v) s = .next { s with fillp := v ++ s.fillp.extractLsb' 0 8 })
    ∧ (memRead s 0x5F32 = (0#6 ++ BitVec.ofBool s.fillpMode ++ BitVec.ofBool s.fillpTrans : BitVec 8)
      ∧ exec (.memw 0x5F32 v) s = .next { s with fillpTrans := v.getLsbD 0, fillpMode := v.getLsbD 1 })
    ∧ (memRead s 0x5F33 = (0#4 ++ s.distort : BitVec 8)
      ∧ exec (.memw 0x5F33 v) s = .next { s with distort := v.extractLsb' 0 4 })
    ∧ (∀ c : Fin 4, (memRead s (0x5F34 + c.val)).toInt = (match s.ch[c].sfx with | none => -1 | some S => (S.val : Int))
      ∧ exec (.memw (0x5F34 + c.val) v) s = .next s)
    ∧ ∀ a, (a = 0x5F27 ∨ (0x5F38 ≤ a ∧ a < 0x6000) ∨ (0x5200 ≤ a ∧ a < 0x5F00) ∨ (0x8000 ≤ a ∧ a < 0x10000)) →
        memRead s a = 0 ∧ exec (.memw a v) s = .next s

/-- The memory port moves one byte (20_memory R75): a read answers the byte at the address and changes nothing else, and is
idempotent; a write stores the byte, subject to the clip clamp, the RAZ/WI bits and the ignored writes, at its address
and its alias, and changes no other byte, no channel and no queue (R74, R76). -/
def Obligations.MemoryPort : Prop :=
  ∀ (s : State) (a : Nat), a < 2 ^ 16 →
    exec (.memr a) s = .next { s with memOut := s.memOut ++ [BitVec.ofNat 32 (memRead s a).toNat] }
    ∧ (∀ b, memRead { s with memOut := s.memOut ++ [BitVec.ofNat 32 (memRead s a).toNat] } b = memRead s b)
    ∧ memRead s a &&& razBits a = 0
    ∧ ∀ v : Byte, ∃ t, exec (.memw a v) s = .next t
      ∧ (∀ b, memRead t b = if sameByte s.params a b = true then stored a (memRead s a) v else memRead s b)
      ∧ t.params = s.params ∧ t.ch = s.ch ∧ t.inbox = s.inbox ∧ t.cmdOut = s.cmdOut ∧ t.memOut = s.memOut
      ∧ t.audOut = s.audOut ∧ t.draws = s.draws

/-- With `MAP_SHEET_SHARED` an MSET at a row y ≥ 32 changes the two sheet pixels of its byte, and an SSET that stores (with a
colour, or without one under that reading, log 22) at a sheet row y ≥ 64 changes one nibble of the map cell of its byte (70_reset_and_hazards R344, 20_memory R71). -/
def Obligations.SharedMapAndSheet : Prop :=
  ∀ s t : State, s.params.mapSheetShared = true →
    (∀ (wx wy wv : Word) (x y : Nat), int16 wx = x → int16 wy = y → x < 128 → 32 ≤ y → y < 64 →
      exec (.mset (some wx) (some wy) (some wv)) s = .next t →
      sheetNibble t (2 * (x % 64)) (2 * y + x / 64) = (byteOf wv).extractLsb' 0 4
      ∧ sheetNibble t (2 * (x % 64) + 1) (2 * y + x / 64) = (byteOf wv).extractLsb' 4 4)
    ∧ ∀ (wx wy : Word) (c : Arg) (x y : Nat), int16 wx = x → int16 wy = y → x < 128 → 64 ≤ y → y < 128 →
      (c ≠ none ∨ s.params.ssetNoColour = .storesPen) →
      exec (.sset (some wx) (some wy) c) s = .next t →
      let cell := 0x2000 + 128 * (y / 2) + (64 * (y % 2) + x / 2)
      memRead t cell =
        (if x % 2 = 0 then (memRead s cell).extractLsb' 4 4 ++ (penBits (loadColor c s)).primary
        else (penBits (loadColor c s)).primary ++ (memRead s cell).extractLsb' 0 4)

/-- The display shows SCREENPAL of the framebuffer nibble, and pulls the bytes of FB in the layout of 20_memory R72
(20_memory R77). -/
def Obligations.DisplayView : Prop :=
  ∀ (s : State) (x y : Nat), x < 128 → y < 128 →
    displayColor s x y = s.screenPal[(fbGet s x y).toNat]'(fbGet s x y).isLt
    ∧ fbGet s x y = (if x % 2 = 0 then (displayByte s (64 * y + x / 2)).extractLsb' 0 4
        else (displayByte s (64 * y + x / 2)).extractLsb' 4 4)
    ∧ ∀ k, k < 8192 → displayByte s k = memRead s (0x6000 + k)

/-! ### Rasterizer -/

/-- `resolveColor` (40_rasterizer R140, the colour word of 30_encoding R106): a supplied word sets the pen to [23:16], and,
if its bit 28 is 1 in fill-pattern mode, FILLP to [15:0] and FILLP_TRANS to bit 24; it returns the stored pattern and the
draw-table colours of the pen's two nibbles. -/
def Obligations.ResolveColor : Prop :=
  (∀ s : State, (resolveColor none s).2 = s)
  ∧ (∀ (s : State) (w : Word), ¬(w.getLsbD 28 = true ∧ s.fillpMode = true) →
      (resolveColor (some w) s).2 = { s with pen := w.extractLsb' 16 8 })
  ∧ (∀ (s : State) (w : Word), w.getLsbD 28 = true → s.fillpMode = true →
      (resolveColor (some w) s).2
        = { s with pen := w.extractLsb' 16 8, fillp := w.extractLsb' 0 16, fillpTrans := w.getLsbD 24 })
  ∧ ∀ (s : State) (c : Arg), (resolveColor c s).2 = loadColor c s ∧ (resolveColor c s).1 = penBits (loadColor c s)
      ∧ penBits s = {
          stipple := s.fillp
          transparent := s.fillpTrans
          primary := (s.drawPal[s.pen.toNat % 16]).extractLsb' 0 4
          secondary := (s.drawPal[s.pen.toNat / 16 % 16]).extractLsb' 0 4 }

/-- `setPixel` (40_rasterizer R142, with the stipple bit of R141): outside the clip rectangle nothing changes; inside, a set
stipple bit writes the secondary colour, or nothing when the pattern is transparent, and a clear bit the primary one; only
the one nibble changes. -/
def Obligations.SetPixel : Prop :=
  ∀ (s : State) (cb : ColorBits) (px py : Int), Plots s (paint s [⟨px, py, cb⟩]) cb (fun x y => x = px ∧ y = py)

/-- PSET draws the one pixel at its device coordinates (40_rasterizer R150). A device coordinate is the int16 congruent mod
2^16 to the coordinate less the camera (R147), and `wrap16` of any integer is the int16 congruent to it (00_scope R12);
every other statement takes its positions from these. -/
def Obligations.PsetDrawsPixel : Prop :=
  (∀ (s : State) (ax ay c : Arg),
    Draws (.pset ax ay c) c s (fun x y => x = devx s (intArg ax 0) ∧ y = devy s (intArg ay 0)))
  ∧ (∀ (s : State) (u : Int),
    ((-32768 ≤ devx s u ∧ devx s u ≤ 32767) ∧ devx s u % 65536 = (u - s.cameraX.toInt) % 65536)
    ∧ (-32768 ≤ devy s u ∧ devy s u ≤ 32767) ∧ devy s u % 65536 = (u - s.cameraY.toInt) % 65536)
  ∧ ∀ v : Int, (-32768 ≤ wrap16 v ∧ wrap16 v ≤ 32767) ∧ wrap16 v % 65536 = v % 65536

open Classical in
/-- PGET answers the stored nibble at its device coordinates, 0 outside the clip rectangle, and changes nothing
(40_rasterizer R151). -/
def Obligations.PgetAnswersPixel : Prop :=
  ∀ (s : State) (ax ay : Arg),
    exec (.pget ax ay) s = .next { s with cmdOut := s.cmdOut ++
      [if InClip s (devx s (intArg ax 0)) (devy s (intArg ay 0))
        then intWord (fbGet s (devx s (intArg ax 0)).toNat (devy s (intArg ay 0)).toNat).toNat else 0] }

/-- HLINE draws the pixels of its row between its two ends, and VLINE those of its column, each in either order of the
ends (40_rasterizer R152, R153). -/
def Obligations.SpansDrawn : Prop :=
  (∀ (s : State) (ax0 ax1 ay c : Arg),
    Draws (.hline ax0 ax1 ay c) c s
      (fun x y => Between (devx s (intArg ax0 0)) (devx s (intArg ax1 0)) x ∧ y = devy s (intArg ay 0)))
  ∧ ∀ (s : State) (ax ay0 ay1 c : Arg),
    Draws (.vline ax ay0 ay1 c) c s
      (fun x y => x = devx s (intArg ax 0) ∧ Between (devy s (intArg ay0 0)) (devy s (intArg ay1 0)) y)

/-- The span fast path is the per-pixel loop (a consequence 40_rasterizer R146 derives from R142 and R72): with no stipple bit set, a byte of the row whose two
pixels are both drawn becomes primary · 0x11, an end byte with one drawn pixel keeps its other nibble, and a byte with
none stays. -/
def Obligations.SpanFastPath : Prop :=
  ∀ (s t : State) (ax0 ax1 ay c : Arg) (k y : Nat), (loadColor c s).fillp = 0 → k < 64 → y < 128 →
    devy s (intArg ay 0) = y → exec (.hline ax0 ax1 ay c) s = .next t →
    let drawnAt := fun x : Int =>
      InClip s x y ∧ Between (devx s (intArg ax0 0)) (devx s (intArg ax1 0)) x
    let a := 0x6000 + 64 * y + k
    let p := (penBits (loadColor c s)).primary
    (drawnAt (2 * k) ∧ drawnAt (2 * k + 1) → memRead t a = p ++ p)
    ∧ (drawnAt (2 * k) ∧ ¬drawnAt (2 * k + 1) → memRead t a = (memRead s a).extractLsb' 4 4 ++ p)
    ∧ (¬drawnAt (2 * k) ∧ drawnAt (2 * k + 1) → memRead t a = p ++ (memRead s a).extractLsb' 0 4)
    ∧ (¬drawnAt (2 * k) ∧ ¬drawnAt (2 * k + 1) → memRead t a = memRead s a)

/-- LINE (40_rasterizer R160): from the explicit start point, or from the anchor when x0 and y0 are both absent, it draws the
pixels of `rasterLine` (R161) to the end point and moves the anchor to the end point before the camera is subtracted; with
only one of x0, y0, or without x1 or y1, it changes nothing. -/
def Obligations.LineDrawsAndMovesAnchor : Prop :=
  ∀ (s : State) (ax0 ay0 ax1 ay1 c : Arg),
    (∀ ex ey X0 Y0 : _, ax1 = some ex → ay1 = some ey →
      ((ax0 ≠ none ∧ ay0 ≠ none ∧ X0 = intArg ax0 0 ∧ Y0 = intArg ay0 0)
        ∨ (ax0 = none ∧ ay0 = none ∧ X0 = s.anchorX.toInt ∧ Y0 = s.anchorY.toInt)) →
      ∃ t, exec (.line ax0 ay0 ax1 ay1 c) s = .next t
        ∧ t.anchorX = ex.extractLsb' 16 16 ∧ t.anchorY = ey.extractLsb' 16 16
        ∧ Plots (loadColor c s) { t with anchorX := s.anchorX, anchorY := s.anchorY } (penBits (loadColor c s))
          (OnLine s.params.lineTie (devx s X0) (devy s Y0) (devx s (intArg ax1 0)) (devy s (intArg ay1 0))))
    ∧ ((ax1 = none ∨ ay1 = none ∨ (ax0 = none ∧ ay0 ≠ none) ∨ (ax0 ≠ none ∧ ay0 = none)) →
        exec (.line ax0 ay0 ax1 ay1 c) s = .next s)

/-- Consequences of the line rule (40_rasterizer R162), each said of the state LINE leaves: the pixels do not depend on which
end is given first; both end points are drawn; stepping along the major axis draws exactly one pixel a step, on either axis
where the spans are equal, and then it is the same pixels by either formula. -/
def Obligations.LineConsequences : Prop :=
  (∀ (s t u : State) (x0 y0 x1 y1 : Word) (c : Arg),
    exec (.line (some x0) (some y0) (some x1) (some y1) c) s = .next t →
    exec (.line (some x1) (some y1) (some x0) (some y0) c) s = .next u →
    ∀ x y : Nat, x < 128 → y < 128 → fbGet t x y = fbGet u x y)
  ∧ (∀ (s t : State) (x0 y0 x1 y1 : Word) (c : Arg),
    exec (.line (some x0) (some y0) (some x1) (some y1) c) s = .next t →
    let X0 := devx s (intArg (some x0) 0)
    let Y0 := devy s (intArg (some y0) 0)
    let X1 := devx s (intArg (some x1) 0)
    let Y1 := devy s (intArg (some y1) 0)
    let plotted := fun x y : Int => ∀ i j : Nat, i < 128 → j < 128 → (i : Int) = x → (j : Int) = y →
      fbGet t i j = drawn (loadColor c s) (penBits (loadColor c s)) i j
    let kept := fun x y : Int => ∀ i j : Nat, i < 128 → j < 128 → (i : Int) = x → (j : Int) = y → fbGet t i j = fbGet s i j
    (plotted X0 Y0 ∧ plotted X1 Y1)
    ∧ (|X1 - X0| ≥ |Y1 - Y0| → ∀ x, Between X0 X1 x →
        ∃! y, OnLine s.params.lineTie X0 Y0 X1 Y1 x y ∧ plotted x y ∧ ∀ y', y' ≠ y → kept x y')
    ∧ (|X1 - X0| ≤ |Y1 - Y0| → ∀ y, Between Y0 Y1 y →
        ∃! x, OnLine s.params.lineTie X0 Y0 X1 Y1 x y ∧ plotted x y ∧ ∀ x', x' ≠ x → kept x' y))
  ∧ ∀ (tie : LineTie) (x0 y0 x1 y1 : Int), |x1 - x0| = |y1 - y0| →
    ∀ x y, OnLine tie x0 y0 x1 y1 x y ↔ OnLine tie y0 x0 y1 x1 y x

/-- The model's `circleSteps` runs the body with exactly the (dx, dy) of the loop of 40_rasterizer R163, dy = 0, 1, 2, …,
until dx < dy. -/
def Obligations.CircleSteps : Prop :=
  ∀ r : Int, ∃ n : Nat, circleSteps r = (List.range n).map (fun (k : Nat) => ((circState r k).1, (k : Int)))
    ∧ (∀ k : Nat, k < n → (k : Int) ≤ (circState r k).1) ∧ (circState r n).1 < (n : Int)

/-- CIRC draws the eight-way symmetric outline (40_rasterizer R166, R164). -/
def Obligations.CircDrawsOutline : Prop :=
  ∀ (s : State) (ax ay ar c : Arg),
    Draws (.circ ax ay ar c) c s (OnCircle (devx s (intArg ax 0)) (devy s (intArg ay 0)) (intArg ar 0))

/-- CIRCFILL draws two horizontal and two vertical spans per step (40_rasterizer R167, R165). -/
def Obligations.CircfillDrawsDisc : Prop :=
  ∀ (s : State) (ax ay ar c : Arg),
    Draws (.circfill ax ay ar c) c s (InDisc (devx s (intArg ax 0)) (devy s (intArg ay 0)) (intArg ar 0))

/-- The small circles of the corner cases of 40_rasterizer R166 and R167: r < 0 draws nothing, r = 0 the one pixel (X, Y), and
r = 1 the four pixels at distance 1, filled the plus of five (away from the ends of the int16 coordinate range, where a span
that wraps runs across the row, as `CircDrawsOutline` and `CircfillDrawsDisc` say). -/
def Obligations.SmallCircles : Prop :=
  ∀ (s : State) (ax ay ar c : Arg),
    let X := devx s (intArg ax 0)
    let Y := devy s (intArg ay 0)
    let cross := fun x y : Int => (x = X - 1 ∧ y = Y) ∨ (x = X + 1 ∧ y = Y) ∨ (x = X ∧ y = Y - 1) ∨ (x = X ∧ y = Y + 1)
    (intArg ar 0 < 0 → Draws (.circ ax ay ar c) c s (fun _ _ => False) ∧ Draws (.circfill ax ay ar c) c s (fun _ _ => False))
    ∧ (intArg ar 0 = 0 → Draws (.circ ax ay ar c) c s (fun x y => x = X ∧ y = Y)
      ∧ Draws (.circfill ax ay ar c) c s (fun x y => x = X ∧ y = Y))
    ∧ (intArg ar 0 = 1 → -32768 < X → X < 32767 → -32768 < Y → Y < 32767 →
      Draws (.circ ax ay ar c) c s cross
      ∧ Draws (.circfill ax ay ar c) c s (fun x y => cross x y ∨ (x = X ∧ y = Y)))

/-- CLIP (40_rasterizer R170): without h the full rectangle; with h each edge is clamped into 0..128, x + w and y + h computed
without wrap. -/
def Obligations.ClipCommand : Prop :=
  ∀ (s : State) (ax ay aw ah : Arg), ∃ t, exec (.clip ax ay aw ah) s = .next t ∧ t = { s with clip := t.clip }
    ∧ (ah = none → t.clip.x1.val = 0 ∧ t.clip.y1.val = 0 ∧ t.clip.x2.val = 128 ∧ t.clip.y2.val = 128)
    ∧ (ah ≠ none →
      (t.clip.x1.val : Int) = min (max (intArg ax 0) 0) 128 ∧ (t.clip.y1.val : Int) = min (max (intArg ay 0) 0) 128
      ∧ (t.clip.x2.val : Int) = min (max (intArg ax 0 + intArg aw 0) 0) 128
      ∧ (t.clip.y2.val : Int) = min (max (intArg ay 0 + intArg ah 0) 0) 128)

/-- CLS (40_rasterizer R172): every framebuffer byte becomes the low nibble of the colour's integer part, twice; the clip
rectangle and the cursor are restored; nothing else changes. -/
def Obligations.ClsFillsAndRestores : Prop :=
  ∀ (s : State) (c : Arg), ∃ t, exec (.cls c) s = .next t
    ∧ t = { s with mem := t.mem, clip := ⟨0, 0, 128, 128⟩, cursorX := 0, cursorY := 0 }
    ∧ (∀ a, 0x6000 ≤ a → a < 0x8000 →
        (memRead t a).toNat = (((c.getD 0).toNat / 2 ^ 16) % 16) * 0x11)
    ∧ ∀ a, ¬(0x6000 ≤ a ∧ a < 0x8000) → Memory.read t.mem a = Memory.read s.mem a

/-- CAMERA (40_rasterizer R173): the new offset is taken and the old one answered. -/
def Obligations.CameraSwapsOffset : Prop :=
  ∀ (s : State) (ax ay : Arg),
    exec (.camera ax ay) s = .next { s with
      cameraX := BitVec.ofInt 16 (intArg ax 0)
      cameraY := BitVec.ofInt 16 (intArg ay 0)
      cmdOut := s.cmdOut ++ [BitVec.ofInt 32 (s.cameraX.toInt * 65536), BitVec.ofInt 32 (s.cameraY.toInt * 65536)] }

/-- No drawing command and no blit changes a pixel outside the clip rectangle (40_rasterizer R142): of all transactions only
CLS and MEMW do. -/
def Obligations.OutsideClipUnchanged : Prop :=
  ∀ (i : Instr) (s t : State) (x y : Nat), x < 128 → y < 128 → ¬InClip s x y → exec i s = .next t →
    row i ≠ 0x09 → row i ≠ 0x101 → fbGet t x y = fbGet s x y

/-! ### Sprites, map and accessors -/

/-- SPR (41_sprite_map R200): cel n at the device position, W8 × H8 pixels, mirrored as a whole by fx and fy, each looked up in
the draw table with transparent entries skipped; pen and pattern play no part. -/
def Obligations.SprDrawsCels : Prop :=
  ∀ (s : State) (an ax ay aw ah fx fy : Arg), ∃ t, exec (.spr an ax ay aw ah fx fy) s = .next t
    ∧ Blits s t (devx s (intArg ax 0)) (devy s (intArg ay 0)) (sprSize aw) (sprSize ah) (fun i j =>
        let n : Int := intArg an 0 % 256
        lookup s (sheetAt s (8 * (n % 16) + mirror fx (sprSize aw) i) (8 * (n / 16) + mirror fy (sprSize ah) j)))

/-- SSPR (41_sprite_map R203): destination pixel (i, j) takes source pixel (sx + sw·i/dw, sy + sh·j/dh), the quotients
truncated, the destination size defaulting to the source size. -/
def Obligations.SsprResamplesSheet : Prop :=
  ∀ (s : State) (asx asy asw ash adx ady adw adh fx fy : Arg),
    ∃ t, exec (.sspr asx asy asw ash adx ady adw adh fx fy) s = .next t
    ∧ Blits s t (devx s (intArg adx 0)) (devy s (intArg ady 0)) (intArg adw (intArg asw 0)) (intArg adh (intArg ash 0))
      (fun i j =>
        let dw := intArg adw (intArg asw 0)
        let dh := intArg adh (intArg ash 0)
        lookup s (sheetAt s (intArg asx 0 + (intArg asw 0 * mirror fx dw i).tdiv dw)
          (intArg asy 0 + (intArg ash 0 * mirror fy dh j).tdiv dh)))

/-- MAP (41_sprite_map R205): pixel (px, py) of the area shows its cell's tile; cells off the map, tiles the layer filter
rejects, tile 0 and transparent colours draw nothing; the sizes default to 128 and 32 cells, each on its own. -/
def Obligations.MapCommand : Prop :=
  ∀ (s : State) (acx acy adx ady acw ach alayer : Arg), ∃ t, exec (.map acx acy adx ady acw ach alayer) s = .next t
    ∧ Blits s t (devx s (intArg adx 0)) (devy s (intArg ady 0)) (8 * intArg acw 128) (8 * intArg ach 32)
      (tileColor s (intArg acx 0) (intArg acy 0) (BitVec.ofInt 8 (intArg alayer 0)))

/-- `SSPR 8·(n mod 16), 8·⌊n/16⌋, 8, 8, x, y` draws what `SPR n, x, y` draws (41_sprite_map R204). -/
def Obligations.SsprDrawsSpr : Prop :=
  ∀ (s : State) (n : Nat) (ax ay fx fy : Arg), n < 256 →
    exec (.sspr (some (intWord (8 * (n % 16)))) (some (intWord (8 * (n / 16)))) (some (intWord 8)) (some (intWord 8))
      ax ay none none fx fy) s
    = exec (.spr (some (intWord n)) ax ay none none fx fy) s

/-- The layer filter (41_sprite_map R206): mask 0 passes every tile, else all bits of the mask, or any, by `LAYER_MATCH`; the
two settings agree on a mask of a single bit, which R206 derives from that definition. -/
def Obligations.LayerFilter : Prop :=
  (∀ (lm : LayerMatch) (f : Byte), layerPass lm f 0 = true)
  ∧ (∀ f m : Byte, m ≠ 0 → (layerPass .allBits f m = true ↔ ∀ k, k < 8 → m.getLsbD k = true → f.getLsbD k = true))
  ∧ (∀ f m : Byte, m ≠ 0 →
      (layerPass .anyBit f m = true ↔ ∃ k, k < 8 ∧ m.getLsbD k = true ∧ f.getLsbD k = true))
  ∧ ∀ (f : Byte) (k : Nat), k < 8 → layerPass .allBits f (1#8 <<< k) = layerPass .anyBit f (1#8 <<< k)

/-- MGET, SGET and FGET (41_sprite_map R210, R212, R214) answer the map byte, the sheet nibble, the flags byte or the flag bit,
0 out of range, and change nothing; each is said of the bytes the memory port reads (20_memory R71, R72). -/
def Obligations.AccessorReads : Prop :=
  ∀ (s : State) (ax ay : Arg),
    let x := intArg ax 0
    let y := intArg ay 0
    exec (.mget ax ay) s = .next { s with cmdOut := s.cmdOut ++
        [if (0 ≤ x ∧ x < 128) ∧ (0 ≤ y ∧ y < 64) then intWord (memRead s (0x2000 + 128 * y.toNat + x.toNat)).toNat else 0] }
    ∧ exec (.sget ax ay) s = .next { s with cmdOut := s.cmdOut ++
        [if (0 ≤ x ∧ x < 128) ∧ (0 ≤ y ∧ y < 128) then intWord (sheetNibble s x.toNat y.toNat).toNat else 0] }
    ∧ exec (.fget ax ay) s = .next { s with cmdOut := s.cmdOut ++
        [if 0 ≤ x ∧ x < 256 then
          (if ay = none then intWord (memRead s (0x4000 + x.toNat)).toNat
          else if 0 ≤ y ∧ y ≤ 7 then boolWord ((memRead s (0x4000 + x.toNat)).getLsbD y.toNat) else 0)
        else 0] }

/-- MSET (41_sprite_map R211): on the map and with a value it stores the value's low byte in the one cell (and its alias) and
changes no other byte; off the map, or without a value, it changes nothing. -/
def Obligations.MsetStoresCell : Prop :=
  ∀ (s : State) (ax ay av : Arg),
    ((av = none ∨ ¬((0 ≤ intArg ax 0 ∧ intArg ax 0 < 128) ∧ (0 ≤ intArg ay 0 ∧ intArg ay 0 < 64))) →
      exec (.mset ax ay av) s = .next s)
    ∧ ∀ x y : Nat, av ≠ none → intArg ax 0 = x → intArg ay 0 = y → x < 128 → y < 64 →
      ∃ t, exec (.mset ax ay av) s = .next t ∧ t = { s with mem := t.mem }
        ∧ ∀ b, memRead t b = if sameByte s.params (0x2000 + 128 * y + x) b = true then BitVec.ofInt 8 (intArg av 0) else memRead s b

/-- SSET (41_sprite_map R213): the colour resolves first, off the sheet too; on the sheet the draw-table colour of the pen's
low nibble is stored in the one pixel, and every other pixel and every byte outside the sheet stays. Without its colour slot
it does the same with the kept pen, or changes nothing: the spec has both (R213's pseudocode, 60_exceptions R311), and that
each is a setting of the model is the model's reading (log 22). -/
def Obligations.SsetStoresColour : Prop :=
  ∀ (s : State) (ax ay c : Arg),
    (c ≠ none ∨ s.params.ssetNoColour = .storesPen → ∃ t, exec (.sset ax ay c) s = .next t
      ∧ t = { loadColor c s with mem := t.mem }
      ∧ (∀ a, 0x2000 ≤ a → Memory.read t.mem a = Memory.read s.mem a)
      ∧ ∀ x y : Nat, x < 128 → y < 128 → sheetNibble t x y =
          if intArg ax 0 = x ∧ intArg ay 0 = y then (penBits (loadColor c s)).primary else sheetNibble s x y)
    ∧ (c = none → s.params.ssetNoColour = .noChange → exec (.sset ax ay c) s = .next s)

/-- FSET (41_sprite_map R215): without a bit index the flags byte becomes the value's low byte; with one in 0..7 that bit
becomes whether the value is not 0 and the others stay; every other byte stays; out of range, or without a value, nothing
changes. -/
def Obligations.FsetStoresFlags : Prop :=
  ∀ (s : State) (an ab av : Arg),
    ((av = none ∨ ¬(0 ≤ intArg an 0 ∧ intArg an 0 < 256) ∨ (ab ≠ none ∧ ¬(0 ≤ intArg ab 0 ∧ intArg ab 0 ≤ 7))) →
      exec (.fset an ab av) s = .next s)
    ∧ ∀ n : Nat, av ≠ none → intArg an 0 = n → n < 256 → (ab ≠ none → 0 ≤ intArg ab 0 ∧ intArg ab 0 ≤ 7) →
      ∃ t, exec (.fset an ab av) s = .next t ∧ t = { s with mem := t.mem }
        ∧ (∀ b, b ≠ 0x4000 + n → memRead t b = memRead s b)
        ∧ (ab = none → memRead t (0x4000 + n) = BitVec.ofInt 8 (intArg av 0))
        ∧ (ab ≠ none → ∀ k : Nat, k < 8 → (memRead t (0x4000 + n)).getLsbD k =
            if intArg ab 0 = k then decide (av.getD 0 ≠ 0) else (memRead s (0x4000 + n)).getLsbD k)

/-- PAL (41_sprite_map R220): with neither index both tables become the identity with only index 0 transparent; with both, page
0 sets a draw-table colour and keeps its TRANS bit, page 1 replaces a screen-table byte, another page changes nothing; with
one index nothing changes. -/
def Obligations.PalRemapsOrResets : Prop :=
  ∀ (s : State) (a0 a1 ap : Arg),
    (a0 = none → a1 = none → ∃ t, exec (.pal a0 a1 ap) s = .next t
      ∧ t = { s with drawPal := t.drawPal, screenPal := t.screenPal }
      ∧ (∀ i : Fin 16, t.drawPal[i] = (if i = 0 then 0x10#5 else BitVec.ofNat 5 i.val)
        ∧ t.screenPal[i] = BitVec.ofNat 8 i.val)
      ∧ t.drawPal = State.reset.drawPal ∧ t.screenPal = State.reset.screenPal)
    ∧ ((a0 = none ∧ a1 ≠ none) ∨ (a0 ≠ none ∧ a1 = none) → exec (.pal a0 a1 ap) s = .next s)
    ∧ ∀ i : Fin 16, a0 ≠ none → a1 ≠ none → intArg a0 0 % 16 = (i.val : Int) →
      (intArg ap 0 = 0 → exec (.pal a0 a1 ap) s = .next { s with
        drawPal := s.drawPal.set i.val (s.drawPal[i].extractLsb' 4 1 ++ BitVec.ofInt 4 (intArg a1 0)) i.isLt })
      ∧ (intArg ap 0 = 1 → exec (.pal a0 a1 ap) s = .next { s with
        screenPal := s.screenPal.set i.val (BitVec.ofInt 8 (intArg a1 0)) i.isLt })
      ∧ (intArg ap 0 ≠ 0 → intArg ap 0 ≠ 1 → exec (.pal a0 a1 ap) s = .next s)

/-- PALT (41_sprite_map R221): with no argument the TRANS bits become those of reset and the colours stay; with an index alone
its TRANS bit is answered; with both its TRANS bit is set and its colour stays; with a flag alone nothing happens. -/
def Obligations.PaltTransparency : Prop :=
  ∀ (s : State) (ac af : Arg),
    (ac = none → af = none → ∃ t, exec (.palt ac af) s = .next t ∧ t = { s with drawPal := t.drawPal }
      ∧ ∀ i : Fin 16, t.drawPal[i].getLsbD 4 = decide (i = 0) ∧ t.drawPal[i].extractLsb' 0 4 = s.drawPal[i].extractLsb' 0 4)
    ∧ (ac = none → af ≠ none → exec (.palt ac af) s = .next s)
    ∧ ∀ i : Fin 16, ac ≠ none → intArg ac 0 % 16 = (i.val : Int) →
      (af = none → exec (.palt ac af) s = .next { s with cmdOut := s.cmdOut ++ [boolWord (s.drawPal[i].getLsbD 4)] })
      ∧ (af ≠ none → exec (.palt ac af) s = .next { s with
        drawPal := s.drawPal.set i.val (BitVec.ofBool (decide (af.getD 0 ≠ 0)) ++ s.drawPal[i].extractLsb' 0 4) i.isLt })

/-! ### Audio -/

/-- SFX (42_audio R290): an argument out of its range changes nothing; id −1 stops and id −2 un-loops an explicit channel;
an id 0..63 starts on the explicit or the chosen channel and stops any other channel that plays it. Only the channels
change. -/
def Obligations.SfxTriggersChannel : Prop :=
  ∀ (s : State) (aid ach aoff : Arg),
    let id := intArg aid 0
    let chn := intArg ach (-1)
    let off := intArg aoff 0
    (¬((-2 ≤ id ∧ id ≤ 63) ∧ (-1 ≤ chn ∧ chn ≤ 3) ∧ (0 ≤ off ∧ off ≤ 31)) → exec (.sfx aid ach aoff) s = .next s)
    ∧ (id < 0 → chn = -1 → exec (.sfx aid ach aoff) s = .next s)
    ∧ ∀ c : Fin 4, 0 ≤ off → off ≤ 31 →
      (id = -1 → chn = (c.val : Int) → ∃ t, exec (.sfx aid ach aoff) s = .next t ∧ t = { s with ch := t.ch }
        ∧ ∀ d : Fin 4, t.ch[d] = if d = c then { s.ch[d] with sfx := none, offset := 0 } else s.ch[d])
      ∧ (id = -2 → chn = (c.val : Int) → ∃ t, exec (.sfx aid ach aoff) s = .next t ∧ t = { s with ch := t.ch }
        ∧ ∀ d : Fin 4, t.ch[d] = if d = c then { s.ch[d] with loop := false } else s.ch[d])
      ∧ ∀ S : Fin 64, id = (S.val : Int) → (chn = (c.val : Int) ∨ (chn = -1 ∧ c = pickChannel s S)) →
        ∃ t, exec (.sfx aid ach aoff) s = .next t ∧ t = { s with ch := t.ch }
        ∧ ∀ d : Fin 4, t.ch[d] =
          if d = c then { sfx := some S, offset := (off : Rat), phase := [], loop := true, prevKey := 24#6, prevVol := 0 }
          else if s.ch[d].sfx = some S then { s.ch[d] with sfx := none, offset := 0 }
          else s.ch[d]

/-- The automatic channel (42_audio R291): a channel that plays the id, else the lowest Idle one, else the lowest of those with
the least id. -/
def Obligations.PickChannel : Prop :=
  ∀ (s : State) (S : Fin 64),
    ((∃ c : Fin 4, s.ch[c].sfx = some S) → s.ch[pickChannel s S].sfx = some S)
    ∧ ((∀ c : Fin 4, s.ch[c].sfx ≠ some S) → (∃ c : Fin 4, s.ch[c].sfx = none) →
        s.ch[pickChannel s S].sfx = none ∧ ∀ d : Fin 4, s.ch[d].sfx = none → pickChannel s S ≤ d)
    ∧ ((∀ c : Fin 4, s.ch[c].sfx ≠ some S ∧ s.ch[c].sfx ≠ none) →
        ∃ T : Fin 64, s.ch[pickChannel s S].sfx = some T
          ∧ ∀ (d : Fin 4) (U : Fin 64), s.ch[d].sfx = some U → T ≤ U ∧ (U = T → pickChannel s S ≤ d))

/-- SAMPLE of a channel above 3, or of an Idle one, answers 0 and changes nothing (42_audio R284). -/
def Obligations.SampleSilence : Prop :=
  ∀ (s : State) (c : Nat), (∀ h : c < 4, (s.ch[c]).sfx = none) →
    exec (.sample c) s = .next { s with audOut := s.audOut ++ [0#32] }

/-- SAMPLE of a Playing channel (42_audio R284) produces one sample of note n = ⌊offset⌋ and steps that channel: a silent note
answers 0 and leaves the phase; another note advances the phase by freq / 22050 first and answers its waveform there, scaled,
and crushed when DISTORT says so (R283, R285, R286); the note's key and VOL / 7 are snapshot when the note index changes
before the end (R281); at next ≥ 32 the channel turns Idle with offset 0, else its offset becomes next (R282). Only the
channel, the response and the draw counter change. Under binary32 the rounding of the real operations is the model's (log
7), and the counter of the free `SAMPLE_OVERFLOW` draws is its own field (log 6). -/
def Obligations.SamplePlaying : Prop :=
  ∀ (s : State) (c : Fin 4) (S : Fin 64), s.ch[c].sfx = some S →
    ∃ t, exec (.sample c.val) s = .next t ∧ t = { s with ch := t.ch, audOut := t.audOut, draws := t.draws }
      ∧ (∀ d : Fin 4, d ≠ c → t.ch[d] = s.ch[d])
      ∧ t.ch[c].loop = s.ch[c].loop
      ∧ (let m := s.params.audioReal
        let n := ⌊s.ch[c].offset⌋
        let N := noteAt s S n.toNat
        let next := nextOffset s s.ch[c] S
        N = ⟨(noteWord s S n.toNat).extractLsb' 0 6, (noteWord s S n.toNat).extractLsb' 6 3,
            (noteWord s S n.toNat).extractLsb' 9 3, (noteWord s S n.toNat).extractLsb' 12 3⟩
        ∧ (N.vol = 0 → t.ch[c].phase = s.ch[c].phase ∧ t.audOut = s.audOut ++ [0#32] ∧ t.draws = s.draws)
        ∧ (N.vol ≠ 0 →
          let v := effect s N s.ch[c] S n.toNat (max 1 (speedByte s S))
          let r := toSample m s.draws (Fmt.mulQ m v.vol (wave m N.inst t.ch[c].phase))
          t.ch[c].phase = Fmt.add m s.ch[c].phase (Fmt.divQ m v.freq 22050)
          ∧ t.audOut = s.audOut ++ [sampleWord (if s.distort.getLsbD c.val = true then bitcrush r.1 else r.1)]
          ∧ t.draws = r.2)
        ∧ (⌊next⌋ ≠ n → next < 32 → t.ch[c].prevKey = N.key ∧ t.ch[c].prevVol = Fmt.rndQ m ((N.vol.toNat : Rat) / 7))
        ∧ ((⌊next⌋ = n ∨ 32 ≤ next) → t.ch[c].prevKey = s.ch[c].prevKey ∧ t.ch[c].prevVol = s.ch[c].prevVol)
        ∧ (32 ≤ next → t.ch[c].sfx = none ∧ t.ch[c].offset = 0)
        ∧ (next < 32 → t.ch[c].sfx = some S ∧ t.ch[c].offset = next))

/-- The offset advance with its loop wrap, under exact reals (42_audio R280): one sample is 1/(183 · max(1, SPEED)) of a note;
with the loop flag, LOOP_END > LOOP_START and next ≥ LOOP_END it wraps into the loop. -/
def Obligations.OffsetAdvance : Prop :=
  ∀ (s : State) (C : Channel) (S : Fin 64), s.params.audioReal = .exactReals →
    let next : Rat := C.offset + 1 / (183 * (max 1 (speedByte s S) : Nat))
    let ls := loopStart s S
    let le := loopEnd s S
    (C.loop = true → ls < le → (le : Rat) ≤ next →
      ∃ k : Int, nextOffset s C S = next - k * ((le : Rat) - ls) ∧ (ls : Rat) ≤ nextOffset s C S ∧ nextOffset s C S < le)
    ∧ (¬(C.loop = true ∧ ls < le ∧ (le : Rat) ≤ next) → nextOffset s C S = next)

/-- Bitcrush and output scaling (42_audio R285, R286), under exact reals for the latter: the crushed sample is the sample
divided by 0x1000 toward zero, times 0x1249, one of 15 values for samples in [−32767, 32767]; r is scaled by 32767 and
truncated, and only a result outside int16 is the next free draw (log 6). -/
def Obligations.SampleScaling : Prop :=
  (∀ v : Int, bitcrush v = v.tdiv 0x1000 * 0x1249)
  ∧ (∀ v : Int, -32767 ≤ v → v ≤ 32767 → ∃ k : Int, -7 ≤ k ∧ k ≤ 7 ∧ bitcrush v = k * 4681)
  ∧ sampleWord (bitcrush (-32768)) = BitVec.ofInt 32 28088
  ∧ ∀ (draws : Nat) (x : Surd), Surd.wf x →
      let v := truncReal (32767 * Surd.toReal x)
      (-32768 ≤ v → v ≤ 32767 → toSample .exactReals draws x = (v, draws))
      ∧ (¬(-32768 ≤ v ∧ v ≤ 32767) → toSample .exactReals draws x = ((Config.freeSample draws).toInt, draws + 1))

/-- The oscillator computes the spec's real waveforms, under exact reals: each instrument but the noise its formula
(42_audio R261–R266, R268), the noise its sum of six octaves of `NOISE1D` on the scaled phases (R267), which is free but for its bounds (log 4). -/
def Obligations.Waveforms : Prop :=
  ∀ (inst : BitVec 3) (ph : Surd), Surd.wf ph →
    (inst ≠ 6#3 → Surd.toReal (wave .exactReals inst ph) = waveReal inst.toNat (Surd.toReal ph))
    ∧ (inst = 6#3 → Surd.toReal (wave .exactReals inst ph) =
        0.4 * ∑ j ∈ Finset.range 6, 0.75 ^ j * ((noise1d (Surd.scale (7 / 4 * (9 / 4) ^ j) ph) : Rat) : ℝ))

/-- The frequency and volume of each note effect as real numbers, under exact reals (42_audio R252,
R253, R270–R276); the vibrato's is its default formula, where that is the setting. -/
def Obligations.NoteEffects : Prop :=
  ∀ (s : State) (N : Note) (C : Channel) (S : Fin 64) (n speed : Nat),
    s.params.audioReal = .exactReals →
    let V := effect s N C S n speed
    let f := keyHz N.key
    let v : Rat := (N.vol.toNat : Rat) / 7
    let t : Rat := C.offset - n
    let A : Rat := (if N.fx = 6#3 then 4 else 8) / (if speed ≤ 8 then 2 else 1)
    (N.fx = 0#3 → Surd.toReal V.freq = f ∧ V.vol = v)
    ∧ (N.fx = 1#3 → Surd.toReal V.freq = keyHz C.prevKey + (f - keyHz C.prevKey) * t
      ∧ V.vol = if 0 < C.prevVol then C.prevVol + (v - C.prevVol) * t else v)
    ∧ (N.fx = 2#3 → V.vol = v
      ∧ (s.params.vibrato = .formula →
        Surd.toReal V.freq = f * 2 ^ ((4 * |Int.fract (7.5 * (C.offset : ℝ)) - 0.5| - 1) / 12)))
    ∧ (N.fx = 3#3 → Surd.toReal V.freq = f * (1 - t) ∧ V.vol = v)
    ∧ (N.fx = 4#3 → Surd.toReal V.freq = f ∧ V.vol = v * t)
    ∧ (N.fx = 5#3 → Surd.toReal V.freq = f ∧ V.vol = v * (1 - t))
    ∧ (N.fx = 6#3 ∨ N.fx = 7#3 →
        Surd.toReal V.freq = keyHz (noteKey s S (4 * (n / 4) + (⌊C.offset * speed / A⌋ % 4).toNat)) ∧ V.vol = v)

/-- For every instrument but the noise a sample never leaves int16, so SAMPLE draws no free value there (42_audio R269, R286; the
counter of draws is the model's own, log 6), in every state that meets the invariant, under exact reals. -/
def Obligations.NoOverflowWithoutNoise : Prop :=
  ∀ (s t : State) (c : Fin 4) (S : Fin 64), Inv s → s.params.audioReal = .exactReals → s.ch[c].sfx = some S →
    (noteAt s S ⌊s.ch[c].offset⌋.toNat).inst ≠ 6#3 → exec (.sample c.val) s = .next t → t.draws = s.draws

/-- The audio agent writes nothing but the channels (20_memory R83), and reads only them, SFXT and DISTORT: a SAMPLE commutes
with every command and memory transaction but SFX, a MEMW to SFXT or DISTORT, and a MEMR of CHSFX, so the order the two
agents' transactions take is unobservable for those. In every state that meets the invariant, where a Playing channel's
offset is in [0, 32) and its note in SFXT. -/
def Obligations.SampleCommutes : Prop :=
  ∀ (i : Instr) (c : Nat) (s s1 t : State), Inv s → i.port ≠ .audio → row i ≠ 0x20 →
    (∀ a, i = .memr a → ¬(0x5F34 ≤ a ∧ a < 0x5F38)) →
    (∀ a v, i = .memw a v → ¬(0x4100 ≤ a ∧ a < 0x5200) ∧ a ≠ 0x5F33) →
    exec i s = .next s1 → exec (.sample c) s1 = .next t →
    ∃ s2, exec (.sample c) s = .next s2 ∧ exec i s2 = .next t

end Statements
end

