-- ==== Sys2Proof/Laws/Real.lean ====
section
/-! SUPPORT. What the reals of the audio path denote (`Surd.toReal`), that every operation computes the real it
names, and that every operation keeps the canonical form. -/

namespace Sys2Proof.Machine.Surd

@[simp] theorem toReal_nil : toReal [] = 0 := rfl

@[simp] theorem toReal_cons (t : Term) (x : Surd) : toReal (t :: x) = termReal t + toReal x := by
  simp [toReal]

theorem toReal_addTerm (t : Term) (x : Surd) : toReal (addTerm t x) = termReal t + toReal x := by
  induction x with
  | nil => by_cases h : t.coef = 0 <;> simp [addTerm, h, termReal]
  | cons u x ih =>
    unfold addTerm
    split
    · by_cases h : t.coef = 0 <;> simp [h, termReal]
    · split
      · next he =>
        split
        · next h =>
          have h' : (u.coef : ℝ) = -(t.coef : ℝ) := by
            have : (t.coef : ℝ) + u.coef = 0 := by exact_mod_cast h
            linarith
          simp [termReal, he, h']
        · simp [termReal, he]; ring
      · simp [ih]; ring

@[simp] theorem toReal_add (x y : Surd) : toReal (add x y) = toReal x + toReal y := by
  induction x with
  | nil => simp [add]
  | cons t x ih =>
    have : add (t :: x) y = addTerm t (add x y) := rfl
    rw [this, toReal_addTerm, ih, toReal_cons]; ring

@[simp] theorem toReal_scale (q : Rat) (x : Surd) : toReal (scale q x) = (q : ℝ) * toReal x := by
  unfold scale
  split
  · next h => simp [h]
  · induction x with
    | nil => simp
    | cons t x ih => simp [termReal, ih]; ring

@[simp] theorem toReal_neg (x : Surd) : toReal (neg x) = -toReal x := by simp [neg]

@[simp] theorem toReal_sub (x y : Surd) : toReal (sub x y) = toReal x - toReal y := by
  simp [sub, sub_eq_add_neg]

@[simp] theorem toReal_ofRat (q : Rat) : toReal (ofRat q) = (q : ℝ) := by
  unfold ofRat
  split
  · next h => simp [h]
  · simp [termReal]

theorem pow2Int_eq (n : Int) : ((pow2Int n : Rat) : ℝ) = (2 : ℝ) ^ (n : ℝ) := by
  cases n with
  | ofNat n => simp [pow2Int]
  | negSucc n =>
    rw [show ((Int.negSucc n : Int) : ℝ) = -((n + 1 : ℕ) : ℝ) by simp [Int.negSucc_eq], Real.rpow_neg (by norm_num),
      Real.rpow_natCast]
    simp [pow2Int]

theorem termReal_mkTerm (e c : Rat) : termReal (mkTerm e c) = (c : ℝ) * (2 : ℝ) ^ (e : ℝ) := by
  have h : (e : ℝ) = ((e.floor : ℤ) : ℝ) + ((fracQ e : Rat) : ℝ) := by
    simp only [fracQ]; push_cast; ring
  rw [h, Real.rpow_add (by norm_num)]
  simp only [termReal, mkTerm]
  push_cast
  rw [pow2Int_eq]
  ring

@[simp] theorem toReal_pow2 (e : Rat) : toReal (pow2 e) = (2 : ℝ) ^ (e : ℝ) := by
  simp [pow2, termReal_mkTerm]

theorem toReal_mulTerm (s : Term) (y acc : Surd) :
    toReal (y.foldr (fun t acc' => addTerm (mkTerm (s.exp + t.exp) (s.coef * t.coef)) acc') acc)
      = termReal s * toReal y + toReal acc := by
  induction y with
  | nil => simp
  | cons t y ih =>
    rw [List.foldr_cons, toReal_addTerm, ih, termReal_mkTerm, toReal_cons]
    simp only [termReal]
    push_cast
    rw [Real.rpow_add (by norm_num)]
    ring

@[simp] theorem toReal_mul (x y : Surd) : toReal (mul x y) = toReal x * toReal y := by
  induction x with
  | nil => simp [mul]
  | cons s x ih =>
    have : mul (s :: x) y
        = y.foldr (fun t acc' => addTerm (mkTerm (s.exp + t.exp) (s.coef * t.coef)) acc') (mul x y) := rfl
    rw [this, toReal_mulTerm, ih, toReal_cons]; ring

@[simp] theorem toReal_normalize (x : Surd) : toReal (normalize x) = toReal x := by
  induction x with
  | nil => rfl
  | cons t x ih =>
    have : normalize (t :: x) = addTerm (mkTerm t.exp t.coef) (normalize x) := rfl
    rw [this, toReal_addTerm, ih, termReal_mkTerm, toReal_cons]; rfl

/-! ### The canonical form -/

theorem wf_nil : wf [] := by simp [wf]

theorem wf_cons {t : Term} {x : Surd} :
    wf (t :: x) ↔ (∀ u ∈ x, t.exp < u.exp) ∧ (0 ≤ t.exp ∧ t.exp < 1 ∧ t.coef ≠ 0) ∧ wf x := by
  simp only [wf, List.pairwise_cons, List.forall_mem_cons]; tauto

theorem mem_addTerm_exp {t u : Term} {x : Surd} (h : u ∈ addTerm t x) : u.exp = t.exp ∨ ∃ v ∈ x, v.exp = u.exp := by
  induction x with
  | nil => by_cases hc : t.coef = 0 <;> simp_all [addTerm]
  | cons v x ih =>
    unfold addTerm at h
    split at h
    · split at h
      · exact .inr ⟨u, h, rfl⟩
      · rcases List.mem_cons.1 h with rfl | h
        · exact .inl rfl
        · exact .inr ⟨u, h, rfl⟩
    · split at h
      · split at h
        · exact .inr ⟨u, by simp [h], rfl⟩
        · next he _ =>
          rcases List.mem_cons.1 h with rfl | h
          · exact .inl he.symm
          · exact .inr ⟨u, by simp [h], rfl⟩
      · rcases List.mem_cons.1 h with rfl | h
        · exact .inr ⟨u, by simp, rfl⟩
        · rcases ih h with h | ⟨w, hw, he⟩
          · exact .inl h
          · exact .inr ⟨w, by simp [hw], he⟩

theorem addTerm_wf {t : Term} {x : Surd} (h0 : 0 ≤ t.exp) (h1 : t.exp < 1) (hx : wf x) : wf (addTerm t x) := by
  induction x with
  | nil => by_cases hc : t.coef = 0 <;> simp [addTerm, hc, wf, h0, h1]
  | cons u x ih =>
    obtain ⟨hu, hu', hx'⟩ := wf_cons.1 hx
    unfold addTerm
    split
    · next hlt =>
      split
      · exact hx
      · next hc =>
        refine wf_cons.2 ⟨fun v hv => ?_, ⟨h0, h1, hc⟩, hx⟩
        rcases List.mem_cons.1 hv with rfl | hv
        · exact hlt
        · exact hlt.trans (hu v hv)
    · split
      · split
        · exact hx'
        · next hc => exact wf_cons.2 ⟨hu, ⟨hu'.1, hu'.2.1, hc⟩, hx'⟩
      · next h2 h3 =>
        refine wf_cons.2 ⟨fun v hv => ?_, hu', ih hx'⟩
        rcases mem_addTerm_exp hv with h | ⟨w, hw, he⟩
        · rw [h]; exact lt_of_le_of_ne (not_lt.1 h2) (fun e => h3 e.symm)
        · rw [← he]; exact hu w hw

theorem add_wf {x y : Surd} (hx : wf x) (hy : wf y) : wf (add x y) := by
  induction x with
  | nil => exact hy
  | cons t x ih =>
    obtain ⟨_, ht, hx'⟩ := wf_cons.1 hx
    exact addTerm_wf ht.1 ht.2.1 (ih hx')

theorem scale_wf (q : Rat) {x : Surd} (hx : wf x) : wf (scale q x) := by
  unfold scale
  split
  · exact wf_nil
  · next hq =>
    refine ⟨List.pairwise_map.2 hx.1, fun t ht => ?_⟩
    obtain ⟨u, hu, rfl⟩ := List.mem_map.1 ht
    have := hx.2 u hu
    exact ⟨this.1, this.2.1, mul_ne_zero hq this.2.2⟩

theorem neg_wf {x : Surd} (hx : wf x) : wf (neg x) := scale_wf _ hx

theorem sub_wf {x y : Surd} (hx : wf x) (hy : wf y) : wf (sub x y) := add_wf hx (neg_wf hy)

theorem ofRat_wf (q : Rat) : wf (ofRat q) := by
  unfold ofRat
  split
  · exact wf_nil
  · next h => simp [wf, h]

theorem rat_floor_eq (q : Rat) : q.floor = ⌊q⌋ := rfl

theorem fracQ_nonneg (e : Rat) : 0 ≤ fracQ e := by
  have h := Int.floor_le e
  simp only [fracQ, rat_floor_eq]; linarith

theorem fracQ_lt_one (e : Rat) : fracQ e < 1 := by
  have h := Int.lt_floor_add_one e
  simp only [fracQ, rat_floor_eq]; linarith

theorem pow2Int_ne_zero (n : Int) : pow2Int n ≠ 0 := by
  cases n <;> simp [pow2Int]

theorem pow2_wf (e : Rat) : wf (pow2 e) := by
  simp [wf, pow2, mkTerm, fracQ_nonneg, fracQ_lt_one, pow2Int_ne_zero]

theorem mulTerm_wf (s : Term) (y : Surd) {acc : Surd} (h : wf acc) :
    wf (y.foldr (fun t acc' => addTerm (mkTerm (s.exp + t.exp) (s.coef * t.coef)) acc') acc) := by
  induction y with
  | nil => exact h
  | cons t y ih => exact addTerm_wf (fracQ_nonneg _) (fracQ_lt_one _) ih

theorem mul_wf (x y : Surd) : wf (mul x y) := by
  induction x with
  | nil => exact wf_nil
  | cons s x ih => exact mulTerm_wf s y ih

theorem normalize_wf (x : Surd) : wf (normalize x) := by
  induction x with
  | nil => exact wf_nil
  | cons t x ih => exact addTerm_wf (fracQ_nonneg _) (fracQ_lt_one _) ih

theorem abs_wf {x : Surd} (hx : wf x) : wf (abs x) := by
  unfold abs; split
  · exact neg_wf hx
  · exact hx

theorem frac_wf {x : Surd} (hx : wf x) : wf (frac x) := sub_wf hx (ofRat_wf _)

end Sys2Proof.Machine.Surd

namespace Sys2Proof.Machine.Fmt

theorem rnd_exact (x : Surd) : rnd .exactReals x = x := rfl

theorem rndQ_exact (q : Rat) : rndQ .exactReals q = q := rfl

theorem rnd_wf (m : AudioReal) {x : Surd} (hx : Surd.wf x) : Surd.wf (rnd m x) := by
  cases m
  · exact hx
  · exact Surd.ofRat_wf _

theorem add_wf (m : AudioReal) {x y : Surd} (hx : Surd.wf x) (hy : Surd.wf y) : Surd.wf (add m x y) :=
  rnd_wf m (Surd.add_wf hx hy)

theorem sub_wf (m : AudioReal) {x y : Surd} (hx : Surd.wf x) (hy : Surd.wf y) : Surd.wf (sub m x y) :=
  rnd_wf m (Surd.sub_wf hx hy)

theorem mul_wf (m : AudioReal) (x y : Surd) : Surd.wf (mul m x y) := rnd_wf m (Surd.mul_wf x y)

theorem mulQ_wf (m : AudioReal) (q : Rat) {x : Surd} (hx : Surd.wf x) : Surd.wf (mulQ m q x) :=
  rnd_wf m (Surd.scale_wf _ hx)

theorem divQ_wf (m : AudioReal) {x : Surd} (hx : Surd.wf x) (q : Rat) : Surd.wf (divQ m x q) :=
  rnd_wf m (Surd.scale_wf _ hx)

theorem subQ_wf (m : AudioReal) {x : Surd} (hx : Surd.wf x) (q : Rat) : Surd.wf (subQ m x q) :=
  rnd_wf m (Surd.sub_wf hx (Surd.ofRat_wf _))

theorem rsubQ_wf (m : AudioReal) (q : Rat) {x : Surd} (hx : Surd.wf x) : Surd.wf (rsubQ m q x) :=
  rnd_wf m (Surd.sub_wf (Surd.ofRat_wf _) hx)

theorem frac_wf (m : AudioReal) {x : Surd} (hx : Surd.wf x) : Surd.wf (frac m x) := rnd_wf m (Surd.frac_wf hx)

theorem abs_wf (m : AudioReal) {x : Surd} (hx : Surd.wf x) : Surd.wf (abs m x) := rnd_wf m (Surd.abs_wf hx)

theorem pow2_wf (m : AudioReal) (e : Rat) : Surd.wf (pow2 m e) := rnd_wf m (Surd.pow2_wf e)

end Sys2Proof.Machine.Fmt
end

