-- ==== Sys2Proof/Laws/Floor.lean ====
section
/-! SUPPORT. `Surd.floor` is the floor of the real number (`Surd.floor_eq`), and what the comparisons and roundings built
on it mean.

Three parts. A polynomial in 2^(1/n) with integer coefficients and degree below n is 0 or at least M^-n in size
(`liouville_two`), because its norm is a nonzero integer. The bounds of `Surd.bounds` enclose the real and close in on it
(`bounds_spec`). So the search of `Surd.floorSearch` ends before its fuel does (`floor_eq`). -/

namespace Sys2Proof.Machine.Surd
open Polynomial

/-- `X^n - 2` is irreducible over the rationals, by Eisenstein's criterion at 2. -/
theorem irreducible_X_pow_sub_two {n : ℕ} (hn : 0 < n) : Irreducible (X ^ n - C 2 : ℚ[X]) := by
  have hmonic : (X ^ n - C 2 : ℤ[X]).Monic := monic_X_pow_sub_C 2 hn.ne'
  have hdeg : (X ^ n - C 2 : ℤ[X]).natDegree = n := natDegree_X_pow_sub_C
  have hprime : (Ideal.span {(2 : ℤ)}).IsPrime :=
    (Ideal.span_singleton_prime (by norm_num)).2 Int.prime_two
  have hirr : Irreducible (X ^ n - C 2 : ℤ[X]) := by
    refine irreducible_of_eisenstein_criterion hprime ?_ ?_ ?_ ?_ hmonic.isPrimitive
    · rw [hmonic.leadingCoeff, Ideal.mem_span_singleton]; norm_num
    · intro m hm
      rw [degree_eq_natDegree hmonic.ne_zero, hdeg] at hm
      have hm : m < n := by exact_mod_cast hm
      rw [Ideal.mem_span_singleton, coeff_sub, coeff_X_pow, if_neg hm.ne, coeff_C]
      split <;> norm_num
    · rw [degree_eq_natDegree hmonic.ne_zero, hdeg]; exact_mod_cast hn
    · rw [Ideal.span_singleton_pow, Ideal.mem_span_singleton, coeff_sub, coeff_X_pow, if_neg hn.ne, coeff_C_zero]
      norm_num
  have := (hmonic.irreducible_iff_irreducible_map_fraction_map (K := ℚ)).1 hirr
  have hmap : map (algebraMap ℤ ℚ) (X ^ n - C 2) = X ^ n - C 2 := by
    rw [Polynomial.map_sub, Polynomial.map_pow, map_X, map_C]; rfl
  rwa [hmap] at this

theorem isIntegral_aeval_int {K : Type} [Field K] {z : K} (hz : IsIntegral ℤ z) (r : ℤ[X]) :
    IsIntegral ℤ (aeval z r) := by
  induction r using Polynomial.induction_on' with
  | add p q hp hq => simpa using hp.add hq
  | monomial k a =>
    rw [aeval_monomial]
    exact (isIntegral_algebraMap).mul (hz.pow k)

theorem norm_aeval_le {n : ℕ} (hn : 0 < n) {z : ℂ} (hz : z ^ n = 2) (r : ℤ[X]) (hr : r.natDegree < n) :
    ‖aeval z r‖ ≤ 2 * ∑ j ∈ Finset.range n, |((r.coeff j : ℤ) : ℝ)| := by
  have hz1 : 1 ≤ ‖z‖ := by
    by_contra h
    have h2 : ‖z‖ ^ n = 2 := by rw [← norm_pow, hz]; norm_num
    have := pow_lt_one₀ (norm_nonneg z) (not_le.1 h) hn.ne'
    linarith
  have hzn : ‖z‖ ^ n = 2 := by rw [← norm_pow, hz]; norm_num
  rw [aeval_eq_sum_range' hr, Finset.mul_sum]
  refine (norm_sum_le _ _).trans (Finset.sum_le_sum fun j hj => ?_)
  have hj : j ≤ n := (Finset.mem_range.1 hj).le
  have hp : ‖z‖ ^ j ≤ 2 := hzn ▸ pow_le_pow_right₀ hz1 hj
  rw [zsmul_eq_mul, norm_mul, norm_pow, Complex.norm_intCast]
  have := abs_nonneg ((r.coeff j : ℤ) : ℝ)
  nlinarith

/-- Liouville's bound for the integer polynomials of degree below n at `2^(1/n)`: such a value is not 0 and not too
close to 0, since its norm is an integer that is not 0. -/
theorem liouville_two {n : ℕ} (hn : 0 < n) (r : ℤ[X]) (hr0 : r ≠ 0) (hr : r.natDegree < n) (θ : ℝ) (hθ : θ ^ n = 2)
    (M : ℝ) (hM : 2 * ∑ j ∈ Finset.range n, |((r.coeff j : ℤ) : ℝ)| ≤ M) (hM1 : 1 ≤ M) :
    1 ≤ |aeval θ r| * M ^ n := by
  classical
  have hirr := irreducible_X_pow_sub_two hn
  set f : ℚ[X] := X ^ n - C 2 with hf
  have hfmonic : f.Monic := monic_X_pow_sub_C 2 hn.ne'
  have : Fact (Irreducible f) := ⟨hirr⟩
  have : FiniteDimensional ℚ (AdjoinRoot f) := (AdjoinRoot.powerBasis hirr.ne_zero).finite
  set K := AdjoinRoot f
  have hroot : (AdjoinRoot.root f) ^ n = (2 : K) := by
    have h := AdjoinRoot.eval₂_root f
    simp only [hf, eval₂_sub, eval₂_pow, eval₂_X, eval₂_C] at h
    have h' := sub_eq_zero.1 h
    simpa using h'
  set α : K := aeval (AdjoinRoot.root f) r with hα
  have hα0 : α ≠ 0 := by
    intro h
    have hmap : α = AdjoinRoot.mk f (r.map (Int.castRingHom ℚ)) := by
      rw [← AdjoinRoot.aeval_eq]
      exact (aeval_map_algebraMap ℚ (AdjoinRoot.root f) r).symm
    rw [hmap, AdjoinRoot.mk_eq_zero] at h
    have hne : r.map (Int.castRingHom ℚ) ≠ 0 := (Polynomial.map_ne_zero_iff Int.cast_injective).2 hr0
    have := natDegree_le_of_dvd h hne
    rw [natDegree_map_eq_of_injective Int.cast_injective, hf, natDegree_X_pow_sub_C] at this
    omega
  have hint : IsIntegral ℤ (AdjoinRoot.root f) := by
    refine ⟨X ^ n - C 2, monic_X_pow_sub_C 2 hn.ne', ?_⟩
    simp [hroot]
  have hαint : IsIntegral ℤ α := isIntegral_aeval_int hint r
  obtain ⟨y, hy⟩ := IsIntegrallyClosed.isIntegral_iff.1 (Algebra.isIntegral_norm ℚ hαint)
  have hnorm0 : Algebra.norm ℚ α ≠ 0 := Algebra.norm_ne_zero_iff.2 hα0
  have hy0 : y ≠ 0 := by
    rintro rfl; exact hnorm0 (by rw [← hy]; simp)
  have hprod := Algebra.norm_eq_prod_embeddings ℚ ℂ α
  have h1 : (1 : ℝ) ≤ ∏ σ : K →ₐ[ℚ] ℂ, ‖σ α‖ := by
    rw [← norm_prod, ← hprod, ← hy]
    have : (1 : ℤ) ≤ |y| := Int.one_le_abs hy0
    simpa using (show (1 : ℝ) ≤ |(y : ℝ)| by exact_mod_cast this)
  have hσ : ∀ σ : K →ₐ[ℚ] ℂ, ‖σ α‖ ≤ M := by
    intro σ
    have hz : (σ (AdjoinRoot.root f)) ^ n = 2 := by rw [← map_pow, hroot, map_ofNat]
    have : σ α = aeval (σ (AdjoinRoot.root f)) r := by
      have := aeval_algHom_apply (σ.restrictScalars ℤ) (AdjoinRoot.root f) r
      simpa using this.symm
    rw [this]
    exact (norm_aeval_le hn hz r hr).trans hM
  have hθ' : eval₂ ((Algebra.ofId ℚ ℂ : ℚ →ₐ[ℚ] ℂ) : ℚ →+* ℂ) (θ : ℂ) f = 0 := by
    simp only [hf, eval₂_sub, eval₂_pow, eval₂_X, eval₂_C]
    have : ((θ : ℂ)) ^ n = 2 := by exact_mod_cast hθ
    rw [this]; simp
  set σ0 : K →ₐ[ℚ] ℂ := AdjoinRoot.liftAlgHom f (Algebra.ofId ℚ ℂ) (θ : ℂ) hθ'
  have hσ0 : ‖σ0 α‖ = |aeval θ r| := by
    have h : σ0 α = aeval (σ0 (AdjoinRoot.root f)) r := by
      have := aeval_algHom_apply (σ0.restrictScalars ℤ) (AdjoinRoot.root f) r
      simpa using this.symm
    have h2 : σ0 (AdjoinRoot.root f) = (θ : ℂ) := AdjoinRoot.lift_root hθ'
    rw [h, h2]
    have h3 : aeval (θ : ℂ) r = ((aeval θ r : ℝ) : ℂ) := by
      have := aeval_algHom_apply (Complex.ofRealAm.restrictScalars ℤ) θ r
      simpa using this
    rw [h3, Complex.norm_real, Real.norm_eq_abs]
  rw [← Finset.mul_prod_erase Finset.univ (fun σ : K →ₐ[ℚ] ℂ => ‖σ α‖) (Finset.mem_univ σ0), hσ0] at h1
  have h2 : ∏ σ ∈ Finset.univ.erase σ0, ‖σ α‖ ≤ M ^ n := by
    refine (Finset.prod_le_prod (fun σ _ => norm_nonneg _) (fun σ _ => hσ σ)).trans ?_
    rw [Finset.prod_const]
    refine pow_le_pow_right₀ hM1 ?_
    have hc := AlgHom.card ℚ K ℂ
    have hfin : Module.finrank ℚ K = n := by
      rw [(AdjoinRoot.powerBasis hirr.ne_zero).finrank]; simp [hf]
    rw [hfin] at hc
    refine (Finset.card_erase_le).trans ?_
    rw [Finset.card_univ, hc]
  exact h1.trans (mul_le_mul_of_nonneg_left h2 (abs_nonneg _))

end Sys2Proof.Machine.Surd
namespace Sys2Proof.Machine.Surd

theorem nat_div_ge (a b : ℕ) : (a : ℝ) / b ≤ ((a / b : ℕ) : ℝ) + 1 := by
  rw [← Nat.floor_div_eq_div (K := ℝ) a b]
  exact (Nat.lt_floor_add_one _).le

theorem sqrt_step {K sL sU : ℕ} (hK : 1 ≤ K) (h1 : K ≤ sL) (h2 : sU ≤ sL + 4) (h3 : sU ≤ 2 * K) (h4 : sL ≤ sU) :
    K ≤ Nat.sqrt (sL * K) ∧ Nat.sqrt (sU * K) + 1 ≤ Nat.sqrt (sL * K) + 4 ∧ Nat.sqrt (sU * K) + 1 ≤ 2 * K ∧
      (Nat.sqrt (sU * K) + 1) ^ 2 ≤ K * sU + 4 * K ∧ Nat.sqrt (sU * K) + 1 ≤ sU + 1 ∧
      Nat.sqrt (sL * K) ≤ Nat.sqrt (sU * K) + 1 := by
  set l := Nat.sqrt (sL * K)
  set s := Nat.sqrt (sU * K)
  have hl : l ^ 2 ≤ sL * K := Nat.sqrt_le' _
  have hl' : sL * K < (l + 1) ^ 2 := Nat.lt_succ_sqrt' _
  have hs : s ^ 2 ≤ sU * K := Nat.sqrt_le' _
  have hs' : sU * K < (s + 1) ^ 2 := Nat.lt_succ_sqrt' _
  have hlK : K ≤ l := Nat.le_sqrt'.2 (by nlinarith)
  have hs2 : s + 1 ≤ 2 * K := by
    by_contra h
    have : 2 * K ≤ s := by omega
    nlinarith
  refine ⟨hlK, ?_, hs2, by nlinarith, ?_, ?_⟩
  · by_contra h
    have : l + 4 ≤ s := by omega
    nlinarith
  · have : s ≤ sU := by
      by_contra h
      have : sU + 1 ≤ s := by omega
      nlinarith
    omega
  · exact (Nat.sqrt_le_sqrt (Nat.mul_le_mul_right K h4)).trans (Nat.le_succ _)

/-- The square roots of the loop enclose the next root of 2. -/
theorem sqrt_encloses {k sL sU : ℕ} {δ : ℝ} (hsL : (sL : ℝ) ≤ 2 ^ k * 2 ^ δ) (hsU : 2 ^ k * 2 ^ δ ≤ (sU : ℝ)) :
    ((Nat.sqrt (sL * 2 ^ k) : ℕ) : ℝ) ≤ 2 ^ k * 2 ^ (δ / 2) ∧
      2 ^ k * 2 ^ (δ / 2) ≤ ((Nat.sqrt (sU * 2 ^ k) + 1 : ℕ) : ℝ) := by
  have hhalf : ((2 : ℝ) ^ k * 2 ^ (δ / 2)) ^ 2 = 2 ^ k * (2 ^ k * 2 ^ δ) := by
    rw [mul_pow, ← Real.rpow_natCast ((2 : ℝ) ^ (δ / 2)) 2, ← Real.rpow_mul (by norm_num)]
    have : δ / 2 * ((2 : ℕ) : ℝ) = δ := by push_cast; ring
    rw [this]; ring
  have hy0 : (0 : ℝ) ≤ 2 ^ k * 2 ^ (δ / 2) := by positivity
  have hK : (0 : ℝ) < 2 ^ k := by positivity
  constructor
  · rw [← sq_le_sq₀ (by positivity) hy0, hhalf]
    have h : ((Nat.sqrt (sL * 2 ^ k) ^ 2 : ℕ) : ℝ) ≤ ((sL * 2 ^ k : ℕ) : ℝ) := by exact_mod_cast Nat.sqrt_le' _
    push_cast at h
    nlinarith
  · rw [← sq_le_sq₀ hy0 (by positivity), hhalf]
    have h : ((sU * 2 ^ k : ℕ) : ℝ) ≤ (((Nat.sqrt (sU * 2 ^ k) + 1) ^ 2 : ℕ) : ℝ) := by
      exact_mod_cast (Nat.lt_succ_sqrt' _).le
    push_cast at h ⊢
    nlinarith

/-- The upper root falls to 2^k. -/
theorem sqrt_upper {k sU : ℕ} {c : ℝ} (hKsU : (2 : ℝ) ^ k ≤ sU) (hc : (sU : ℝ) ≤ 2 ^ k + c + 2) :
    ((Nat.sqrt (sU * 2 ^ k) + 1 : ℕ) : ℝ) ≤ 2 ^ k + c / 2 + 2 := by
  have hK : (0 : ℝ) < 2 ^ k := by positivity
  have hsq : ((Nat.sqrt (sU * 2 ^ k) ^ 2 : ℕ) : ℝ) ≤ ((sU * 2 ^ k : ℕ) : ℝ) := by exact_mod_cast Nat.sqrt_le' _
  push_cast at hsq ⊢
  by_contra h
  have h := not_le.1 h
  have hc0 : (-2 : ℝ) ≤ c := by linarith
  have h7 : (2 : ℝ) ^ k + c / 2 + 1 < (Nat.sqrt (sU * 2 ^ k) : ℝ) := by linarith
  have h8 : (0 : ℝ) ≤ 2 ^ k + c / 2 + 1 := by linarith
  nlinarith [mul_self_lt_mul_self h8 h7, sq_nonneg (c / 2 + 1)]

theorem div_bounds (a b k : ℕ) : ((a * b / 2 ^ k : ℕ) : ℝ) ≤ (a : ℝ) * b / 2 ^ k ∧
    (a : ℝ) * b / 2 ^ k ≤ ((a * b / 2 ^ k : ℕ) : ℝ) + 1 := by
  constructor
  · have := Nat.cast_div_le (α := ℝ) (m := a * b) (n := 2 ^ k); push_cast at this; exact this
  · have := nat_div_ge (a * b) (2 ^ k); push_cast at this ⊢; exact this

theorem mul_div_le_of_le {a l K p : ℝ} (ha : 0 ≤ a) (hK : 0 < K) (h : l ≤ K * p) : a * l / K ≤ a * p := by
  rw [div_le_iff₀ hK, mul_assoc, mul_comm p]
  exact mul_le_mul_of_nonneg_left h ha

theorem le_mul_div_of_le {a l K p : ℝ} (ha : 0 ≤ a) (hK : 0 < K) (h : K * p ≤ l) : a * p ≤ a * l / K := by
  rw [le_div_iff₀ hK, mul_assoc, mul_comm p]
  exact mul_le_mul_of_nonneg_left h ha

theorem le_of_mul_rpow_le {a T x : ℝ} (ha : 0 ≤ a) (hx : 0 ≤ x) (h : a * 2 ^ x ≤ T) : a ≤ T := by
  have h1 : (1 : ℝ) ≤ 2 ^ x := Real.one_le_rpow (by norm_num) hx
  nlinarith

theorem le_of_mul_le_mul_bound {E s W K : ℝ} (hE : 0 ≤ E) (hK : 0 < K) (hs : K ≤ s) (h : E * s ≤ W * K) :
    E ≤ W := by
  by_contra hc
  have hc := not_le.1 hc
  nlinarith

theorem width_keep {E s s' W K : ℝ} (hE : 0 ≤ E) (hEK : E ≤ K) (h5 : s' ≤ s + 1) (h : E * s ≤ W * K)
    (hK : 0 < K) : E * s' ≤ (W + 30) * K := by
  have : E * s' ≤ E * (s + 1) := mul_le_mul_of_nonneg_left h5 hE
  linarith

/-- The width of the bounds after a digit 1. -/
theorem width_step {K aL aU sU l s aL' aU' W : ℝ} (hK : 0 < K) (hL0 : 0 ≤ aL) (hLK : aL ≤ 2 * K) (hLU : aL ≤ aU)
    (hEK : aU - aL ≤ K) (hs0 : 0 ≤ s) (h4 : s ^ 2 ≤ K * sU + 4 * K) (h3 : s ≤ 2 * K) (h2 : s ≤ l + 4)
    (hL : aL * l / K ≤ aL' + 1) (hU : aU' ≤ aU * s / K + 1) (hW : (aU - aL) * sU ≤ W * K) :
    (aU' - aL') * s ≤ (W + 30) * K := by
  have h11 : aL * (s - l) / K ≤ 8 := by
    rw [div_le_iff₀ hK]; nlinarith
  have h10 : aU' - aL' ≤ (aU - aL) * s / K + 10 := by
    have : aU * s / K - aL * l / K = (aU - aL) * s / K + aL * (s - l) / K := by ring
    linarith
  have h12 : (aU - aL) * s / K * s ≤ (aU - aL) * (sU + 4) := by
    have : (aU - aL) * s / K * s = (aU - aL) * s ^ 2 / K := by ring
    rw [this, div_le_iff₀ hK]
    nlinarith
  have h13 : (aU' - aL') * s ≤ ((aU - aL) * s / K + 10) * s := mul_le_mul_of_nonneg_right h10 hs0
  nlinarith

theorem pow2Loop_zero {k sU aL aU : ℕ} {e : ℚ} {δ T W c : ℝ} (he0 : 0 ≤ e) (he1 : e < 1) (hδ : 0 ≤ δ)
    (hsU : 2 ^ k * 2 ^ δ ≤ (sU : ℝ)) (haL : (aL : ℝ) * 2 ^ ((e : ℝ) * δ) ≤ T)
    (haU : T ≤ (aU : ℝ) * 2 ^ ((e : ℝ) * δ)) (hT : T ≤ 2 * 2 ^ k) (hc : (sU : ℝ) ≤ 2 ^ k + c + 2)
    (hW : ((aU : ℝ) - aL) * sU ≤ W * 2 ^ k) :
    (aL : ℝ) ≤ T ∧ T ≤ ((aU * sU / 2 ^ k + 1 : ℕ) : ℝ) ∧
      ((aU * sU / 2 ^ k + 1 : ℕ) : ℝ) - (aL : ℝ) ≤ W + 2 * (c + 2) + 1 := by
  have hK : (0 : ℝ) < 2 ^ k := by positivity
  have he0' : (0 : ℝ) ≤ e := by exact_mod_cast he0
  have he1' : (e : ℝ) ≤ 1 := by exact_mod_cast he1.le
  have h1 : (1 : ℝ) ≤ 2 ^ ((e : ℝ) * δ) := Real.one_le_rpow (by norm_num) (mul_nonneg he0' hδ)
  have h3 : (2 : ℝ) ^ ((e : ℝ) * δ) ≤ 2 ^ δ := Real.rpow_le_rpow_of_exponent_le (by norm_num) (by nlinarith)
  have haLT : (aL : ℝ) ≤ T := by
    have : (0 : ℝ) ≤ aL := by positivity
    nlinarith
  have haU0 : (0 : ℝ) ≤ aU := by positivity
  obtain ⟨hdiv1, hdiv2⟩ := div_bounds aU sU k
  refine ⟨haLT, ?_, ?_⟩
  · have : T ≤ (aU : ℝ) * sU / 2 ^ k := by
      rw [le_div_iff₀ hK]
      have : T ≤ aU * 2 ^ δ := haU.trans (mul_le_mul_of_nonneg_left h3 haU0)
      nlinarith
    push_cast at hdiv2 ⊢
    linarith
  · push_cast at hdiv1 ⊢
    have hKs : (2 : ℝ) ^ k ≤ sU := by
      have : (1 : ℝ) ≤ 2 ^ δ := Real.one_le_rpow (by norm_num) hδ
      nlinarith
    have : (aU : ℝ) * sU / 2 ^ k - aL ≤ W + 2 * (c + 2) := by
      rw [sub_le_iff_le_add, div_le_iff₀ hK]
      have haL0 : (0 : ℝ) ≤ aL := by positivity
      have haLK : (aL : ℝ) ≤ 2 * 2 ^ k := haLT.trans hT
      have h5 : (aL : ℝ) * (sU - 2 ^ k) ≤ 2 * 2 ^ k * (c + 2) := by
        have h6 : (sU : ℝ) - 2 ^ k ≤ c + 2 := by linarith
        have h7 : (0 : ℝ) ≤ sU - 2 ^ k := by linarith
        nlinarith
      nlinarith
    linarith

/-- What the loop of `pow2Bounds` keeps: the bounds enclose the power, and they stay close. -/
theorem pow2Loop_spec (k : ℕ) (n : ℕ) : ∀ (sL sU aL aU : ℕ) (e : ℚ) (δ T W c : ℝ), 0 ≤ e → e < 1 → 0 ≤ δ →
    (sL : ℝ) ≤ 2 ^ k * 2 ^ δ → 2 ^ k * 2 ^ δ ≤ (sU : ℝ) → (aL : ℝ) * 2 ^ ((e : ℝ) * δ) ≤ T →
    T ≤ (aU : ℝ) * 2 ^ ((e : ℝ) * δ) → T ≤ 2 * 2 ^ k →
    2 ^ k ≤ sL → sU ≤ sL + 4 → sU ≤ 2 * 2 ^ k → (sU : ℝ) ≤ 2 ^ k + c + 2 →
    ((aU : ℝ) - aL) * sU ≤ W * 2 ^ k → W + 30 * n ≤ 2 ^ k → (aL : ℝ) ≤ aU →
    ((pow2Loop k n sL sU aL aU e).1 : ℝ) ≤ T ∧ T ≤ ((pow2Loop k n sL sU aL aU e).2 : ℝ) ∧
      ((pow2Loop k n sL sU aL aU e).2 : ℝ) - ((pow2Loop k n sL sU aL aU e).1 : ℝ)
        ≤ W + 30 * n + 2 * (c / 2 ^ n + 2) + 1 := by
  have hK : (0 : ℝ) < 2 ^ k := by positivity
  induction n with
  | zero =>
    intro sL sU aL aU e δ T W c he0 he1 hδ hsL hsU haL haU hT hsK hd h2 hc hW hWK hLU
    have h := pow2Loop_zero he0 he1 hδ hsU haL haU hT hc hW
    simpa [pow2Loop] using h
  | succ n ih =>
    intro sL sU aL aU e δ T W c he0 he1 hδ hsL hsU haL haU hT hsK hd h2 hc hW hWK hLU
    have hLsU : sL ≤ sU := by
      have : (sL : ℝ) ≤ sU := hsL.trans hsU
      exact_mod_cast this
    obtain ⟨q1, q2, q3, q4, q5, q6⟩ := sqrt_step Nat.one_le_two_pow hsK hd h2 hLsU
    obtain ⟨hlb, hsb⟩ := sqrt_encloses hsL hsU
    have hKsU : (2 : ℝ) ^ k ≤ sU := by
      have : ((2 ^ k : ℕ) : ℝ) ≤ sU := by exact_mod_cast hsK.trans hLsU
      push_cast at this; exact this
    have hc' := sqrt_upper hKsU hc
    simp only [pow2Loop]
    generalize Nat.sqrt (sL * 2 ^ k) = l at *
    generalize Nat.sqrt (sU * 2 ^ k) + 1 = s at *
    have he0' : (0 : ℝ) ≤ e := by exact_mod_cast he0
    have hEn : (0 : ℝ) ≤ aU - aL := by linarith
    have hEW : (aU : ℝ) - aL ≤ W := le_of_mul_le_mul_bound hEn hK hKsU hW
    have hEK : (aU : ℝ) - aL ≤ 2 ^ k := by
      have : (0 : ℝ) ≤ 30 * ((n + 1 : ℕ) : ℝ) := by positivity
      linarith
    have haL0 : (0 : ℝ) ≤ aL := by positivity
    have haU0 : (0 : ℝ) ≤ aU := by positivity
    have hq4 : (s : ℝ) ^ 2 ≤ 2 ^ k * sU + 4 * 2 ^ k := by exact_mod_cast q4
    have hq3 : (s : ℝ) ≤ 2 * 2 ^ k := by exact_mod_cast q3
    have hq5 : (s : ℝ) ≤ sU + 1 := by exact_mod_cast q5
    have hq2 : (s : ℝ) ≤ l + 4 := by exact_mod_cast q2
    have hq6 : (l : ℝ) ≤ s := by exact_mod_cast q6
    have hpow : c / 2 / 2 ^ n = c / 2 ^ (n + 1) := by rw [pow_succ]; field_simp
    have hWK' : W + 30 + 30 * (n : ℝ) ≤ 2 ^ k := by push_cast at hWK; linarith
    split
    · next hbit =>
      have haLT : (aL : ℝ) ≤ T := le_of_mul_rpow_le haL0 (mul_nonneg he0' hδ) haL
      have hexp : (2 : ℝ) ^ ((e : ℝ) * δ) = 2 ^ (δ / 2) * 2 ^ (((2 * e - 1 : ℚ) : ℝ) * (δ / 2)) := by
        rw [← Real.rpow_add (by norm_num)]; congr 1; push_cast; ring
      obtain ⟨hLdiv1, hLdiv2⟩ := div_bounds aL l k
      obtain ⟨hUdiv1, hUdiv2⟩ := div_bounds aU s k
      have hDpos : (0 : ℝ) < 2 ^ (((2 * e - 1 : ℚ) : ℝ) * (δ / 2)) := Real.rpow_pos_of_pos two_pos _
      rw [hexp] at haL haU
      have hstep := ih l s (aL * l / 2 ^ k) (aU * s / 2 ^ k + 1) (2 * e - 1) (δ / 2) T (W + 30) (c / 2)
        (by linarith) (by linarith) (by linarith) hlb hsb ?_ ?_ hT q1 q2 q3 hc' ?_ hWK' ?_
      · refine ⟨hstep.1, hstep.2.1, hstep.2.2.trans ?_⟩
        rw [hpow]; push_cast; linarith
      · refine le_trans (mul_le_mul_of_nonneg_right hLdiv1 hDpos.le) (le_trans ?_ haL)
        rw [← mul_assoc]
        refine mul_le_mul_of_nonneg_right ?_ hDpos.le
        exact mul_div_le_of_le haL0 hK hlb
      · refine haU.trans ?_
        rw [← mul_assoc]
        refine mul_le_mul_of_nonneg_right ?_ hDpos.le
        have h9 : (aU : ℝ) * 2 ^ (δ / 2) ≤ (aU : ℝ) * s / 2 ^ k := le_mul_div_of_le haU0 hK hsb
        push_cast at hUdiv2 ⊢
        linarith
      · refine width_step (l := (l : ℝ)) hK haL0 (haLT.trans hT) hLU hEK (by positivity) hq4 hq3 hq2 hLdiv2 ?_ hW
        push_cast at hUdiv1 ⊢
        linarith
      · have h13 : (aL : ℝ) * l / 2 ^ k ≤ (aU : ℝ) * s / 2 ^ k :=
          div_le_div_of_nonneg_right (mul_le_mul hLU hq6 (by positivity) haU0) hK.le
        push_cast at hUdiv2 hLdiv1 ⊢
        linarith
    · next hbit =>
      have hexp : (2 : ℝ) ^ ((e : ℝ) * δ) = 2 ^ (((2 * e : ℚ) : ℝ) * (δ / 2)) := by
        congr 1; push_cast; ring
      rw [hexp] at haL haU
      have hstep := ih l s aL aU (2 * e) (δ / 2) T (W + 30) (c / 2)
        (by linarith) (by linarith) (by linarith) hlb hsb haL haU hT q1 q2 q3 hc' (width_keep hEn hEK hq5 hW hK) hWK' hLU
      refine ⟨hstep.1, hstep.2.1, hstep.2.2.trans ?_⟩
      rw [hpow]; push_cast; linarith

/-- `pow2Bounds` encloses 2^k · 2^e, and its bounds are less than 30k + 10 apart. -/
theorem pow2Bounds_spec {k : ℕ} (hk : 32 ≤ k) {e : ℚ} (h0 : 0 ≤ e) (h1 : e < 1) :
    ((pow2Bounds k e).1 : ℝ) ≤ 2 ^ k * 2 ^ (e : ℝ) ∧ 2 ^ k * 2 ^ (e : ℝ) ≤ ((pow2Bounds k e).2 : ℝ) ∧
      ((pow2Bounds k e).2 : ℝ) - ((pow2Bounds k e).1 : ℝ) ≤ 30 * k + 7 := by
  have hbig : (30 : ℝ) * k ≤ 2 ^ k := by
    have : 30 * k ≤ 2 ^ k := by
      induction k, hk using Nat.le_induction with
      | base => norm_num
      | succ k hk ih => rw [pow_succ]; have : 30 ≤ 2 ^ k := by nlinarith
                        omega
    exact_mod_cast this
  have h := pow2Loop_spec k k (2 * 2 ^ k) (2 * 2 ^ k) (2 ^ k) (2 ^ k) e 1 (2 ^ k * 2 ^ (e : ℝ)) 0 (2 ^ k) h0 h1
    (by norm_num) (by push_cast; simp; linarith) (by push_cast; simp; linarith) (by simp) (by simp) ?_
    (by omega) (by omega) (le_refl _) (by push_cast; linarith) (by simp) (by linarith) (le_refl _)
  · refine ⟨h.1, h.2.1, h.2.2.trans ?_⟩
    rw [div_self (by positivity)]; linarith
  · have : (2 : ℝ) ^ (e : ℝ) ≤ 2 ^ (1 : ℝ) :=
      Real.rpow_le_rpow_of_exponent_le (by norm_num) (by exact_mod_cast h1.le)
    rw [Real.rpow_one] at this
    have hK : (0 : ℝ) < 2 ^ k := by positivity
    nlinarith

end Sys2Proof.Machine.Surd
namespace Sys2Proof.Machine.Surd

/-- The sum of the magnitudes of the coefficients. -/
def coefSum (x : Surd) : ℚ := (x.map (fun t => |t.coef|)).sum

theorem coefSum_cons (t : Term) (x : Surd) : coefSum (t :: x) = |t.coef| + coefSum x := by simp [coefSum]

theorem coefSum_nonneg (x : Surd) : 0 ≤ coefSum x := by
  induction x with
  | nil => simp [coefSum]
  | cons t x ih => rw [coefSum_cons]; positivity

theorem int_div_bounds (a : ℤ) {d : ℕ} (hd : 0 < d) :
    ((a / (d : ℤ) : ℤ) : ℝ) ≤ (a : ℝ) / d ∧ (a : ℝ) / d ≤ ((a / (d : ℤ) : ℤ) : ℝ) + 1 := by
  have hd' : (0 : ℤ) < d := by exact_mod_cast hd
  have hdr : (0 : ℝ) < d := by exact_mod_cast hd
  constructor
  · rw [le_div_iff₀ hdr]
    exact_mod_cast Int.ediv_mul_le a hd'.ne'
  · rw [div_le_iff₀ hdr]
    exact_mod_cast (Int.lt_ediv_add_one_mul_self a hd').le

theorem int_ceil_bounds (a : ℤ) {d : ℕ} (hd : 0 < d) :
    (a : ℝ) / d ≤ ((-(-a / (d : ℤ)) : ℤ) : ℝ) ∧ ((-(-a / (d : ℤ)) : ℤ) : ℝ) ≤ (a : ℝ) / d + 1 := by
  obtain ⟨h1, h2⟩ := int_div_bounds (-a) hd
  push_cast at h1 h2 ⊢
  rw [neg_div] at h1 h2
  constructor <;> linarith

/-- `termBounds` encloses 2^k times a term. -/
theorem termBounds_spec {k : ℕ} (hk : 32 ≤ k) {t : Term} (h0 : 0 ≤ t.exp) (h1 : t.exp < 1) :
    ((termBounds k t).1 : ℝ) ≤ 2 ^ k * termReal t ∧ 2 ^ k * termReal t ≤ ((termBounds k t).2 : ℝ) ∧
      ((termBounds k t).2 : ℝ) - ((termBounds k t).1 : ℝ) ≤ ((|t.coef| : ℚ) : ℝ) * (30 * k + 7) + 2 := by
  obtain ⟨hL, hU, hW⟩ := pow2Bounds_spec hk h0 h1
  have hden : 0 < t.coef.den := t.coef.den_pos
  have hdr : (0 : ℝ) < t.coef.den := by exact_mod_cast hden
  have hc : (t.coef : ℝ) = (t.coef.num : ℝ) / t.coef.den := Rat.cast_def t.coef
  set V : ℝ := 2 ^ k * 2 ^ (t.exp : ℝ) with hV
  have hval : 2 ^ k * termReal t = t.coef.num * V / t.coef.den := by
    rw [termReal, hc, hV]; ring
  rw [hval]
  have habs : ((|t.coef| : ℚ) : ℝ) = |(t.coef.num : ℝ)| / t.coef.den := by
    rw [Rat.cast_abs, hc, abs_div, abs_of_pos hdr]
  rw [habs]
  simp only [termBounds]
  generalize (pow2Bounds k t.exp).1 = pL at *
  generalize (pow2Bounds k t.exp).2 = pU at *
  split
  · next hn =>
    have hn' : (0 : ℝ) ≤ t.coef.num := by exact_mod_cast hn
    obtain ⟨a1, a2⟩ := int_div_bounds (t.coef.num * pL) hden
    obtain ⟨b1, b2⟩ := int_ceil_bounds (t.coef.num * pU) hden
    push_cast at a1 a2 b1 b2 ⊢
    have c1 : (t.coef.num : ℝ) * pL / t.coef.den ≤ t.coef.num * V / t.coef.den :=
      div_le_div_of_nonneg_right (mul_le_mul_of_nonneg_left hL hn') hdr.le
    have c2 : (t.coef.num : ℝ) * V / t.coef.den ≤ t.coef.num * pU / t.coef.den :=
      div_le_div_of_nonneg_right (mul_le_mul_of_nonneg_left hU hn') hdr.le
    refine ⟨by linarith, by linarith, ?_⟩
    rw [abs_of_nonneg hn']
    have c3 : (t.coef.num : ℝ) * pU / t.coef.den - t.coef.num * pL / t.coef.den
        ≤ t.coef.num / t.coef.den * (30 * k + 7) := by
      have : (t.coef.num : ℝ) * pU / t.coef.den - t.coef.num * pL / t.coef.den
          = t.coef.num / t.coef.den * (pU - pL) := by ring
      rw [this]
      exact mul_le_mul_of_nonneg_left hW (by positivity)
    linarith
  · next hn =>
    have hn' : (t.coef.num : ℝ) ≤ 0 := by exact_mod_cast (not_le.1 hn).le
    obtain ⟨a1, a2⟩ := int_div_bounds (t.coef.num * pU) hden
    obtain ⟨b1, b2⟩ := int_ceil_bounds (t.coef.num * pL) hden
    push_cast at a1 a2 b1 b2 ⊢
    have c1 : (t.coef.num : ℝ) * pU / t.coef.den ≤ t.coef.num * V / t.coef.den :=
      div_le_div_of_nonneg_right (mul_le_mul_of_nonpos_left hU hn') hdr.le
    have c2 : (t.coef.num : ℝ) * V / t.coef.den ≤ t.coef.num * pL / t.coef.den :=
      div_le_div_of_nonneg_right (mul_le_mul_of_nonpos_left hL hn') hdr.le
    refine ⟨by linarith, by linarith, ?_⟩
    rw [abs_of_nonpos hn']
    have c3 : (t.coef.num : ℝ) * pL / t.coef.den - t.coef.num * pU / t.coef.den
        ≤ -t.coef.num / t.coef.den * (30 * k + 7) := by
      have : (t.coef.num : ℝ) * pL / t.coef.den - t.coef.num * pU / t.coef.den
          = -t.coef.num / t.coef.den * (pU - pL) := by ring
      rw [this]
      exact mul_le_mul_of_nonneg_left hW (div_nonneg (by linarith) hdr.le)
    linarith

/-- `bounds` encloses 2^k · x. -/
theorem bounds_spec {k : ℕ} (hk : 32 ≤ k) (x : Surd) (hx : ∀ t ∈ x, 0 ≤ t.exp ∧ t.exp < 1) :
    ((bounds k x).1 : ℝ) ≤ 2 ^ k * toReal x ∧ 2 ^ k * toReal x ≤ ((bounds k x).2 : ℝ) ∧
      ((bounds k x).2 : ℝ) - ((bounds k x).1 : ℝ) ≤ (coefSum x : ℝ) * (30 * k + 7) + 2 * x.length := by
  induction x with
  | nil => simp [bounds, coefSum]
  | cons t x ih =>
    obtain ⟨a1, a2, a3⟩ := ih fun u hu => hx u (by simp [hu])
    obtain ⟨b1, b2, b3⟩ := termBounds_spec hk (hx t (by simp)).1 (hx t (by simp)).2
    have e1 : (bounds k (t :: x)).1 = (termBounds k t).1 + (bounds k x).1 := rfl
    have e2 : (bounds k (t :: x)).2 = (termBounds k t).2 + (bounds k x).2 := rfl
    rw [e1, e2, coefSum_cons, toReal_cons]
    push_cast [List.length_cons] at *
    refine ⟨by linarith, by linarith, ?_⟩
    nlinarith

/-- Bounds with one floor give the floor. -/
theorem floor_of_bounds {lo hi : ℤ} {k : ℕ} {v : ℝ} (h1 : (lo : ℝ) ≤ 2 ^ k * v) (h2 : 2 ^ k * v ≤ (hi : ℝ))
    (h : lo / 2 ^ k = hi / 2 ^ k) : lo / 2 ^ k = ⌊v⌋ := by
  have hK : (0 : ℝ) < 2 ^ k := by positivity
  have hKi : (0 : ℤ) < 2 ^ k := by positivity
  symm
  rw [Int.floor_eq_iff]
  have a1 : ((lo / 2 ^ k * 2 ^ k : ℤ) : ℝ) ≤ lo := by exact_mod_cast Int.ediv_mul_le lo hKi.ne'
  have a2 : (hi : ℝ) < (((hi / 2 ^ k + 1) * 2 ^ k : ℤ) : ℝ) := by exact_mod_cast Int.lt_ediv_add_one_mul_self hi hKi
  rw [← h] at a2
  push_cast at a1 a2
  constructor
  · by_contra hc
    have hc := not_le.1 hc
    nlinarith
  · by_contra hc
    have hc := not_lt.1 hc
    nlinarith

theorem floorSearch_eq {x : Surd} (hx : ∀ t ∈ x, 0 ≤ t.exp ∧ t.exp < 1) (fuel : ℕ) : ∀ k, 32 ≤ k →
    (bounds (k * 2 ^ fuel) x).1 / 2 ^ (k * 2 ^ fuel) = (bounds (k * 2 ^ fuel) x).2 / 2 ^ (k * 2 ^ fuel) →
    floorSearch x fuel k = ⌊toReal x⌋ := by
  induction fuel with
  | zero =>
    intro k hk h
    simp only [pow_zero, mul_one] at h
    obtain ⟨a1, a2, _⟩ := bounds_spec hk x hx
    exact floor_of_bounds a1 a2 h
  | succ fuel ih =>
    intro k hk h
    simp only [floorSearch]
    split
    · next h' =>
      obtain ⟨a1, a2, _⟩ := bounds_spec hk x hx
      exact floor_of_bounds a1 a2 h'
    · have e : k * 2 ^ (fuel + 1) = 2 * k * 2 ^ fuel := by rw [pow_succ]; ring
      rw [e] at h
      exact ih (2 * k) (by omega) h

/-- Bounds with two floors have an integer multiple of 2^k between them. -/
theorem exists_int_between {lo hi : ℤ} {k : ℕ} {v : ℝ} (h1 : (lo : ℝ) ≤ 2 ^ k * v) (h2 : 2 ^ k * v ≤ (hi : ℝ))
    (h : lo / 2 ^ k ≠ hi / 2 ^ k) : ∃ n : ℤ, |v - n| * 2 ^ k ≤ hi - lo := by
  have hK : (0 : ℝ) < 2 ^ k := by positivity
  have hKi : (0 : ℤ) < 2 ^ k := by positivity
  have hle : lo ≤ hi := by
    have : (lo : ℝ) ≤ hi := h1.trans h2
    exact_mod_cast this
  have hlt : lo / 2 ^ k + 1 ≤ hi / 2 ^ k := by
    have := Int.ediv_le_ediv hKi hle
    omega
  refine ⟨hi / 2 ^ k, ?_⟩
  have a1 : ((hi / 2 ^ k * 2 ^ k : ℤ) : ℝ) ≤ hi := by exact_mod_cast Int.ediv_mul_le hi hKi.ne'
  have a2 : (lo : ℝ) < (((lo / 2 ^ k + 1) * 2 ^ k : ℤ) : ℝ) := by exact_mod_cast Int.lt_ediv_add_one_mul_self lo hKi
  have a3 : (((lo / 2 ^ k + 1) * 2 ^ k : ℤ) : ℝ) ≤ ((hi / 2 ^ k * 2 ^ k : ℤ) : ℝ) := by
    exact_mod_cast Int.mul_le_mul_of_nonneg_right hlt hKi.le
  push_cast at a1 a2 a3
  have : |v - ((hi / 2 ^ k : ℤ) : ℝ)| * 2 ^ k = |2 ^ k * v - ((hi / 2 ^ k : ℤ) : ℝ) * 2 ^ k| := by
    rw [← abs_of_pos hK, ← abs_mul, abs_of_pos hK]; congr 1; ring
  rw [this, abs_le]
  constructor <;> linarith

end Sys2Proof.Machine.Surd

namespace Sys2Proof.Machine.Surd
open Polynomial

/-- The product of the denominators of the coefficients. -/
def denProd (x : Surd) : ℕ := (x.map (fun t => t.coef.den)).prod

theorem denProd_cons (t : Term) (x : Surd) : denProd (t :: x) = t.coef.den * denProd x := by simp [denProd]

theorem denProd_pos (x : Surd) : 0 < denProd x := by
  induction x with
  | nil => simp [denProd]
  | cons t x ih => rw [denProd_cons]; exact Nat.mul_pos t.coef.den_pos ih

/-- An exponent in units of 1/n. -/
def expIndex (n : ℕ) (e : ℚ) : ℕ := (e * n).num.toNat

theorem expIndex_eq {n : ℕ} {e : ℚ} (h0 : 0 ≤ e) (hd : e.den ∣ n) : ((expIndex n e : ℕ) : ℚ) = e * n := by
  obtain ⟨m, rfl⟩ := hd
  have h : e * ((e.den * m : ℕ) : ℚ) = ((e.num * m : ℤ) : ℚ) := by
    push_cast
    rw [← mul_assoc, Rat.mul_den_eq_num]
  have hn : 0 ≤ e.num * (m : ℤ) := mul_nonneg (Rat.num_nonneg.2 h0) (by positivity)
  rw [expIndex, h]
  simp only [Rat.num_intCast]
  exact_mod_cast Int.toNat_of_nonneg hn

/-- The integer polynomial whose value at 2^(1/n) is `denProd x` times x. -/
noncomputable def intPoly (n : ℕ) : Surd → ℤ[X]
  | [] => 0
  | t :: x => C (t.coef.num * denProd x) * X ^ expIndex n t.exp + C (t.coef.den : ℤ) * intPoly n x

theorem aeval_intPoly {n : ℕ} (hn : 0 < n) {θ : ℝ} (hθ : θ = 2 ^ ((1 : ℝ) / n)) (x : Surd)
    (h : ∀ t ∈ x, 0 ≤ t.exp ∧ t.exp.den ∣ n) : aeval θ (intPoly n x) = denProd x * toReal x := by
  induction x with
  | nil => simp [intPoly]
  | cons t x ih =>
    have ih := ih fun u hu => h u (by simp [hu])
    obtain ⟨h0, hd⟩ := h t (by simp)
    have hpow : θ ^ expIndex n t.exp = 2 ^ (t.exp : ℝ) := by
      rw [hθ, ← Real.rpow_natCast, ← Real.rpow_mul (by norm_num)]
      congr 1
      have h1 : ((expIndex n t.exp : ℕ) : ℝ) = (t.exp : ℝ) * n := by
        have := expIndex_eq h0 hd
        exact_mod_cast congrArg (fun q : ℚ => (q : ℝ)) this
      have : (n : ℝ) ≠ 0 := by positivity
      rw [h1]; field_simp
    have hc : (t.coef : ℝ) * t.coef.den = t.coef.num := by
      exact_mod_cast Rat.mul_den_eq_num t.coef
    simp only [intPoly, map_add, map_mul, map_pow, aeval_C, aeval_X, hpow, ih, denProd_cons, toReal_cons, termReal]
    push_cast
    simp only [algebraMap_int_eq, eq_intCast]
    rw [← hc]; ring

theorem natDegree_intPoly_lt {n : ℕ} (hn : 0 < n) (x : Surd)
    (h : ∀ t ∈ x, 0 ≤ t.exp ∧ t.exp < 1 ∧ t.exp.den ∣ n) : (intPoly n x).natDegree < n := by
  induction x with
  | nil => simpa [intPoly] using hn
  | cons t x ih =>
    have ih := ih fun u hu => h u (by simp [hu])
    obtain ⟨h0, h1, hd⟩ := h t (by simp)
    have hj : expIndex n t.exp < n := by
      have he := expIndex_eq h0 hd
      have : t.exp * n < n := by
        have : (0 : ℚ) < n := by exact_mod_cast hn
        nlinarith
      rw [← he] at this
      exact_mod_cast this
    rw [intPoly]
    refine lt_of_le_of_lt (natDegree_add_le _ _) (max_lt ?_ ?_)
    · exact lt_of_le_of_lt (natDegree_C_mul_X_pow_le _ _) hj
    · exact lt_of_le_of_lt (natDegree_C_mul_le _ _) ih

theorem sum_coeff_intPoly_le (n : ℕ) (x : Surd) :
    ∑ j ∈ Finset.range n, |(((intPoly n x).coeff j : ℤ) : ℝ)| ≤ denProd x * (coefSum x : ℝ) := by
  induction x with
  | nil => simp [intPoly, coefSum]
  | cons t x ih =>
    have hden : (0 : ℝ) < t.coef.den := by exact_mod_cast t.coef.den_pos
    have h1 : ∑ j ∈ Finset.range n, |((if j = expIndex n t.exp then (t.coef.num * denProd x : ℝ) else 0))|
        ≤ |(t.coef.num : ℝ)| * denProd x := by
      have hD : (0 : ℝ) ≤ denProd x := by positivity
      by_cases hm : expIndex n t.exp ∈ Finset.range n
      · rw [Finset.sum_eq_single_of_mem _ hm]
        · simp [abs_mul, abs_of_nonneg hD]
        · intro b _ hb; simp [hb]
      · rw [Finset.sum_eq_zero]
        · positivity
        · intro b hb
          have : b ≠ expIndex n t.exp := fun e => hm (e ▸ hb)
          simp [this]
    have h2 : ∑ j ∈ Finset.range n, |(((intPoly n (t :: x)).coeff j : ℤ) : ℝ)|
        ≤ ∑ j ∈ Finset.range n, (|((if j = expIndex n t.exp then (t.coef.num * denProd x : ℝ) else 0))|
          + t.coef.den * |(((intPoly n x).coeff j : ℤ) : ℝ)|) := by
      refine Finset.sum_le_sum fun j _ => ?_
      rw [intPoly, coeff_add, coeff_C_mul, coeff_C_mul, coeff_X_pow]
      push_cast
      refine (abs_add_le _ _).trans (add_le_add ?_ ?_)
      · split <;> simp
      · rw [abs_mul, abs_of_pos hden]
    rw [Finset.sum_add_distrib, ← Finset.mul_sum] at h2
    have hc : ((|t.coef| : ℚ) : ℝ) * t.coef.den = |(t.coef.num : ℝ)| := by
      have h : (t.coef : ℝ) * t.coef.den = t.coef.num := by exact_mod_cast Rat.mul_den_eq_num t.coef
      rw [Rat.cast_abs, ← h, abs_mul, abs_of_pos hden]
    rw [denProd_cons, coefSum_cons]
    push_cast at *
    nlinarith [mul_le_mul_of_nonneg_left ih hden.le]

theorem coeff_intPoly_of_ne {n : ℕ} {j : ℕ} (x : Surd) (h : ∀ t ∈ x, expIndex n t.exp ≠ j) :
    (intPoly n x).coeff j = 0 := by
  induction x with
  | nil => simp [intPoly]
  | cons t x ih =>
    have ht := h t (by simp)
    rw [intPoly, coeff_add, coeff_C_mul, coeff_C_mul, coeff_X_pow, ih fun u hu => h u (by simp [hu])]
    simp [ht.symm]

theorem coeff_intPoly_ne_zero {n : ℕ} (hn : 0 < n) {x : Surd} (hx : wf x) (hd : ∀ t ∈ x, t.exp.den ∣ n) {u : Term}
    (hu : u ∈ x) : (intPoly n x).coeff (expIndex n u.exp) ≠ 0 := by
  have hinj : ∀ s ∈ x, ∀ t ∈ x, s.exp < t.exp → expIndex n s.exp ≠ expIndex n t.exp := by
    intro s hs t ht hlt he
    have h1 := expIndex_eq (hx.2 s hs).1 (hd s hs)
    have h2 := expIndex_eq (hx.2 t ht).1 (hd t ht)
    rw [he, h2] at h1
    have : (n : ℚ) ≠ 0 := by exact_mod_cast hn.ne'
    have := mul_right_cancel₀ this h1
    linarith
  induction x with
  | nil => simp at hu
  | cons t x ih =>
    obtain ⟨h1, h2, h3⟩ := wf_cons.1 hx
    rw [intPoly, coeff_add, coeff_C_mul, coeff_C_mul, coeff_X_pow]
    rcases List.mem_cons.1 hu with rfl | hu
    · rw [coeff_intPoly_of_ne x fun v hv => (hinj u (by simp) v (by simp [hv]) (h1 v hv)).symm]
      have : u.coef.num ≠ 0 := Rat.num_ne_zero.2 h2.2.2
      simp [this, (denProd_pos x).ne']
    · have hne := hinj t (by simp) u (by simp [hu]) (h1 u hu)
      have := ih h3 (fun v hv => hd v (by simp [hv])) hu
        (fun s hs v hv => hinj s (by simp [hs]) v (by simp [hv]))
      simp [hne.symm, this]

theorem dvd_expDen {x : Surd} {t : Term} (h : t ∈ x) : t.exp.den ∣ expDen x := by
  induction x with
  | nil => simp at h
  | cons u x ih =>
    have : expDen (u :: x) = Nat.lcm u.exp.den (expDen x) := rfl
    rw [this]
    rcases List.mem_cons.1 h with rfl | h
    · exact Nat.dvd_lcm_left _ _
    · exact (ih h).trans (Nat.dvd_lcm_right _ _)

theorem expDen_pos (x : Surd) : 0 < expDen x := by
  induction x with
  | nil => simp [expDen]
  | cons u x ih => exact Nat.lcm_pos u.exp.den_pos ih

theorem exists_exp_ne_zero {x : Surd} (hx : wf x) (h : toRat? x = none) : ∃ t ∈ x, t.exp ≠ 0 := by
  match x, h with
  | [t], h =>
    refine ⟨t, by simp, fun e => ?_⟩
    simp [toRat?, e] at h
  | t :: u :: x, _ =>
    obtain ⟨h1, h2, _⟩ := wf_cons.1 hx
    have := h1 u (by simp)
    exact ⟨u, by simp, by linarith [h2.1]⟩

/-- A canonical real that is not rational keeps away from every integer. -/
theorem dist_int_ge {x : Surd} (hx : wf x) (h : toRat? x = none) (m : ℤ) :
    1 ≤ denProd x * |toReal x - m| *
      (2 * (denProd x * ((coefSum x : ℝ) + |(m : ℝ)|)) + 1) ^ expDen x := by
  set n := expDen x with hn
  have hn0 : 0 < n := expDen_pos x
  have hd : ∀ t ∈ x, t.exp.den ∣ n := fun t ht => dvd_expDen ht
  set D := denProd x with hD
  set r : ℤ[X] := intPoly n x - C ((D : ℤ) * m) with hr
  have hD0 : (0 : ℝ) < D := by exact_mod_cast denProd_pos x
  obtain ⟨u, hu, hue⟩ := exists_exp_ne_zero hx h
  have hj : expIndex n u.exp ≠ 0 := by
    intro e
    have h1 := expIndex_eq (hx.2 u hu).1 (hd u hu)
    rw [e] at h1
    have : (n : ℚ) ≠ 0 := by exact_mod_cast hn0.ne'
    rcases mul_eq_zero.1 h1.symm with h2 | h2
    · exact hue h2
    · exact this h2
  have hr0 : r ≠ 0 := by
    intro e
    have := congrArg (fun p => p.coeff (expIndex n u.exp)) e
    simp only [hr, coeff_sub, coeff_C, hj, if_false, sub_zero, coeff_zero] at this
    exact coeff_intPoly_ne_zero hn0 hx hd hu this
  have hdeg : r.natDegree < n := by
    rw [hr]
    refine lt_of_le_of_lt (natDegree_sub_le _ _) (max_lt ?_ (by rw [natDegree_C]; exact hn0))
    exact natDegree_intPoly_lt hn0 x fun t ht => ⟨(hx.2 t ht).1, (hx.2 t ht).2.1, hd t ht⟩
  set θ : ℝ := 2 ^ ((1 : ℝ) / n) with hθ
  have hθn : θ ^ n = 2 := by
    rw [hθ, ← Real.rpow_natCast, ← Real.rpow_mul (by norm_num)]
    have : (n : ℝ) ≠ 0 := by positivity
    rw [one_div_mul_cancel this, Real.rpow_one]
  have hval : aeval θ r = D * (toReal x - m) := by
    rw [hr, map_sub, aeval_intPoly hn0 hθ x fun t ht => ⟨(hx.2 t ht).1, hd t ht⟩, aeval_C]
    simp only [algebraMap_int_eq, eq_intCast, Int.cast_mul, Int.cast_natCast]
    ring
  have hsum : 2 * ∑ j ∈ Finset.range n, |((r.coeff j : ℤ) : ℝ)| ≤ 2 * (D * ((coefSum x : ℝ) + |(m : ℝ)|)) + 1 := by
    have h1 : ∑ j ∈ Finset.range n, |((r.coeff j : ℤ) : ℝ)|
        ≤ ∑ j ∈ Finset.range n, (|(((intPoly n x).coeff j : ℤ) : ℝ)| + if j = 0 then D * |(m : ℝ)| else 0) := by
      refine Finset.sum_le_sum fun j _ => ?_
      rw [hr, coeff_sub, coeff_C]
      push_cast
      refine (abs_sub _ _).trans (add_le_add le_rfl ?_)
      split
      · rw [abs_mul, abs_of_pos hD0]
      · simp
    rw [Finset.sum_add_distrib] at h1
    have h2 : ∑ j ∈ Finset.range n, (if j = 0 then D * |(m : ℝ)| else 0) ≤ D * |(m : ℝ)| := by
      rw [Finset.sum_ite_eq' (Finset.range n) 0]
      split
      · exact le_rfl
      · positivity
    have h3 := sum_coeff_intPoly_le n x
    nlinarith
  have hcs : (0 : ℝ) ≤ (coefSum x : ℝ) := by exact_mod_cast coefSum_nonneg x
  have := liouville_two hn0 r hr0 hdeg θ hθn _ hsum (by nlinarith [abs_nonneg (m : ℝ), mul_nonneg hD0.le (add_nonneg hcs (abs_nonneg (m : ℝ)))])
  rwa [hval, abs_mul, abs_of_pos hD0] at this


/-- The sizes that bound the search: coefficients, their number and their denominators fit in `coefBits` bits. -/
theorem coefBits_spec (x : Surd) :
    4 ≤ coefBits x ∧ (coefSum x : ℝ) + x.length ≤ 2 ^ coefBits x ∧ (denProd x : ℝ) ≤ 2 ^ coefBits x := by
  induction x with
  | nil => norm_num [coefBits, coefSum, denProd]
  | cons t x ih =>
    obtain ⟨h1, h2, h3⟩ := ih
    have hb : coefBits (t :: x) = Nat.log2 t.coef.num.natAbs + Nat.log2 t.coef.den + 2 + coefBits x := rfl
    set a := Nat.log2 t.coef.num.natAbs
    set b := Nat.log2 t.coef.den
    have hnum : (|t.coef.num| : ℝ) ≤ 2 ^ (a + 1) := by
      have : t.coef.num.natAbs < 2 ^ (a + 1) := Nat.lt_log2_self
      have h : (t.coef.num.natAbs : ℝ) ≤ 2 ^ (a + 1) := by exact_mod_cast this.le
      rwa [Nat.cast_natAbs, Int.cast_abs] at h
    have hden : (t.coef.den : ℝ) ≤ 2 ^ (b + 1) := by
      have : t.coef.den < 2 ^ (b + 1) := Nat.lt_log2_self
      exact_mod_cast this.le
    have habs : ((|t.coef| : ℚ) : ℝ) ≤ |(t.coef.num : ℝ)| := by
      have hd1 : (1 : ℝ) ≤ t.coef.den := by exact_mod_cast t.coef.den_pos
      have h : (t.coef : ℝ) * t.coef.den = t.coef.num := by exact_mod_cast Rat.mul_den_eq_num t.coef
      rw [Rat.cast_abs, ← h, abs_mul, abs_of_pos (by linarith : (0 : ℝ) < t.coef.den)]
      nlinarith [abs_nonneg (t.coef : ℝ)]
    have hc16 : (16 : ℝ) ≤ 2 ^ coefBits x := by
      calc (16 : ℝ) = 2 ^ 4 := by norm_num
        _ ≤ 2 ^ coefBits x := pow_le_pow_right₀ (by norm_num) h1
    have ha1 : (1 : ℝ) ≤ 2 ^ a := one_le_pow₀ (by norm_num)
    have hb1 : (1 : ℝ) ≤ 2 ^ b := one_le_pow₀ (by norm_num)
    rw [hb]
    refine ⟨by omega, ?_, ?_⟩
    · rw [coefSum_cons]
      have e : (2 : ℝ) ^ (a + b + 2 + coefBits x) = 2 ^ a * 2 ^ b * 4 * 2 ^ coefBits x := by
        rw [pow_add, pow_add, pow_add]; norm_num
      rw [pow_succ] at hnum
      simp only [List.length_cons]
      push_cast at habs ⊢
      rw [e]
      set A : ℝ := 2 ^ a
      set B : ℝ := 2 ^ b
      set Cc : ℝ := 2 ^ coefBits x
      have hAB : A ≤ A * B := by nlinarith
      have hABC : A * 4 * Cc ≤ A * B * 4 * Cc := by nlinarith [mul_le_mul_of_nonneg_right hAB (by linarith : (0:ℝ) ≤ Cc)]
      have : A * 2 + 1 + Cc ≤ A * 4 * Cc := by nlinarith [mul_le_mul_of_nonneg_left hc16 (by linarith : (0:ℝ) ≤ A)]
      linarith
    · rw [denProd_cons]
      push_cast
      have e : (2 : ℝ) ^ (a + b + 2 + coefBits x) = 2 ^ (a + 1) * (2 ^ (b + 1) * 2 ^ coefBits x) := by
        rw [← pow_add, ← pow_add]; congr 1; omega
      rw [e]
      have : (t.coef.den : ℝ) * denProd x ≤ 2 ^ (b + 1) * 2 ^ coefBits x :=
        mul_le_mul hden h3 (by positivity) (by positivity)
      have h5 : (1 : ℝ) ≤ 2 ^ (a + 1) := one_le_pow₀ (by norm_num)
      have h6 : (0 : ℝ) ≤ 2 ^ (b + 1) * 2 ^ coefBits x := by positivity
      nlinarith

theorem abs_toReal_le {x : Surd} (hx : ∀ t ∈ x, 0 ≤ t.exp ∧ t.exp < 1) : |toReal x| ≤ 2 * (coefSum x : ℝ) := by
  induction x with
  | nil => simp [coefSum]
  | cons t x ih =>
    have ih := ih fun u hu => hx u (by simp [hu])
    obtain ⟨h0, h1⟩ := hx t (by simp)
    have hp : (2 : ℝ) ^ (t.exp : ℝ) ≤ 2 := by
      calc (2 : ℝ) ^ (t.exp : ℝ) ≤ 2 ^ (1 : ℝ) :=
            Real.rpow_le_rpow_of_exponent_le (by norm_num) (by exact_mod_cast h1.le)
        _ = 2 := by norm_num
    have hp0 : (0 : ℝ) < 2 ^ (t.exp : ℝ) := by positivity
    have ht : |termReal t| ≤ 2 * ((|t.coef| : ℚ) : ℝ) := by
      rw [termReal, abs_mul, abs_of_pos hp0, Rat.cast_abs]
      nlinarith [abs_nonneg (t.coef : ℝ)]
    rw [toReal_cons, coefSum_cons]
    push_cast at ht ⊢
    have := abs_add_le (termReal t) (toReal x)
    linarith

theorem linear_lt_two_pow {j : ℕ} (h : 10 ≤ j) : 60 * j + 7 < 2 ^ j := by
  induction j, h using Nat.le_induction with
  | base => norm_num
  | succ j hj ih => rw [pow_succ]; omega

/-- The arithmetic of the search: bounds of precision k that disagree contradict the distance from the integers. -/
theorem search_contra {S L D d n v : ℝ} {w N a k j : ℕ} (hw4 : 4 ≤ w) (hN0 : 0 < N) (ha : a = w * N)
    (hk : k = j + 5 * a) (hj : 10 ≤ j) (hja : 5 * a ≤ j) (hS0 : 0 ≤ S) (hL0 : 0 ≤ L) (hD0 : 0 ≤ D) (hd : d = |v - n|)
    (hS : S + L ≤ 2 ^ w) (hD : D ≤ 2 ^ w) (hv : |v| ≤ 2 * S) (hwid0 : d * 2 ^ k ≤ S * (30 * k + 7) + 2 * L)
    (hdist : 1 ≤ D * d * (2 * (D * (S + |n|)) + 1) ^ N) : False := by
  have hwa : w ≤ a := ha ▸ Nat.le_mul_of_pos_right _ hN0
  have hd0 : 0 ≤ d := hd ▸ abs_nonneg _
  have hk0 : (0 : ℝ) ≤ k := by positivity
  have hlin : (30 * (k : ℝ) + 7) < 2 ^ j := by
    have h1 := linear_lt_two_pow hj
    have h2 : 30 * k + 7 ≤ 60 * j + 7 := by omega
    exact_mod_cast lt_of_le_of_lt h2 h1
  have hwid : d * 2 ^ k ≤ 2 ^ w * (30 * k + 7) := by
    have h1 : (2 : ℝ) * L ≤ L * (30 * k + 7) := by nlinarith
    have h2 := mul_le_mul_of_nonneg_right hS (by linarith : (0 : ℝ) ≤ 30 * k + 7)
    linarith
  have hwid2 : d * 2 ^ k < 2 ^ w * 2 ^ j := lt_of_le_of_lt hwid (mul_lt_mul_of_pos_left hlin (by positivity))
  have h2k : (0 : ℝ) < 2 ^ k := by positivity
  have hle1 : d ≤ 1 := by
    have h1 : (2 : ℝ) ^ w * 2 ^ j ≤ 2 ^ k := by
      rw [← pow_add]; exact pow_le_pow_right₀ (by norm_num) (by omega)
    by_contra hc
    have hc := not_le.1 hc
    nlinarith
  have hnabs : |n| ≤ 2 * 2 ^ w + 1 := by
    have h2 : |n| ≤ |v| + d := by
      have := abs_sub_abs_le_abs_sub n v
      rw [abs_sub_comm, ← hd] at this
      linarith
    linarith
  have hW16 : (16 : ℝ) ≤ 2 ^ w := by
    calc (16 : ℝ) = 2 ^ 4 := by norm_num
      _ ≤ 2 ^ w := pow_le_pow_right₀ (by norm_num) hw4
  have hM : 2 * (D * (S + |n|)) + 1 ≤ 2 ^ (3 * w) := by
    have h1 : S + |n| ≤ 4 * 2 ^ w := by linarith
    have h2 : D * (S + |n|) ≤ 2 ^ w * (4 * 2 ^ w) := mul_le_mul hD h1 (by positivity) (by positivity)
    have e : (2 : ℝ) ^ (3 * w) = 2 ^ w * 2 ^ w * 2 ^ w := by rw [← pow_add, ← pow_add]; congr 1; ring
    rw [e]
    have h3 : (2 : ℝ) ^ w * 2 ^ w * 16 ≤ 2 ^ w * 2 ^ w * 2 ^ w := mul_le_mul_of_nonneg_left hW16 (by positivity)
    nlinarith
  have hpow : (2 * (D * (S + |n|)) + 1) ^ N ≤ 2 ^ (3 * a) := by
    calc _ ≤ ((2 : ℝ) ^ (3 * w)) ^ N := pow_le_pow_left₀ (by positivity) hM _
      _ = 2 ^ (3 * a) := by rw [← pow_mul, ha, mul_assoc]
  have hfin : (1 : ℝ) ≤ 2 ^ w * d * 2 ^ (3 * a) :=
    hdist.trans (mul_le_mul (mul_le_mul_of_nonneg_right hD hd0) hpow (by positivity) (by positivity))
  have h1 : (2 : ℝ) ^ k ≤ 2 ^ w * 2 ^ (3 * a) * (d * 2 ^ k) := by
    have := mul_le_mul_of_nonneg_right hfin h2k.le
    linarith
  have h2 : (2 : ℝ) ^ w * 2 ^ (3 * a) * (d * 2 ^ k) < 2 ^ w * 2 ^ (3 * a) * (2 ^ w * 2 ^ j) :=
    mul_lt_mul_of_pos_left hwid2 (by positivity)
  have h3 : (2 : ℝ) ^ w * 2 ^ (3 * a) * (2 ^ w * 2 ^ j) ≤ 2 ^ k := by
    rw [← pow_add, ← pow_add, ← pow_add]
    exact pow_le_pow_right₀ (by norm_num) (by omega)
  linarith

/-- The floor of the model is the floor of the real number. -/
theorem floor_eq {x : Surd} (hx : wf x) : floor x = ⌊toReal x⌋ := by
  rw [floor]
  split
  · next q hq =>
    have : toReal x = (q : ℝ) := by
      match x, hq with
      | [], hq => simp [toRat?] at hq; simp [← hq]
      | [t], hq =>
        simp only [toRat?] at hq
        split at hq
        · next h => simp at hq; simp [termReal, h, hq]
        · simp at hq
    rw [this, rat_floor_eq, Rat.floor_cast]
  · next hq =>
    have hx' : ∀ t ∈ x, 0 ≤ t.exp ∧ t.exp < 1 := fun t ht => ⟨(hx.2 t ht).1, (hx.2 t ht).2.1⟩
    refine floorSearch_eq hx' _ 32 le_rfl ?_
    obtain ⟨hw4, hS, hD⟩ := coefBits_spec x
    have hN0 : 0 < expDen x := expDen_pos x
    have ha0 : 0 < coefBits x * expDen x := Nat.mul_pos (by omega) hN0
    have hka : 4096 * (coefBits x * expDen x) ≤ 32 * 2 ^ floorFuel x := by
      have h1 : coefBits x * expDen x < 2 ^ (Nat.log2 (coefBits x * expDen x) + 1) := Nat.lt_log2_self
      have h2 : 2 ^ floorFuel x = 2 ^ (Nat.log2 (coefBits x * expDen x) + 1) * 128 := by
        rw [floorFuel, show Nat.log2 (coefBits x * expDen x) + 8 = (Nat.log2 (coefBits x * expDen x) + 1) + 7 by ring,
          pow_add]
        norm_num
      rw [h2]; omega
    generalize 32 * 2 ^ floorFuel x = k at hka ⊢
    by_contra hne
    obtain ⟨b1, b2, b3⟩ := bounds_spec (k := k) (by omega) x hx'
    obtain ⟨n, hn⟩ := exists_int_between b1 b2 hne
    have hS0 : (0 : ℝ) ≤ (coefSum x : ℝ) := by exact_mod_cast coefSum_nonneg x
    exact search_contra (j := k - 5 * (coefBits x * expDen x)) hw4 hN0 rfl (by omega) (by omega) (by omega) hS0
      (Nat.cast_nonneg _) (Nat.cast_nonneg _) rfl hS hD (abs_toReal_le hx') (hn.trans b3) (dist_int_ge hx hq n)

end Sys2Proof.Machine.Surd

namespace Sys2Proof.Machine.Surd

theorem ltRat_iff {x : Surd} (hx : wf x) (q : Rat) : ltRat x q = true ↔ toReal x < q := by
  rw [ltRat, decide_eq_true_iff, floor_eq (sub_wf hx (ofRat_wf q)), Int.floor_lt]
  simp

theorem floor_neg_iff {x : Surd} (hx : wf x) : floor x < 0 ↔ toReal x < 0 := by
  rw [floor_eq hx, Int.floor_lt]; simp

theorem toReal_abs {x : Surd} (hx : wf x) : toReal (abs x) = |toReal x| := by
  rw [abs]
  split
  · next h => rw [toReal_neg, abs_of_neg ((floor_neg_iff hx).1 h)]
  · next h => rw [abs_of_nonneg (not_lt.1 ((floor_neg_iff hx).not.1 h))]

theorem toReal_frac {x : Surd} (hx : wf x) : toReal (frac x) = Int.fract (toReal x) := by
  rw [frac, toReal_sub, toReal_ofRat, floor_eq hx, Int.fract]; simp

/-- `trunc` rounds toward zero. -/
theorem trunc_eq {x : Surd} (hx : wf x) : trunc x = if 0 ≤ toReal x then ⌊toReal x⌋ else ⌈toReal x⌉ := by
  rw [trunc, floor_eq hx, floor_eq (neg_wf hx), toReal_neg, Int.floor_neg, neg_neg]
  simp only [Int.floor_nonneg]

end Sys2Proof.Machine.Surd

/-! ### Under exact reals every operation of the format computes the real operation it names -/

namespace Sys2Proof.Machine.Fmt

open Surd

@[simp] theorem toReal_add_exact (x y : Surd) : toReal (add .exactReals x y) = toReal x + toReal y := by
  simp [add, rnd]

@[simp] theorem toReal_sub_exact (x y : Surd) : toReal (sub .exactReals x y) = toReal x - toReal y := by
  simp [sub, rnd]

@[simp] theorem toReal_mul_exact (x y : Surd) : toReal (mul .exactReals x y) = toReal x * toReal y := by
  simp [mul, rnd]

@[simp] theorem toReal_mulQ_exact (q : Rat) (x : Surd) : toReal (mulQ .exactReals q x) = (q : ℝ) * toReal x := by
  simp [mulQ, rnd, rndQ]

@[simp] theorem toReal_divQ_exact (x : Surd) (q : Rat) : toReal (divQ .exactReals x q) = toReal x / (q : ℝ) := by
  simp [divQ, rnd, rndQ, div_eq_inv_mul]

@[simp] theorem toReal_subQ_exact (x : Surd) (q : Rat) : toReal (subQ .exactReals x q) = toReal x - (q : ℝ) := by
  simp [subQ, rnd, rndQ]

@[simp] theorem toReal_rsubQ_exact (q : Rat) (x : Surd) : toReal (rsubQ .exactReals q x) = (q : ℝ) - toReal x := by
  simp [rsubQ, rnd, rndQ]

@[simp] theorem toReal_pow2_exact (e : Rat) : toReal (pow2 .exactReals e) = (2 : ℝ) ^ (e : ℝ) := by
  simp [pow2, rnd]

theorem toReal_frac_exact {x : Surd} (hx : Surd.wf x) : toReal (frac .exactReals x) = Int.fract (toReal x) :=
  Surd.toReal_frac hx

theorem toReal_abs_exact {x : Surd} (hx : Surd.wf x) : toReal (abs .exactReals x) = |toReal x| := Surd.toReal_abs hx

theorem ltQ_exact {x : Surd} (hx : Surd.wf x) (q : Rat) : ltQ .exactReals x q = true ↔ toReal x < q :=
  Surd.ltRat_iff hx q

end Sys2Proof.Machine.Fmt
end

