-- ==== Sys2Proof/Laws/Memory.lean ====
section
/-! SUPPORT. The laws of the byte memory: read after write, every other address unchanged, and the canonical form
kept by every operation. -/

namespace Sys2Proof.Machine.Memory

theorem read_nil (a : Nat) : read [] a = unwritten := rfl

theorem read_cons (c : Host.Cell) (m : List Host.Cell) (a : Nat) :
    read (c :: m) a = if c.1 = a then c.2 else read m a := rfl

theorem read_append (m n : List Host.Cell) (a : Nat) (h : ∀ c ∈ m, c.1 ≠ a) : read (m ++ n) a = read n a := by
  induction m with
  | nil => rfl
  | cons c m ih =>
    have hc := h c (by simp)
    simp [read_cons, hc, ih fun d hd => h d (by simp [hd])]

theorem read_append_left (m n : List Host.Cell) (a : Nat) (h : ∀ c ∈ n, c.1 ≠ a) : read (m ++ n) a = read m a := by
  induction m with
  | nil => simpa using read_append n [] a h
  | cons c m ih => simp [read_cons, ih]

theorem read_filter (p : Nat → Bool) (m : List Host.Cell) (a : Nat) :
    read (m.filter (fun c => p c.1)) a = if p a then read m a else unwritten := by
  induction m with
  | nil => simp [read_nil]
  | cons c m ih =>
    by_cases hp : p c.1 <;> by_cases hc : c.1 = a <;> simp_all [read_cons]

theorem read_erase (m : List Host.Cell) (a b : Nat) :
    read (erase m a) b = if a = b then unwritten else read m b := by
  have := read_filter (fun k => decide (k ≠ a)) m b
  by_cases h : a = b
  · subst h; simpa [erase] using this
  · have h' : ¬ b = a := fun e => h e.symm
    simpa [erase, h, h'] using this

theorem read_insert (m : List Host.Cell) (a b : Nat) (v : Byte) (h : read m a = unwritten)
    (hm : ∀ c ∈ m, c.1 ≠ a) : read (insert m a v) b = if a = b then v else read m b := by
  induction m with
  | nil => simp [insert, read_cons, read_nil]
  | cons c m ih =>
    have hc := hm c (by simp)
    have ih := ih (by simpa [read_cons, hc] using h) fun d hd => hm d (by simp [hd])
    by_cases hlt : a < c.1
    · simp [insert, hlt, read_cons]
    · by_cases hcb : c.1 = b
      · have : a ≠ b := fun e => hc (hcb.trans e.symm)
        subst hcb
        simp [insert, hlt, read_cons, this]
      · simp [insert, hlt, read_cons, hcb, ih]

/-- A write is read back, and every other address reads as before. -/
theorem read_write (m : List Host.Cell) (a b : Nat) (v : Byte) :
    read (write m a v) b = if a = b then v else read m b := by
  unfold write
  split
  · next h => rw [read_erase]; split <;> simp_all
  · rw [read_insert (erase m a) a b v (by simp [read_erase]) (by simp [erase])]
    split
    · rfl
    · next hab => simp [read_erase, hab]

@[simp] theorem read_write_same (m : List Host.Cell) (a : Nat) (v : Byte) : read (write m a v) a = v := by
  simp [read_write]

theorem read_write_other (m : List Host.Cell) {a b : Nat} (v : Byte) (h : a ≠ b) :
    read (write m a v) b = read m b := by simp [read_write, h]

theorem erase_wf {m : List Host.Cell} (h : wf m) (a : Nat) : wf (erase m a) :=
  ⟨h.1.filter _, fun c hc => h.2 c (List.mem_of_mem_filter hc)⟩

theorem mem_insert {m : List Host.Cell} {a : Nat} {v : Byte} {c : Host.Cell} :
    c ∈ insert m a v ↔ c = (a, v) ∨ c ∈ m := by
  induction m with
  | nil => simp [insert]
  | cons d m ih =>
    by_cases h : a < d.1
    · simp [insert, h]
    · simp only [insert, h, if_false, List.mem_cons, ih]; tauto

theorem insert_wf {m : List Host.Cell} (h : wf m) {a : Nat} {v : Byte} (hv : v ≠ unwritten)
    (hm : ∀ c ∈ m, c.1 ≠ a) : wf (insert m a v) := by
  refine ⟨?_, fun c hc => (mem_insert.1 hc).elim (fun e => e ▸ hv) (h.2 c)⟩
  have hs := h.1
  clear h
  induction m with
  | nil => simp [insert]
  | cons d m ih =>
    have hd := hm d (by simp)
    rw [List.pairwise_cons] at hs
    by_cases hlt : a < d.1
    · simp only [insert, hlt, if_true]
      refine List.pairwise_cons.2 ⟨fun c hc => ?_, List.pairwise_cons.2 hs⟩
      rcases List.mem_cons.1 hc with rfl | hc
      · exact hlt
      · exact hlt.trans (hs.1 c hc)
    · simp only [insert, hlt, if_false]
      refine List.pairwise_cons.2 ⟨fun c hc => ?_, ih (fun c hc => hm c (by simp [hc])) hs.2⟩
      rcases mem_insert.1 hc with rfl | hc
      · show d.1 < a; omega
      · exact hs.1 c hc

/-- Writing keeps the canonical form. -/
theorem write_wf {m : List Host.Cell} (h : wf m) (a : Nat) (v : Byte) : wf (write m a v) := by
  unfold write
  split
  · exact erase_wf h a
  · next hv => exact insert_wf (erase_wf h a) hv (by simp [erase])

theorem mem_write {m : List Host.Cell} {a : Nat} {v : Byte} {c : Host.Cell} (h : c ∈ write m a v) :
    c.1 = a ∨ c ∈ m := by
  unfold write at h
  split at h
  · exact .inr (List.mem_of_mem_filter h)
  · rcases mem_insert.1 h with rfl | h
    · exact .inl rfl
    · exact .inr (List.mem_of_mem_filter h)

theorem read_run (lo n : Nat) (v : Byte) (a : Nat) :
    read ((List.range n).map (fun k => (lo + k, v))) a = if lo ≤ a ∧ a < lo + n then v else unwritten := by
  induction n with
  | zero => simp [read_nil]
  | succ n ih =>
    rw [List.range_succ, List.map_append]
    by_cases h : lo + n = a
    · rw [read_append]
      · simp [read_cons, h]; omega
      · intro c hc
        simp only [List.mem_map, List.mem_range] at hc
        obtain ⟨k, hk, rfl⟩ := hc
        show lo + k ≠ a; omega
    · rw [read_append_left _ _ _ (by simpa using h), ih]
      by_cases h1 : lo ≤ a ∧ a < lo + n
      · have : lo ≤ a ∧ a < lo + (n + 1) := by omega
        simp [h1, this]
      · have : ¬ (lo ≤ a ∧ a < lo + (n + 1)) := by omega
        simp [h1, this]

/-- A fill is read back on its range, and every other address reads as before. -/
theorem read_fill (m : List Host.Cell) (lo n : Nat) (v : Byte) (a : Nat) :
    read (fill m lo n v) a = if lo ≤ a ∧ a < lo + n then v else read m a := by
  have hlow := read_filter (fun k => decide (k < lo)) m a
  have hhigh := read_filter (fun k => decide (lo + n ≤ k)) m a
  simp only [decide_eq_true_eq] at hlow hhigh
  have hlowk : ∀ c ∈ m.filter (fun c => c.1 < lo), c.1 < lo := by simp
  have hhighk : ∀ c ∈ m.filter (fun c => lo + n ≤ c.1), lo + n ≤ c.1 := by simp
  have hrunk : ∀ c ∈ (if v = unwritten then ([] : List Host.Cell) else (List.range n).map (fun k => (lo + k, v))),
      lo ≤ c.1 ∧ c.1 < lo + n := by
    intro c hc
    split at hc
    · simp at hc
    · simp only [List.mem_map, List.mem_range] at hc
      obtain ⟨k, hk, rfl⟩ := hc
      exact ⟨Nat.le_add_right _ _, Nat.add_lt_add_left hk _⟩
  have hrun : read (if v = unwritten then ([] : List Host.Cell) else (List.range n).map (fun k => (lo + k, v))) a
      = if lo ≤ a ∧ a < lo + n then v else unwritten := by
    split
    · next h => simp [read_nil, h]
    · exact read_run lo n v a
  unfold fill
  by_cases h1 : a < lo
  · rw [read_append_left]
    · rw [hlow, if_pos h1, if_neg (by omega)]
    · intro c hc
      rcases List.mem_append.1 hc with hc | hc
      · have := hrunk c hc; omega
      · have := hhighk c hc; omega
  · rw [read_append]
    · by_cases h2 : a < lo + n
      · rw [read_append_left]
        · rw [hrun]
          by_cases h3 : lo ≤ a <;> simp [h2, h3]
          omega
        · intro c hc; have := hhighk c hc; omega
      · rw [read_append]
        · rw [hhigh, if_pos (by omega), if_neg (by omega)]
        · intro c hc; have := hrunk c hc; omega
    · intro c hc; have := hlowk c hc; omega

/-- Filling keeps the canonical form. -/
theorem fill_wf {m : List Host.Cell} (h : wf m) (lo n : Nat) (v : Byte) : wf (fill m lo n v) := by
  unfold fill
  constructor
  · refine List.pairwise_append.2 ⟨h.1.filter _, List.pairwise_append.2 ⟨?_, h.1.filter _, ?_⟩, ?_⟩
    · split
      · simp
      · refine List.pairwise_map.2 (List.pairwise_lt_range.imp ?_)
        intro a b hab; show lo + a < lo + b; omega
    · intro c hc d hd
      split at hc
      · simp at hc
      · simp only [List.mem_map, List.mem_range] at hc
        obtain ⟨k, hk, rfl⟩ := hc
        have := List.of_mem_filter hd
        simp only [decide_eq_true_eq] at this
        show lo + k < d.1; omega
    · intro c hc d hd
      have hc := List.of_mem_filter hc
      simp only [decide_eq_true_eq] at hc
      rcases List.mem_append.1 hd with hd | hd
      · split at hd
        · simp at hd
        · simp only [List.mem_map, List.mem_range] at hd
          obtain ⟨k, hk, rfl⟩ := hd
          show c.1 < lo + k; omega
      · have := List.of_mem_filter hd
        simp only [decide_eq_true_eq] at this
        omega
  · intro c hc
    rcases List.mem_append.1 hc with hc | hc
    · exact h.2 c (List.mem_of_mem_filter hc)
    rcases List.mem_append.1 hc with hc | hc
    · split at hc
      · simp at hc
      · next hv =>
        simp only [List.mem_map, List.mem_range] at hc
        obtain ⟨k, hk, rfl⟩ := hc
        exact hv
    · exact h.2 c (List.mem_of_mem_filter hc)

theorem mem_fill {m : List Host.Cell} {lo n : Nat} {v : Byte} {c : Host.Cell} (h : c ∈ fill m lo n v) :
    (lo ≤ c.1 ∧ c.1 < lo + n) ∨ c ∈ m := by
  unfold fill at h
  rcases List.mem_append.1 h with h | h
  · exact .inr (List.mem_of_mem_filter h)
  rcases List.mem_append.1 h with h | h
  · split at h
    · simp at h
    · simp only [List.mem_map, List.mem_range] at h
      obtain ⟨k, hk, rfl⟩ := h
      exact .inl ⟨Nat.le_add_right _ _, Nat.add_lt_add_left hk _⟩
  · exact .inr (List.mem_of_mem_filter h)

/-- A fill is the writes of its range one by one (40_rasterizer R172: "for every byte address"), as every address
reads it. -/
theorem read_fill_eq_writes (m : List Host.Cell) (lo n : Nat) (v : Byte) (a : Nat) :
    read (fill m lo n v) a = read ((List.range n).foldl (fun m k => write m (lo + k) v) m) a := by
  rw [read_fill]
  induction n with
  | zero => simp
  | succ n ih =>
    rw [List.range_succ, List.foldl_append]
    simp only [List.foldl_cons, List.foldl_nil]
    rw [read_write, ← ih]
    by_cases h1 : lo + n = a
    · simp [h1]; omega
    · by_cases h2 : lo ≤ a ∧ a < lo + n
      · have : lo ≤ a ∧ a < lo + (n + 1) := by omega
        simp [h1, h2, this]
      · have : ¬ (lo ≤ a ∧ a < lo + (n + 1)) := by omega
        simp [h1, h2, this]

/-- Canonical memories that read the same are the same list. -/
theorem ext_of_wf {m n : List Host.Cell} (hm : wf m) (hn : wf n) (h : ∀ a, read m a = read n a) : m = n := by
  have key : ∀ (m : List Host.Cell), wf m → ∀ c : Host.Cell, c ∈ m ↔ read m c.1 = c.2 ∧ c.2 ≠ unwritten := by
    intro m hm c
    induction m with
    | nil => simp only [read_nil, List.not_mem_nil, false_iff, not_and, not_not]; exact fun h => h.symm
    | cons d m ih =>
      have hs := List.pairwise_cons.1 hm.1
      have ih := ih ⟨hs.2, fun e he => hm.2 e (by simp [he])⟩
      rw [read_cons, List.mem_cons]
      by_cases hd : d.1 = c.1
      · simp only [hd, if_true]
        constructor
        · rintro (rfl | hc)
          · exact ⟨rfl, hm.2 _ (by simp)⟩
          · have := hs.1 c hc; omega
        · rintro ⟨h1, _⟩
          exact .inl (Prod.ext hd.symm h1.symm)
      · simp only [hd, if_false, ← ih]
        constructor
        · rintro (rfl | hc)
          · exact absurd rfl hd
          · exact hc
        · exact .inr
  have hmem : ∀ c, c ∈ m ↔ c ∈ n := fun c => by rw [key m hm, key n hn, h]
  have hpm : m.Nodup := hm.1.imp (fun {a b} hab e => by simp [e] at hab)
  have hpn : n.Nodup := hn.1.imp (fun {a b} hab e => by simp [e] at hab)
  have hperm : m.Perm n := (List.perm_ext_iff_of_nodup hpm hpn).2 hmem
  exact hperm.eq_of_pairwise (fun a b _ _ h1 h2 => by omega) hm.1 hn.1

end Sys2Proof.Machine.Memory
end

