-- ==== Sys2Proof/Laws/State.lean ====
section
/-! SUPPORT. What each named update of State leaves in each field. -/

namespace Sys2Proof.Machine

/-! ### `paint` -/

@[simp] theorem paint_params (s : State) (d : List Dot) : (paint s d).params = s.params := rfl
@[simp] theorem paint_drawPal (s : State) (d : List Dot) : (paint s d).drawPal = s.drawPal := rfl
@[simp] theorem paint_screenPal (s : State) (d : List Dot) : (paint s d).screenPal = s.screenPal := rfl
@[simp] theorem paint_clip (s : State) (d : List Dot) : (paint s d).clip = s.clip := rfl
@[simp] theorem paint_pen (s : State) (d : List Dot) : (paint s d).pen = s.pen := rfl
@[simp] theorem paint_cursorX (s : State) (d : List Dot) : (paint s d).cursorX = s.cursorX := rfl
@[simp] theorem paint_cursorY (s : State) (d : List Dot) : (paint s d).cursorY = s.cursorY := rfl
@[simp] theorem paint_cameraX (s : State) (d : List Dot) : (paint s d).cameraX = s.cameraX := rfl
@[simp] theorem paint_cameraY (s : State) (d : List Dot) : (paint s d).cameraY = s.cameraY := rfl
@[simp] theorem paint_anchorX (s : State) (d : List Dot) : (paint s d).anchorX = s.anchorX := rfl
@[simp] theorem paint_anchorY (s : State) (d : List Dot) : (paint s d).anchorY = s.anchorY := rfl
@[simp] theorem paint_fillp (s : State) (d : List Dot) : (paint s d).fillp = s.fillp := rfl
@[simp] theorem paint_fillpTrans (s : State) (d : List Dot) : (paint s d).fillpTrans = s.fillpTrans := rfl
@[simp] theorem paint_fillpMode (s : State) (d : List Dot) : (paint s d).fillpMode = s.fillpMode := rfl
@[simp] theorem paint_distort (s : State) (d : List Dot) : (paint s d).distort = s.distort := rfl
@[simp] theorem paint_mem (s : State) (d : List Dot) : (paint s d).mem = d.foldl (setPixel (drawEnv s)) s.mem := rfl
@[simp] theorem paint_ch (s : State) (d : List Dot) : (paint s d).ch = s.ch := rfl
@[simp] theorem paint_inbox (s : State) (d : List Dot) : (paint s d).inbox = s.inbox := rfl
@[simp] theorem paint_cmdOut (s : State) (d : List Dot) : (paint s d).cmdOut = s.cmdOut := rfl
@[simp] theorem paint_memOut (s : State) (d : List Dot) : (paint s d).memOut = s.memOut := rfl
@[simp] theorem paint_audOut (s : State) (d : List Dot) : (paint s d).audOut = s.audOut := rfl
@[simp] theorem paint_draws (s : State) (d : List Dot) : (paint s d).draws = s.draws := rfl

/-! ### `setArrayByte` -/

@[simp] theorem setArrayByte_params (s : State) (a : Nat) (v : Byte) : (setArrayByte s a v).params = s.params := rfl
@[simp] theorem setArrayByte_drawPal (s : State) (a : Nat) (v : Byte) : (setArrayByte s a v).drawPal = s.drawPal := rfl
@[simp] theorem setArrayByte_screenPal (s : State) (a : Nat) (v : Byte) : (setArrayByte s a v).screenPal = s.screenPal := rfl
@[simp] theorem setArrayByte_clip (s : State) (a : Nat) (v : Byte) : (setArrayByte s a v).clip = s.clip := rfl
@[simp] theorem setArrayByte_pen (s : State) (a : Nat) (v : Byte) : (setArrayByte s a v).pen = s.pen := rfl
@[simp] theorem setArrayByte_cursorX (s : State) (a : Nat) (v : Byte) : (setArrayByte s a v).cursorX = s.cursorX := rfl
@[simp] theorem setArrayByte_cursorY (s : State) (a : Nat) (v : Byte) : (setArrayByte s a v).cursorY = s.cursorY := rfl
@[simp] theorem setArrayByte_cameraX (s : State) (a : Nat) (v : Byte) : (setArrayByte s a v).cameraX = s.cameraX := rfl
@[simp] theorem setArrayByte_cameraY (s : State) (a : Nat) (v : Byte) : (setArrayByte s a v).cameraY = s.cameraY := rfl
@[simp] theorem setArrayByte_anchorX (s : State) (a : Nat) (v : Byte) : (setArrayByte s a v).anchorX = s.anchorX := rfl
@[simp] theorem setArrayByte_anchorY (s : State) (a : Nat) (v : Byte) : (setArrayByte s a v).anchorY = s.anchorY := rfl
@[simp] theorem setArrayByte_fillp (s : State) (a : Nat) (v : Byte) : (setArrayByte s a v).fillp = s.fillp := rfl
@[simp] theorem setArrayByte_fillpTrans (s : State) (a : Nat) (v : Byte) : (setArrayByte s a v).fillpTrans = s.fillpTrans := rfl
@[simp] theorem setArrayByte_fillpMode (s : State) (a : Nat) (v : Byte) : (setArrayByte s a v).fillpMode = s.fillpMode := rfl
@[simp] theorem setArrayByte_distort (s : State) (a : Nat) (v : Byte) : (setArrayByte s a v).distort = s.distort := rfl
@[simp] theorem setArrayByte_mem (s : State) (a : Nat) (v : Byte) : (setArrayByte s a v).mem = Memory.write s.mem (physAddr s.params a) v := rfl
@[simp] theorem setArrayByte_ch (s : State) (a : Nat) (v : Byte) : (setArrayByte s a v).ch = s.ch := rfl
@[simp] theorem setArrayByte_inbox (s : State) (a : Nat) (v : Byte) : (setArrayByte s a v).inbox = s.inbox := rfl
@[simp] theorem setArrayByte_cmdOut (s : State) (a : Nat) (v : Byte) : (setArrayByte s a v).cmdOut = s.cmdOut := rfl
@[simp] theorem setArrayByte_memOut (s : State) (a : Nat) (v : Byte) : (setArrayByte s a v).memOut = s.memOut := rfl
@[simp] theorem setArrayByte_audOut (s : State) (a : Nat) (v : Byte) : (setArrayByte s a v).audOut = s.audOut := rfl
@[simp] theorem setArrayByte_draws (s : State) (a : Nat) (v : Byte) : (setArrayByte s a v).draws = s.draws := rfl

/-! ### `sheetPut` -/

@[simp] theorem sheetPut_params (s : State) (x y : Nat) (n : Nibble) : (sheetPut s x y n).params = s.params := rfl
@[simp] theorem sheetPut_drawPal (s : State) (x y : Nat) (n : Nibble) : (sheetPut s x y n).drawPal = s.drawPal := rfl
@[simp] theorem sheetPut_screenPal (s : State) (x y : Nat) (n : Nibble) : (sheetPut s x y n).screenPal = s.screenPal := rfl
@[simp] theorem sheetPut_clip (s : State) (x y : Nat) (n : Nibble) : (sheetPut s x y n).clip = s.clip := rfl
@[simp] theorem sheetPut_pen (s : State) (x y : Nat) (n : Nibble) : (sheetPut s x y n).pen = s.pen := rfl
@[simp] theorem sheetPut_cursorX (s : State) (x y : Nat) (n : Nibble) : (sheetPut s x y n).cursorX = s.cursorX := rfl
@[simp] theorem sheetPut_cursorY (s : State) (x y : Nat) (n : Nibble) : (sheetPut s x y n).cursorY = s.cursorY := rfl
@[simp] theorem sheetPut_cameraX (s : State) (x y : Nat) (n : Nibble) : (sheetPut s x y n).cameraX = s.cameraX := rfl
@[simp] theorem sheetPut_cameraY (s : State) (x y : Nat) (n : Nibble) : (sheetPut s x y n).cameraY = s.cameraY := rfl
@[simp] theorem sheetPut_anchorX (s : State) (x y : Nat) (n : Nibble) : (sheetPut s x y n).anchorX = s.anchorX := rfl
@[simp] theorem sheetPut_anchorY (s : State) (x y : Nat) (n : Nibble) : (sheetPut s x y n).anchorY = s.anchorY := rfl
@[simp] theorem sheetPut_fillp (s : State) (x y : Nat) (n : Nibble) : (sheetPut s x y n).fillp = s.fillp := rfl
@[simp] theorem sheetPut_fillpTrans (s : State) (x y : Nat) (n : Nibble) : (sheetPut s x y n).fillpTrans = s.fillpTrans := rfl
@[simp] theorem sheetPut_fillpMode (s : State) (x y : Nat) (n : Nibble) : (sheetPut s x y n).fillpMode = s.fillpMode := rfl
@[simp] theorem sheetPut_distort (s : State) (x y : Nat) (n : Nibble) : (sheetPut s x y n).distort = s.distort := rfl
@[simp] theorem sheetPut_mem (s : State) (x y : Nat) (n : Nibble) : (sheetPut s x y n).mem = pixelPut s.mem sheetBase x y n := rfl
@[simp] theorem sheetPut_ch (s : State) (x y : Nat) (n : Nibble) : (sheetPut s x y n).ch = s.ch := rfl
@[simp] theorem sheetPut_inbox (s : State) (x y : Nat) (n : Nibble) : (sheetPut s x y n).inbox = s.inbox := rfl
@[simp] theorem sheetPut_cmdOut (s : State) (x y : Nat) (n : Nibble) : (sheetPut s x y n).cmdOut = s.cmdOut := rfl
@[simp] theorem sheetPut_memOut (s : State) (x y : Nat) (n : Nibble) : (sheetPut s x y n).memOut = s.memOut := rfl
@[simp] theorem sheetPut_audOut (s : State) (x y : Nat) (n : Nibble) : (sheetPut s x y n).audOut = s.audOut := rfl
@[simp] theorem sheetPut_draws (s : State) (x y : Nat) (n : Nibble) : (sheetPut s x y n).draws = s.draws := rfl

/-! ### `flagsPut` -/

@[simp] theorem flagsPut_params (s : State) (n : Nat) (v : Byte) : (flagsPut s n v).params = s.params := rfl
@[simp] theorem flagsPut_drawPal (s : State) (n : Nat) (v : Byte) : (flagsPut s n v).drawPal = s.drawPal := rfl
@[simp] theorem flagsPut_screenPal (s : State) (n : Nat) (v : Byte) : (flagsPut s n v).screenPal = s.screenPal := rfl
@[simp] theorem flagsPut_clip (s : State) (n : Nat) (v : Byte) : (flagsPut s n v).clip = s.clip := rfl
@[simp] theorem flagsPut_pen (s : State) (n : Nat) (v : Byte) : (flagsPut s n v).pen = s.pen := rfl
@[simp] theorem flagsPut_cursorX (s : State) (n : Nat) (v : Byte) : (flagsPut s n v).cursorX = s.cursorX := rfl
@[simp] theorem flagsPut_cursorY (s : State) (n : Nat) (v : Byte) : (flagsPut s n v).cursorY = s.cursorY := rfl
@[simp] theorem flagsPut_cameraX (s : State) (n : Nat) (v : Byte) : (flagsPut s n v).cameraX = s.cameraX := rfl
@[simp] theorem flagsPut_cameraY (s : State) (n : Nat) (v : Byte) : (flagsPut s n v).cameraY = s.cameraY := rfl
@[simp] theorem flagsPut_anchorX (s : State) (n : Nat) (v : Byte) : (flagsPut s n v).anchorX = s.anchorX := rfl
@[simp] theorem flagsPut_anchorY (s : State) (n : Nat) (v : Byte) : (flagsPut s n v).anchorY = s.anchorY := rfl
@[simp] theorem flagsPut_fillp (s : State) (n : Nat) (v : Byte) : (flagsPut s n v).fillp = s.fillp := rfl
@[simp] theorem flagsPut_fillpTrans (s : State) (n : Nat) (v : Byte) : (flagsPut s n v).fillpTrans = s.fillpTrans := rfl
@[simp] theorem flagsPut_fillpMode (s : State) (n : Nat) (v : Byte) : (flagsPut s n v).fillpMode = s.fillpMode := rfl
@[simp] theorem flagsPut_distort (s : State) (n : Nat) (v : Byte) : (flagsPut s n v).distort = s.distort := rfl
@[simp] theorem flagsPut_mem (s : State) (n : Nat) (v : Byte) : (flagsPut s n v).mem = Memory.write s.mem (physAddr s.params (flagsBase + n)) v := rfl
@[simp] theorem flagsPut_ch (s : State) (n : Nat) (v : Byte) : (flagsPut s n v).ch = s.ch := rfl
@[simp] theorem flagsPut_inbox (s : State) (n : Nat) (v : Byte) : (flagsPut s n v).inbox = s.inbox := rfl
@[simp] theorem flagsPut_cmdOut (s : State) (n : Nat) (v : Byte) : (flagsPut s n v).cmdOut = s.cmdOut := rfl
@[simp] theorem flagsPut_memOut (s : State) (n : Nat) (v : Byte) : (flagsPut s n v).memOut = s.memOut := rfl
@[simp] theorem flagsPut_audOut (s : State) (n : Nat) (v : Byte) : (flagsPut s n v).audOut = s.audOut := rfl
@[simp] theorem flagsPut_draws (s : State) (n : Nat) (v : Byte) : (flagsPut s n v).draws = s.draws := rfl

/-! ### `setTrans` -/

@[simp] theorem setTrans_params (s : State) (i : Fin 16) (v : Bool) : (setTrans s i v).params = s.params := rfl
@[simp] theorem setTrans_drawPal (s : State) (i : Fin 16) (v : Bool) : (setTrans s i v).drawPal = s.drawPal.set i.val (mkEntry v (entryColor s.drawPal[i])) i.isLt := rfl
@[simp] theorem setTrans_screenPal (s : State) (i : Fin 16) (v : Bool) : (setTrans s i v).screenPal = s.screenPal := rfl
@[simp] theorem setTrans_clip (s : State) (i : Fin 16) (v : Bool) : (setTrans s i v).clip = s.clip := rfl
@[simp] theorem setTrans_pen (s : State) (i : Fin 16) (v : Bool) : (setTrans s i v).pen = s.pen := rfl
@[simp] theorem setTrans_cursorX (s : State) (i : Fin 16) (v : Bool) : (setTrans s i v).cursorX = s.cursorX := rfl
@[simp] theorem setTrans_cursorY (s : State) (i : Fin 16) (v : Bool) : (setTrans s i v).cursorY = s.cursorY := rfl
@[simp] theorem setTrans_cameraX (s : State) (i : Fin 16) (v : Bool) : (setTrans s i v).cameraX = s.cameraX := rfl
@[simp] theorem setTrans_cameraY (s : State) (i : Fin 16) (v : Bool) : (setTrans s i v).cameraY = s.cameraY := rfl
@[simp] theorem setTrans_anchorX (s : State) (i : Fin 16) (v : Bool) : (setTrans s i v).anchorX = s.anchorX := rfl
@[simp] theorem setTrans_anchorY (s : State) (i : Fin 16) (v : Bool) : (setTrans s i v).anchorY = s.anchorY := rfl
@[simp] theorem setTrans_fillp (s : State) (i : Fin 16) (v : Bool) : (setTrans s i v).fillp = s.fillp := rfl
@[simp] theorem setTrans_fillpTrans (s : State) (i : Fin 16) (v : Bool) : (setTrans s i v).fillpTrans = s.fillpTrans := rfl
@[simp] theorem setTrans_fillpMode (s : State) (i : Fin 16) (v : Bool) : (setTrans s i v).fillpMode = s.fillpMode := rfl
@[simp] theorem setTrans_distort (s : State) (i : Fin 16) (v : Bool) : (setTrans s i v).distort = s.distort := rfl
@[simp] theorem setTrans_mem (s : State) (i : Fin 16) (v : Bool) : (setTrans s i v).mem = s.mem := rfl
@[simp] theorem setTrans_ch (s : State) (i : Fin 16) (v : Bool) : (setTrans s i v).ch = s.ch := rfl
@[simp] theorem setTrans_inbox (s : State) (i : Fin 16) (v : Bool) : (setTrans s i v).inbox = s.inbox := rfl
@[simp] theorem setTrans_cmdOut (s : State) (i : Fin 16) (v : Bool) : (setTrans s i v).cmdOut = s.cmdOut := rfl
@[simp] theorem setTrans_memOut (s : State) (i : Fin 16) (v : Bool) : (setTrans s i v).memOut = s.memOut := rfl
@[simp] theorem setTrans_audOut (s : State) (i : Fin 16) (v : Bool) : (setTrans s i v).audOut = s.audOut := rfl
@[simp] theorem setTrans_draws (s : State) (i : Fin 16) (v : Bool) : (setTrans s i v).draws = s.draws := rfl

/-! ### `setColor` -/

@[simp] theorem setColor_params (s : State) (i : Fin 16) (n : Nibble) : (setColor s i n).params = s.params := rfl
@[simp] theorem setColor_drawPal (s : State) (i : Fin 16) (n : Nibble) : (setColor s i n).drawPal = s.drawPal.set i.val (mkEntry (entryTrans s.drawPal[i]) n) i.isLt := rfl
@[simp] theorem setColor_screenPal (s : State) (i : Fin 16) (n : Nibble) : (setColor s i n).screenPal = s.screenPal := rfl
@[simp] theorem setColor_clip (s : State) (i : Fin 16) (n : Nibble) : (setColor s i n).clip = s.clip := rfl
@[simp] theorem setColor_pen (s : State) (i : Fin 16) (n : Nibble) : (setColor s i n).pen = s.pen := rfl
@[simp] theorem setColor_cursorX (s : State) (i : Fin 16) (n : Nibble) : (setColor s i n).cursorX = s.cursorX := rfl
@[simp] theorem setColor_cursorY (s : State) (i : Fin 16) (n : Nibble) : (setColor s i n).cursorY = s.cursorY := rfl
@[simp] theorem setColor_cameraX (s : State) (i : Fin 16) (n : Nibble) : (setColor s i n).cameraX = s.cameraX := rfl
@[simp] theorem setColor_cameraY (s : State) (i : Fin 16) (n : Nibble) : (setColor s i n).cameraY = s.cameraY := rfl
@[simp] theorem setColor_anchorX (s : State) (i : Fin 16) (n : Nibble) : (setColor s i n).anchorX = s.anchorX := rfl
@[simp] theorem setColor_anchorY (s : State) (i : Fin 16) (n : Nibble) : (setColor s i n).anchorY = s.anchorY := rfl
@[simp] theorem setColor_fillp (s : State) (i : Fin 16) (n : Nibble) : (setColor s i n).fillp = s.fillp := rfl
@[simp] theorem setColor_fillpTrans (s : State) (i : Fin 16) (n : Nibble) : (setColor s i n).fillpTrans = s.fillpTrans := rfl
@[simp] theorem setColor_fillpMode (s : State) (i : Fin 16) (n : Nibble) : (setColor s i n).fillpMode = s.fillpMode := rfl
@[simp] theorem setColor_distort (s : State) (i : Fin 16) (n : Nibble) : (setColor s i n).distort = s.distort := rfl
@[simp] theorem setColor_mem (s : State) (i : Fin 16) (n : Nibble) : (setColor s i n).mem = s.mem := rfl
@[simp] theorem setColor_ch (s : State) (i : Fin 16) (n : Nibble) : (setColor s i n).ch = s.ch := rfl
@[simp] theorem setColor_inbox (s : State) (i : Fin 16) (n : Nibble) : (setColor s i n).inbox = s.inbox := rfl
@[simp] theorem setColor_cmdOut (s : State) (i : Fin 16) (n : Nibble) : (setColor s i n).cmdOut = s.cmdOut := rfl
@[simp] theorem setColor_memOut (s : State) (i : Fin 16) (n : Nibble) : (setColor s i n).memOut = s.memOut := rfl
@[simp] theorem setColor_audOut (s : State) (i : Fin 16) (n : Nibble) : (setColor s i n).audOut = s.audOut := rfl
@[simp] theorem setColor_draws (s : State) (i : Fin 16) (n : Nibble) : (setColor s i n).draws = s.draws := rfl

/-! ### `updateCh` -/

@[simp] theorem updateCh_params (s : State) (c : Fin 4) (f : Channel → Channel) : (updateCh s c f).params = s.params := rfl
@[simp] theorem updateCh_drawPal (s : State) (c : Fin 4) (f : Channel → Channel) : (updateCh s c f).drawPal = s.drawPal := rfl
@[simp] theorem updateCh_screenPal (s : State) (c : Fin 4) (f : Channel → Channel) : (updateCh s c f).screenPal = s.screenPal := rfl
@[simp] theorem updateCh_clip (s : State) (c : Fin 4) (f : Channel → Channel) : (updateCh s c f).clip = s.clip := rfl
@[simp] theorem updateCh_pen (s : State) (c : Fin 4) (f : Channel → Channel) : (updateCh s c f).pen = s.pen := rfl
@[simp] theorem updateCh_cursorX (s : State) (c : Fin 4) (f : Channel → Channel) : (updateCh s c f).cursorX = s.cursorX := rfl
@[simp] theorem updateCh_cursorY (s : State) (c : Fin 4) (f : Channel → Channel) : (updateCh s c f).cursorY = s.cursorY := rfl
@[simp] theorem updateCh_cameraX (s : State) (c : Fin 4) (f : Channel → Channel) : (updateCh s c f).cameraX = s.cameraX := rfl
@[simp] theorem updateCh_cameraY (s : State) (c : Fin 4) (f : Channel → Channel) : (updateCh s c f).cameraY = s.cameraY := rfl
@[simp] theorem updateCh_anchorX (s : State) (c : Fin 4) (f : Channel → Channel) : (updateCh s c f).anchorX = s.anchorX := rfl
@[simp] theorem updateCh_anchorY (s : State) (c : Fin 4) (f : Channel → Channel) : (updateCh s c f).anchorY = s.anchorY := rfl
@[simp] theorem updateCh_fillp (s : State) (c : Fin 4) (f : Channel → Channel) : (updateCh s c f).fillp = s.fillp := rfl
@[simp] theorem updateCh_fillpTrans (s : State) (c : Fin 4) (f : Channel → Channel) : (updateCh s c f).fillpTrans = s.fillpTrans := rfl
@[simp] theorem updateCh_fillpMode (s : State) (c : Fin 4) (f : Channel → Channel) : (updateCh s c f).fillpMode = s.fillpMode := rfl
@[simp] theorem updateCh_distort (s : State) (c : Fin 4) (f : Channel → Channel) : (updateCh s c f).distort = s.distort := rfl
@[simp] theorem updateCh_mem (s : State) (c : Fin 4) (f : Channel → Channel) : (updateCh s c f).mem = s.mem := rfl
@[simp] theorem updateCh_ch (s : State) (c : Fin 4) (f : Channel → Channel) : (updateCh s c f).ch = s.ch.set c.val (f s.ch[c]) c.isLt := rfl
@[simp] theorem updateCh_inbox (s : State) (c : Fin 4) (f : Channel → Channel) : (updateCh s c f).inbox = s.inbox := rfl
@[simp] theorem updateCh_cmdOut (s : State) (c : Fin 4) (f : Channel → Channel) : (updateCh s c f).cmdOut = s.cmdOut := rfl
@[simp] theorem updateCh_memOut (s : State) (c : Fin 4) (f : Channel → Channel) : (updateCh s c f).memOut = s.memOut := rfl
@[simp] theorem updateCh_audOut (s : State) (c : Fin 4) (f : Channel → Channel) : (updateCh s c f).audOut = s.audOut := rfl
@[simp] theorem updateCh_draws (s : State) (c : Fin 4) (f : Channel → Channel) : (updateCh s c f).draws = s.draws := rfl

/-! ### `triggerCh` -/

@[simp] theorem triggerCh_params (s : State) (c : Fin 4) (id : Fin 64) (o : Int) : (triggerCh s c id o).params = s.params := rfl
@[simp] theorem triggerCh_drawPal (s : State) (c : Fin 4) (id : Fin 64) (o : Int) : (triggerCh s c id o).drawPal = s.drawPal := rfl
@[simp] theorem triggerCh_screenPal (s : State) (c : Fin 4) (id : Fin 64) (o : Int) : (triggerCh s c id o).screenPal = s.screenPal := rfl
@[simp] theorem triggerCh_clip (s : State) (c : Fin 4) (id : Fin 64) (o : Int) : (triggerCh s c id o).clip = s.clip := rfl
@[simp] theorem triggerCh_pen (s : State) (c : Fin 4) (id : Fin 64) (o : Int) : (triggerCh s c id o).pen = s.pen := rfl
@[simp] theorem triggerCh_cursorX (s : State) (c : Fin 4) (id : Fin 64) (o : Int) : (triggerCh s c id o).cursorX = s.cursorX := rfl
@[simp] theorem triggerCh_cursorY (s : State) (c : Fin 4) (id : Fin 64) (o : Int) : (triggerCh s c id o).cursorY = s.cursorY := rfl
@[simp] theorem triggerCh_cameraX (s : State) (c : Fin 4) (id : Fin 64) (o : Int) : (triggerCh s c id o).cameraX = s.cameraX := rfl
@[simp] theorem triggerCh_cameraY (s : State) (c : Fin 4) (id : Fin 64) (o : Int) : (triggerCh s c id o).cameraY = s.cameraY := rfl
@[simp] theorem triggerCh_anchorX (s : State) (c : Fin 4) (id : Fin 64) (o : Int) : (triggerCh s c id o).anchorX = s.anchorX := rfl
@[simp] theorem triggerCh_anchorY (s : State) (c : Fin 4) (id : Fin 64) (o : Int) : (triggerCh s c id o).anchorY = s.anchorY := rfl
@[simp] theorem triggerCh_fillp (s : State) (c : Fin 4) (id : Fin 64) (o : Int) : (triggerCh s c id o).fillp = s.fillp := rfl
@[simp] theorem triggerCh_fillpTrans (s : State) (c : Fin 4) (id : Fin 64) (o : Int) : (triggerCh s c id o).fillpTrans = s.fillpTrans := rfl
@[simp] theorem triggerCh_fillpMode (s : State) (c : Fin 4) (id : Fin 64) (o : Int) : (triggerCh s c id o).fillpMode = s.fillpMode := rfl
@[simp] theorem triggerCh_distort (s : State) (c : Fin 4) (id : Fin 64) (o : Int) : (triggerCh s c id o).distort = s.distort := rfl
@[simp] theorem triggerCh_mem (s : State) (c : Fin 4) (id : Fin 64) (o : Int) : (triggerCh s c id o).mem = s.mem := rfl
@[simp] theorem triggerCh_inbox (s : State) (c : Fin 4) (id : Fin 64) (o : Int) : (triggerCh s c id o).inbox = s.inbox := rfl
@[simp] theorem triggerCh_cmdOut (s : State) (c : Fin 4) (id : Fin 64) (o : Int) : (triggerCh s c id o).cmdOut = s.cmdOut := rfl
@[simp] theorem triggerCh_memOut (s : State) (c : Fin 4) (id : Fin 64) (o : Int) : (triggerCh s c id o).memOut = s.memOut := rfl
@[simp] theorem triggerCh_audOut (s : State) (c : Fin 4) (id : Fin 64) (o : Int) : (triggerCh s c id o).audOut = s.audOut := rfl
@[simp] theorem triggerCh_draws (s : State) (c : Fin 4) (id : Fin 64) (o : Int) : (triggerCh s c id o).draws = s.draws := rfl

/-! ### `respond` -/

@[simp] theorem respond_params (s : State) (ws : List Word) : (respond s ws).params = s.params := rfl
@[simp] theorem respond_drawPal (s : State) (ws : List Word) : (respond s ws).drawPal = s.drawPal := rfl
@[simp] theorem respond_screenPal (s : State) (ws : List Word) : (respond s ws).screenPal = s.screenPal := rfl
@[simp] theorem respond_clip (s : State) (ws : List Word) : (respond s ws).clip = s.clip := rfl
@[simp] theorem respond_pen (s : State) (ws : List Word) : (respond s ws).pen = s.pen := rfl
@[simp] theorem respond_cursorX (s : State) (ws : List Word) : (respond s ws).cursorX = s.cursorX := rfl
@[simp] theorem respond_cursorY (s : State) (ws : List Word) : (respond s ws).cursorY = s.cursorY := rfl
@[simp] theorem respond_cameraX (s : State) (ws : List Word) : (respond s ws).cameraX = s.cameraX := rfl
@[simp] theorem respond_cameraY (s : State) (ws : List Word) : (respond s ws).cameraY = s.cameraY := rfl
@[simp] theorem respond_anchorX (s : State) (ws : List Word) : (respond s ws).anchorX = s.anchorX := rfl
@[simp] theorem respond_anchorY (s : State) (ws : List Word) : (respond s ws).anchorY = s.anchorY := rfl
@[simp] theorem respond_fillp (s : State) (ws : List Word) : (respond s ws).fillp = s.fillp := rfl
@[simp] theorem respond_fillpTrans (s : State) (ws : List Word) : (respond s ws).fillpTrans = s.fillpTrans := rfl
@[simp] theorem respond_fillpMode (s : State) (ws : List Word) : (respond s ws).fillpMode = s.fillpMode := rfl
@[simp] theorem respond_distort (s : State) (ws : List Word) : (respond s ws).distort = s.distort := rfl
@[simp] theorem respond_mem (s : State) (ws : List Word) : (respond s ws).mem = s.mem := rfl
@[simp] theorem respond_ch (s : State) (ws : List Word) : (respond s ws).ch = s.ch := rfl
@[simp] theorem respond_inbox (s : State) (ws : List Word) : (respond s ws).inbox = s.inbox := rfl
@[simp] theorem respond_cmdOut (s : State) (ws : List Word) : (respond s ws).cmdOut = s.cmdOut ++ ws := rfl
@[simp] theorem respond_memOut (s : State) (ws : List Word) : (respond s ws).memOut = s.memOut := rfl
@[simp] theorem respond_audOut (s : State) (ws : List Word) : (respond s ws).audOut = s.audOut := rfl
@[simp] theorem respond_draws (s : State) (ws : List Word) : (respond s ws).draws = s.draws := rfl

/-! ### `respondMem` -/

@[simp] theorem respondMem_params (s : State) (w : Word) : (respondMem s w).params = s.params := rfl
@[simp] theorem respondMem_drawPal (s : State) (w : Word) : (respondMem s w).drawPal = s.drawPal := rfl
@[simp] theorem respondMem_screenPal (s : State) (w : Word) : (respondMem s w).screenPal = s.screenPal := rfl
@[simp] theorem respondMem_clip (s : State) (w : Word) : (respondMem s w).clip = s.clip := rfl
@[simp] theorem respondMem_pen (s : State) (w : Word) : (respondMem s w).pen = s.pen := rfl
@[simp] theorem respondMem_cursorX (s : State) (w : Word) : (respondMem s w).cursorX = s.cursorX := rfl
@[simp] theorem respondMem_cursorY (s : State) (w : Word) : (respondMem s w).cursorY = s.cursorY := rfl
@[simp] theorem respondMem_cameraX (s : State) (w : Word) : (respondMem s w).cameraX = s.cameraX := rfl
@[simp] theorem respondMem_cameraY (s : State) (w : Word) : (respondMem s w).cameraY = s.cameraY := rfl
@[simp] theorem respondMem_anchorX (s : State) (w : Word) : (respondMem s w).anchorX = s.anchorX := rfl
@[simp] theorem respondMem_anchorY (s : State) (w : Word) : (respondMem s w).anchorY = s.anchorY := rfl
@[simp] theorem respondMem_fillp (s : State) (w : Word) : (respondMem s w).fillp = s.fillp := rfl
@[simp] theorem respondMem_fillpTrans (s : State) (w : Word) : (respondMem s w).fillpTrans = s.fillpTrans := rfl
@[simp] theorem respondMem_fillpMode (s : State) (w : Word) : (respondMem s w).fillpMode = s.fillpMode := rfl
@[simp] theorem respondMem_distort (s : State) (w : Word) : (respondMem s w).distort = s.distort := rfl
@[simp] theorem respondMem_mem (s : State) (w : Word) : (respondMem s w).mem = s.mem := rfl
@[simp] theorem respondMem_ch (s : State) (w : Word) : (respondMem s w).ch = s.ch := rfl
@[simp] theorem respondMem_inbox (s : State) (w : Word) : (respondMem s w).inbox = s.inbox := rfl
@[simp] theorem respondMem_cmdOut (s : State) (w : Word) : (respondMem s w).cmdOut = s.cmdOut := rfl
@[simp] theorem respondMem_memOut (s : State) (w : Word) : (respondMem s w).memOut = s.memOut ++ [w] := rfl
@[simp] theorem respondMem_audOut (s : State) (w : Word) : (respondMem s w).audOut = s.audOut := rfl
@[simp] theorem respondMem_draws (s : State) (w : Word) : (respondMem s w).draws = s.draws := rfl

/-! ### `respondAud` -/

@[simp] theorem respondAud_params (s : State) (w : Word) : (respondAud s w).params = s.params := rfl
@[simp] theorem respondAud_drawPal (s : State) (w : Word) : (respondAud s w).drawPal = s.drawPal := rfl
@[simp] theorem respondAud_screenPal (s : State) (w : Word) : (respondAud s w).screenPal = s.screenPal := rfl
@[simp] theorem respondAud_clip (s : State) (w : Word) : (respondAud s w).clip = s.clip := rfl
@[simp] theorem respondAud_pen (s : State) (w : Word) : (respondAud s w).pen = s.pen := rfl
@[simp] theorem respondAud_cursorX (s : State) (w : Word) : (respondAud s w).cursorX = s.cursorX := rfl
@[simp] theorem respondAud_cursorY (s : State) (w : Word) : (respondAud s w).cursorY = s.cursorY := rfl
@[simp] theorem respondAud_cameraX (s : State) (w : Word) : (respondAud s w).cameraX = s.cameraX := rfl
@[simp] theorem respondAud_cameraY (s : State) (w : Word) : (respondAud s w).cameraY = s.cameraY := rfl
@[simp] theorem respondAud_anchorX (s : State) (w : Word) : (respondAud s w).anchorX = s.anchorX := rfl
@[simp] theorem respondAud_anchorY (s : State) (w : Word) : (respondAud s w).anchorY = s.anchorY := rfl
@[simp] theorem respondAud_fillp (s : State) (w : Word) : (respondAud s w).fillp = s.fillp := rfl
@[simp] theorem respondAud_fillpTrans (s : State) (w : Word) : (respondAud s w).fillpTrans = s.fillpTrans := rfl
@[simp] theorem respondAud_fillpMode (s : State) (w : Word) : (respondAud s w).fillpMode = s.fillpMode := rfl
@[simp] theorem respondAud_distort (s : State) (w : Word) : (respondAud s w).distort = s.distort := rfl
@[simp] theorem respondAud_mem (s : State) (w : Word) : (respondAud s w).mem = s.mem := rfl
@[simp] theorem respondAud_ch (s : State) (w : Word) : (respondAud s w).ch = s.ch := rfl
@[simp] theorem respondAud_inbox (s : State) (w : Word) : (respondAud s w).inbox = s.inbox := rfl
@[simp] theorem respondAud_cmdOut (s : State) (w : Word) : (respondAud s w).cmdOut = s.cmdOut := rfl
@[simp] theorem respondAud_memOut (s : State) (w : Word) : (respondAud s w).memOut = s.memOut := rfl
@[simp] theorem respondAud_audOut (s : State) (w : Word) : (respondAud s w).audOut = s.audOut ++ [w] := rfl
@[simp] theorem respondAud_draws (s : State) (w : Word) : (respondAud s w).draws = s.draws := rfl

/-! ### `arrive` -/

@[simp] theorem arrive_params (s : State) (ts : List Transfer) : (s.arrive ts).params = s.params := rfl
@[simp] theorem arrive_drawPal (s : State) (ts : List Transfer) : (s.arrive ts).drawPal = s.drawPal := rfl
@[simp] theorem arrive_screenPal (s : State) (ts : List Transfer) : (s.arrive ts).screenPal = s.screenPal := rfl
@[simp] theorem arrive_clip (s : State) (ts : List Transfer) : (s.arrive ts).clip = s.clip := rfl
@[simp] theorem arrive_pen (s : State) (ts : List Transfer) : (s.arrive ts).pen = s.pen := rfl
@[simp] theorem arrive_cursorX (s : State) (ts : List Transfer) : (s.arrive ts).cursorX = s.cursorX := rfl
@[simp] theorem arrive_cursorY (s : State) (ts : List Transfer) : (s.arrive ts).cursorY = s.cursorY := rfl
@[simp] theorem arrive_cameraX (s : State) (ts : List Transfer) : (s.arrive ts).cameraX = s.cameraX := rfl
@[simp] theorem arrive_cameraY (s : State) (ts : List Transfer) : (s.arrive ts).cameraY = s.cameraY := rfl
@[simp] theorem arrive_anchorX (s : State) (ts : List Transfer) : (s.arrive ts).anchorX = s.anchorX := rfl
@[simp] theorem arrive_anchorY (s : State) (ts : List Transfer) : (s.arrive ts).anchorY = s.anchorY := rfl
@[simp] theorem arrive_fillp (s : State) (ts : List Transfer) : (s.arrive ts).fillp = s.fillp := rfl
@[simp] theorem arrive_fillpTrans (s : State) (ts : List Transfer) : (s.arrive ts).fillpTrans = s.fillpTrans := rfl
@[simp] theorem arrive_fillpMode (s : State) (ts : List Transfer) : (s.arrive ts).fillpMode = s.fillpMode := rfl
@[simp] theorem arrive_distort (s : State) (ts : List Transfer) : (s.arrive ts).distort = s.distort := rfl
@[simp] theorem arrive_mem (s : State) (ts : List Transfer) : (s.arrive ts).mem = s.mem := rfl
@[simp] theorem arrive_ch (s : State) (ts : List Transfer) : (s.arrive ts).ch = s.ch := rfl
@[simp] theorem arrive_inbox (s : State) (ts : List Transfer) : (s.arrive ts).inbox = s.inbox ++ ts := rfl
@[simp] theorem arrive_cmdOut (s : State) (ts : List Transfer) : (s.arrive ts).cmdOut = s.cmdOut := rfl
@[simp] theorem arrive_memOut (s : State) (ts : List Transfer) : (s.arrive ts).memOut = s.memOut := rfl
@[simp] theorem arrive_audOut (s : State) (ts : List Transfer) : (s.arrive ts).audOut = s.audOut := rfl
@[simp] theorem arrive_draws (s : State) (ts : List Transfer) : (s.arrive ts).draws = s.draws := rfl

/-! ### `loadColor`: it writes PEN, FILLP and FILLP_TRANS only -/

@[simp] theorem loadColor_params (c : Arg) (s : State) : (loadColor c s).params = s.params := by
  unfold loadColor; repeat' (first | rfl | split)
@[simp] theorem loadColor_drawPal (c : Arg) (s : State) : (loadColor c s).drawPal = s.drawPal := by
  unfold loadColor; repeat' (first | rfl | split)
@[simp] theorem loadColor_screenPal (c : Arg) (s : State) : (loadColor c s).screenPal = s.screenPal := by
  unfold loadColor; repeat' (first | rfl | split)
@[simp] theorem loadColor_clip (c : Arg) (s : State) : (loadColor c s).clip = s.clip := by
  unfold loadColor; repeat' (first | rfl | split)
@[simp] theorem loadColor_cursorX (c : Arg) (s : State) : (loadColor c s).cursorX = s.cursorX := by
  unfold loadColor; repeat' (first | rfl | split)
@[simp] theorem loadColor_cursorY (c : Arg) (s : State) : (loadColor c s).cursorY = s.cursorY := by
  unfold loadColor; repeat' (first | rfl | split)
@[simp] theorem loadColor_cameraX (c : Arg) (s : State) : (loadColor c s).cameraX = s.cameraX := by
  unfold loadColor; repeat' (first | rfl | split)
@[simp] theorem loadColor_cameraY (c : Arg) (s : State) : (loadColor c s).cameraY = s.cameraY := by
  unfold loadColor; repeat' (first | rfl | split)
@[simp] theorem loadColor_anchorX (c : Arg) (s : State) : (loadColor c s).anchorX = s.anchorX := by
  unfold loadColor; repeat' (first | rfl | split)
@[simp] theorem loadColor_anchorY (c : Arg) (s : State) : (loadColor c s).anchorY = s.anchorY := by
  unfold loadColor; repeat' (first | rfl | split)
@[simp] theorem loadColor_fillpMode (c : Arg) (s : State) : (loadColor c s).fillpMode = s.fillpMode := by
  unfold loadColor; repeat' (first | rfl | split)
@[simp] theorem loadColor_distort (c : Arg) (s : State) : (loadColor c s).distort = s.distort := by
  unfold loadColor; repeat' (first | rfl | split)
@[simp] theorem loadColor_mem (c : Arg) (s : State) : (loadColor c s).mem = s.mem := by
  unfold loadColor; repeat' (first | rfl | split)
@[simp] theorem loadColor_ch (c : Arg) (s : State) : (loadColor c s).ch = s.ch := by
  unfold loadColor; repeat' (first | rfl | split)
@[simp] theorem loadColor_inbox (c : Arg) (s : State) : (loadColor c s).inbox = s.inbox := by
  unfold loadColor; repeat' (first | rfl | split)
@[simp] theorem loadColor_cmdOut (c : Arg) (s : State) : (loadColor c s).cmdOut = s.cmdOut := by
  unfold loadColor; repeat' (first | rfl | split)
@[simp] theorem loadColor_memOut (c : Arg) (s : State) : (loadColor c s).memOut = s.memOut := by
  unfold loadColor; repeat' (first | rfl | split)
@[simp] theorem loadColor_audOut (c : Arg) (s : State) : (loadColor c s).audOut = s.audOut := by
  unfold loadColor; repeat' (first | rfl | split)
@[simp] theorem loadColor_draws (c : Arg) (s : State) : (loadColor c s).draws = s.draws := by
  unfold loadColor; repeat' (first | rfl | split)

/-! ### `writeReg` and `memWrite`: what no memory-port write changes -/

@[simp] theorem writeReg_params (s : State) (k : Nat) (v : Byte) : (writeReg s k v).params = s.params := by
  unfold writeReg; split
  · rfl
  split
  · rfl
  split <;> rfl
@[simp] theorem writeReg_mem (s : State) (k : Nat) (v : Byte) : (writeReg s k v).mem = s.mem := by
  unfold writeReg; split
  · rfl
  split
  · rfl
  split <;> rfl
@[simp] theorem writeReg_ch (s : State) (k : Nat) (v : Byte) : (writeReg s k v).ch = s.ch := by
  unfold writeReg; split
  · rfl
  split
  · rfl
  split <;> rfl
@[simp] theorem writeReg_inbox (s : State) (k : Nat) (v : Byte) : (writeReg s k v).inbox = s.inbox := by
  unfold writeReg; split
  · rfl
  split
  · rfl
  split <;> rfl
@[simp] theorem writeReg_cmdOut (s : State) (k : Nat) (v : Byte) : (writeReg s k v).cmdOut = s.cmdOut := by
  unfold writeReg; split
  · rfl
  split
  · rfl
  split <;> rfl
@[simp] theorem writeReg_memOut (s : State) (k : Nat) (v : Byte) : (writeReg s k v).memOut = s.memOut := by
  unfold writeReg; split
  · rfl
  split
  · rfl
  split <;> rfl
@[simp] theorem writeReg_audOut (s : State) (k : Nat) (v : Byte) : (writeReg s k v).audOut = s.audOut := by
  unfold writeReg; split
  · rfl
  split
  · rfl
  split <;> rfl
@[simp] theorem writeReg_draws (s : State) (k : Nat) (v : Byte) : (writeReg s k v).draws = s.draws := by
  unfold writeReg; split
  · rfl
  split
  · rfl
  split <;> rfl
@[simp] theorem memWrite_params (s : State) (a : Nat) (v : Byte) : (memWrite s a v).params = s.params := by
  unfold memWrite; split
  · rfl
  split
  · simp
  · rfl
@[simp] theorem memWrite_ch (s : State) (a : Nat) (v : Byte) : (memWrite s a v).ch = s.ch := by
  unfold memWrite; split
  · rfl
  split
  · simp
  · rfl
@[simp] theorem memWrite_inbox (s : State) (a : Nat) (v : Byte) : (memWrite s a v).inbox = s.inbox := by
  unfold memWrite; split
  · rfl
  split
  · simp
  · rfl
@[simp] theorem memWrite_cmdOut (s : State) (a : Nat) (v : Byte) : (memWrite s a v).cmdOut = s.cmdOut := by
  unfold memWrite; split
  · rfl
  split
  · simp
  · rfl
@[simp] theorem memWrite_memOut (s : State) (a : Nat) (v : Byte) : (memWrite s a v).memOut = s.memOut := by
  unfold memWrite; split
  · rfl
  split
  · simp
  · rfl
@[simp] theorem memWrite_audOut (s : State) (a : Nat) (v : Byte) : (memWrite s a v).audOut = s.audOut := by
  unfold memWrite; split
  · rfl
  split
  · simp
  · rfl
@[simp] theorem memWrite_draws (s : State) (a : Nat) (v : Byte) : (memWrite s a v).draws = s.draws := by
  unfold memWrite; split
  · rfl
  split
  · simp
  · rfl

end Sys2Proof.Machine
end

