-- ==== Sys2Proof/Laws/Ops.lean ====
section
/-! SUPPORT. One lemma for each shared operation that says what it does: the arrays, the register window, the memory port,
the channels, the ranges of a loop and the primitives of 00_scope R12. -/

namespace Sys2Proof.Machine

/-! ### Arrays -/

/-- The byte of an array address after a write of another, or the same, array address. -/
theorem arrayByte_setArrayByte (s : State) (a b : Nat) (v : Byte) :
    arrayByte (setArrayByte s a v) b = if physAddr s.params a = physAddr s.params b then v else arrayByte s b :=
  Memory.read_write _ _ _ _

theorem physAddr_of_not_shared {p : Params} (h : p.mapSheetShared = false) (a : Nat) : physAddr p a = a := by
  simp [physAddr, h]

theorem physAddr_of_lt {p : Params} {a : Nat} (h : a < 0x3000) : physAddr p a = a := by
  rw [physAddr, if_neg]; simp; omega

theorem physAddr_of_ge {p : Params} {a : Nat} (h : 0x4000 ≤ a) : physAddr p a = a := by
  rw [physAddr, if_neg]; simp; omega

theorem physAddr_alias {p : Params} (h : p.mapSheetShared = true) {a : Nat} (h1 : 0x3000 ≤ a) (h2 : a < 0x4000) :
    physAddr p a = a - 0x2000 := by
  rw [physAddr, if_pos]; simp [h, h1, h2]

theorem isArray_iff {a : Nat} : isArray a = true ↔ a < 0x5200 ∨ (0x6000 ≤ a ∧ a < 0x8000) := by simp [isArray]

theorem isRegister_iff {a : Nat} : isRegister a = true ↔ 0x5F00 ≤ a ∧ a < 0x5F80 := by simp [isRegister]

/-- The storage of an array address is an array address, and is its own storage. -/
theorem physAddr_isArray {p : Params} {a : Nat} (h : isArray a = true) :
    isArray (physAddr p a) = true ∧ physAddr p (physAddr p a) = physAddr p a := by
  rw [isArray_iff] at *
  unfold physAddr
  split
  · next hc =>
    simp at hc
    refine ⟨by omega, ?_⟩
    rw [if_neg]; simp; omega
  · exact ⟨h, rfl⟩

theorem setArrayByte_wf {s : State} (h : Memory.wf s.mem) (a : Nat) (v : Byte) : Memory.wf (setArrayByte s a v).mem :=
  Memory.write_wf h _ _

/-! ### The memory port -/

theorem memRead_array {s : State} {a : Nat} (h : isArray a = true) : memRead s a = arrayByte s a := by
  rw [memRead, if_pos h]

theorem memRead_register {s : State} {a : Nat} (h : isRegister a = true) : memRead s a = readReg s (a - regBase) := by
  rw [memRead, if_neg, if_pos h]
  rw [isRegister_iff] at h
  rw [isArray_iff]; omega

theorem memRead_reserved {s : State} {a : Nat} (h : isArray a = false) (h' : isRegister a = false) : memRead s a = 0 := by
  simp [memRead, h, h']

theorem memWrite_array {s : State} {a : Nat} (h : isArray a = true) (v : Byte) : memWrite s a v = setArrayByte s a v := by
  rw [memWrite, if_pos h]

theorem memWrite_register {s : State} {a : Nat} (h : isRegister a = true) (v : Byte) :
    memWrite s a v = writeReg s (a - regBase) v := by
  rw [memWrite, if_neg, if_pos h]
  rw [isRegister_iff] at h
  rw [isArray_iff]; omega

theorem memWrite_reserved {s : State} {a : Nat} (h : isArray a = false) (h' : isRegister a = false) (v : Byte) :
    memWrite s a v = s := by
  simp [memWrite, h, h']

theorem memWrite_wf {s : State} (h : Memory.wf s.mem) (a : Nat) (v : Byte) : Memory.wf (memWrite s a v).mem := by
  unfold memWrite
  split
  · exact setArrayByte_wf h a v
  · split
    · simpa using h
    · exact h

/-! ### The register window, address by address -/

theorem readReg_drawPal (s : State) {k : Nat} (h : k < 16) : readReg s k = (s.drawPal[k]).setWidth 8 := by
  rw [readReg, dif_pos h]

theorem readReg_screenPal (s : State) {k : Nat} (h : k < 16) : readReg s (16 + k) = s.screenPal[k] := by
  rw [readReg, dif_neg (by omega), dif_pos (by omega)]
  congr 1; omega

theorem readReg_clipX1 (s : State) : readReg s 0x20 = BitVec.ofNat 8 s.clip.x1.val := rfl
theorem readReg_clipY1 (s : State) : readReg s 0x21 = BitVec.ofNat 8 s.clip.y1.val := rfl
theorem readReg_clipX2 (s : State) : readReg s 0x22 = BitVec.ofNat 8 s.clip.x2.val := rfl
theorem readReg_clipY2 (s : State) : readReg s 0x23 = BitVec.ofNat 8 s.clip.y2.val := rfl
theorem readReg_pen (s : State) : readReg s 0x24 = s.pen := rfl
theorem readReg_cursorX (s : State) : readReg s 0x25 = s.cursorX := rfl
theorem readReg_cursorY (s : State) : readReg s 0x26 = s.cursorY := rfl
theorem readReg_cameraX_lo (s : State) : readReg s 0x28 = loByte s.cameraX := rfl
theorem readReg_cameraX_hi (s : State) : readReg s 0x29 = hiByte s.cameraX := rfl
theorem readReg_cameraY_lo (s : State) : readReg s 0x2A = loByte s.cameraY := rfl
theorem readReg_cameraY_hi (s : State) : readReg s 0x2B = hiByte s.cameraY := rfl
theorem readReg_anchorX_lo (s : State) : readReg s 0x2C = loByte s.anchorX := rfl
theorem readReg_anchorX_hi (s : State) : readReg s 0x2D = hiByte s.anchorX := rfl
theorem readReg_anchorY_lo (s : State) : readReg s 0x2E = loByte s.anchorY := rfl
theorem readReg_anchorY_hi (s : State) : readReg s 0x2F = hiByte s.anchorY := rfl
theorem readReg_fillp_lo (s : State) : readReg s 0x30 = loByte s.fillp := rfl
theorem readReg_fillp_hi (s : State) : readReg s 0x31 = hiByte s.fillp := rfl
theorem readReg_fillpCtl (s : State) : readReg s 0x32 = fillpCtl s := rfl
theorem readReg_distort (s : State) : readReg s 0x33 = s.distort.setWidth 8 := rfl

theorem readReg_chsfx (s : State) (c : Fin 4) : readReg s (0x34 + c.val) = chsfxByte s.ch[c] := by
  fin_cases c <;> rfl

/-- The two bytes of a 16-bit register (20_memory R73). -/
theorem loByte_withLo (h : Half) (v : Byte) : loByte (withLo h v) = v :=
  BitVec.extractLsb'_append_eq_right (a := hiByte h) (b := v)

theorem hiByte_withLo (h : Half) (v : Byte) : hiByte (withLo h v) = hiByte h :=
  BitVec.extractLsb'_append_eq_left (a := hiByte h) (b := v)

theorem loByte_withHi (h : Half) (v : Byte) : loByte (withHi h v) = loByte h :=
  BitVec.extractLsb'_append_eq_right (a := v) (b := loByte h)

theorem hiByte_withHi (h : Half) (v : Byte) : hiByte (withHi h v) = v :=
  BitVec.extractLsb'_append_eq_left (a := v) (b := loByte h)

/-! ### Palettes and channels -/

theorem entryColor_mkEntry (t : Bool) (n : Nibble) : entryColor (mkEntry t n) = n :=
  BitVec.extractLsb'_append_eq_right (a := BitVec.ofBool t) (b := n)

theorem entryTrans_mkEntry (t : Bool) (n : Nibble) : entryTrans (mkEntry t n) = t := by
  cases t <;> revert n <;> decide

theorem updateCh_same (s : State) (c : Fin 4) (f : Channel → Channel) : (updateCh s c f).ch[c] = f s.ch[c] := by
  simp [updateCh]

theorem updateCh_other (s : State) {c d : Fin 4} (f : Channel → Channel) (h : d ≠ c) : (updateCh s c f).ch[d] = s.ch[d] := by
  have : c.val ≠ d.val := fun e => h (Fin.ext e.symm)
  simp [updateCh, this]

theorem triggerCh_get (s : State) (c d : Fin 4) (id : Fin 64) (o : Int) : (triggerCh s c id o).ch[d] =
    if d = c then startedCh id o else if s.ch[d].sfx = some id then s.ch[d].idle else s.ch[d] := by
  simp [triggerCh]

/-! ### Loops and primitives -/

theorem mem_rangeIncl {a b x : Int} : x ∈ rangeIncl a b ↔ a ≤ x ∧ x ≤ b := by
  unfold rangeIncl
  simp only [List.mem_map, List.mem_range]
  constructor
  · rintro ⟨k, hk, rfl⟩; omega
  · rintro ⟨h1, h2⟩; exact ⟨(x - a).toNat, by omega, by omega⟩

theorem mem_upTo {n x : Int} : x ∈ upTo n ↔ 0 ≤ x ∧ x < n := by
  rw [upTo, mem_rangeIncl]; omega

/-- Both loops run in rising order. -/
theorem rangeIncl_sorted (a b : Int) : (rangeIncl a b).Pairwise (· < ·) := by
  unfold rangeIncl
  rw [List.pairwise_map]
  exact List.pairwise_lt_range.imp (by intro x y h; omega)

theorem mod4_eq_emod (v : Int) : mod4 v = v % 4 := by unfold mod4 fdiv; omega

/-- `wrap16` is the congruent value in int16 (00_scope R12). -/
theorem wrap16_spec (v : Int) : -32768 ≤ wrap16 v ∧ wrap16 v ≤ 32767 ∧ (wrap16 v - v) % 65536 = 0 := by
  unfold wrap16
  rw [BitVec.toInt_ofInt, Int.bmod]
  split <;> omega

theorem wrap16_of_int16 {v : Int} (h1 : -32768 ≤ v) (h2 : v ≤ 32767) : wrap16 v = v := by
  have := wrap16_spec v; omega

theorem int16_bounds (w : Word) : -32768 ≤ int16 w ∧ int16 w ≤ 32767 := by
  have h1 := BitVec.le_toInt (w.extractLsb' 16 16)
  have h2 := BitVec.toInt_lt (x := w.extractLsb' 16 16)
  unfold int16; norm_num at h1 h2 ⊢; omega

/-- An SSET that stores: with a colour, or without one under the reading of R213. -/
theorem execSset_stores {c : Arg} {s : State} (h : c ≠ none ∨ s.params.ssetNoColour = .storesPen) (x y : Arg) :
    execSset x y c s = .next (ssetResolved x y c s) := by
  unfold execSset
  rw [if_neg]
  rintro ⟨hc, hp⟩
  rcases h with h | h
  · exact h hc
  · rw [h] at hp; cases hp

/-- An SSET without a colour under the reading of R311. -/
theorem execSset_noChange {s : State} (h : s.params.ssetNoColour = .noChange) (x y : Arg) :
    execSset x y none s = .next s := if_pos ⟨rfl, h⟩

end Sys2Proof.Machine
end

