-- ==== Sys2Proof/Laws/Paint.lean ====
section
/-! SUPPORT. What the pixel operations do, pixel by pixel: `pixelPut` (20_memory R72), `setPixel` (40_rasterizer R142)
and `paint`, whose effect on one pixel is that of the last of its dots that hits the pixel. -/

namespace Sys2Proof.Machine

/-! ### One pixel of a packed array -/

theorem lo_nibble (a b : Nibble) : ((a ++ b : Byte).extractLsb' 0 4 : Nibble) = b :=
  BitVec.extractLsb'_append_eq_right (a := a) (b := b)

theorem hi_nibble (a b : Nibble) : ((a ++ b : Byte).extractLsb' 4 4 : Nibble) = a :=
  BitVec.extractLsb'_append_eq_left (a := a) (b := b)

theorem nibbleAt_withNibble_same {x x' : Nat} (h : x % 2 = x' % 2) (b : Byte) (n : Nibble) :
    nibbleAt x' (withNibble x b n) = n := by
  unfold nibbleAt withNibble
  rcases Nat.mod_two_eq_zero_or_one x with hx | hx <;> rw [← h, hx]
  · exact lo_nibble _ n
  · exact hi_nibble n _

theorem nibbleAt_withNibble_other {x x' : Nat} (h : x % 2 ≠ x' % 2) (b : Byte) (n : Nibble) :
    nibbleAt x' (withNibble x b n) = nibbleAt x' b := by
  have h' : x' % 2 = 1 - x % 2 := by omega
  unfold nibbleAt withNibble
  rcases Nat.mod_two_eq_zero_or_one x with hx | hx <;> rw [h', hx]
  · exact hi_nibble _ n
  · exact lo_nibble n _

theorem pixelAddr_inj {base x y x' y' : Nat} (hx : x < 128) (hx' : x' < 128) :
    pixelAddr base x y = pixelAddr base x' y' ↔ x / 2 = x' / 2 ∧ y = y' := by
  unfold pixelAddr; omega

theorem pixelAddr_mem {base x y : Nat} (hx : x < 128) (hy : y < 128) :
    base ≤ pixelAddr base x y ∧ pixelAddr base x y < base + 8192 := by
  unfold pixelAddr; omega

/-- A pixel write changes only its own nibble. -/
theorem pixelGet_pixelPut (m : List Host.Cell) {base x y x' y' : Nat} (n : Nibble) (hx : x < 128) (hx' : x' < 128) :
    pixelGet (pixelPut m base x y n) base x' y' = if x = x' ∧ y = y' then n else pixelGet m base x' y' := by
  unfold pixelGet pixelPut
  rw [Memory.read_write]
  by_cases ha : pixelAddr base x y = pixelAddr base x' y'
  · rw [if_pos ha, ha]
    obtain ⟨h1, h2⟩ := (pixelAddr_inj hx hx').1 ha
    by_cases hp : x % 2 = x' % 2
    · rw [nibbleAt_withNibble_same hp, if_pos ⟨by omega, h2⟩]
    · rw [nibbleAt_withNibble_other hp, if_neg (by omega)]
  · rw [if_neg ha, if_neg]
    rintro ⟨rfl, rfl⟩; exact ha rfl

theorem read_pixelPut (m : List Host.Cell) {base x y a : Nat} (n : Nibble) (hx : x < 128) (hy : y < 128)
    (ha : ¬(base ≤ a ∧ a < base + 8192)) : Memory.read (pixelPut m base x y n) a = Memory.read m a := by
  unfold pixelPut
  rw [Memory.read_write, if_neg]
  rintro rfl; exact ha (pixelAddr_mem hx hy)

theorem pixelPut_wf {m : List Host.Cell} (h : Memory.wf m) (base x y : Nat) (n : Nibble) :
    Memory.wf (pixelPut m base x y n) := Memory.write_wf h _ _

theorem mem_pixelPut {m : List Host.Cell} {base x y : Nat} {n : Nibble} {c : Host.Cell}
    (h : c ∈ pixelPut m base x y n) (hx : x < 128) (hy : y < 128) :
    c ∈ m ∨ (base ≤ c.1 ∧ c.1 < base + 8192) := by
  rcases Memory.mem_write h with h | h
  · exact Or.inr (by rw [h]; exact pixelAddr_mem hx hy)
  · exact Or.inl h

/-! ### One dot -/

theorem Clip.inside_iff {c : Clip} {x y : Int} : c.inside x y = true ↔
    ((c.x1.val : Int) ≤ x ∧ x < (c.x2.val : Int)) ∧ (c.y1.val : Int) ≤ y ∧ y < (c.y2.val : Int) := by
  simp [Clip.inside, and_assoc]

/-- A pixel inside the clip rectangle is on the frame (10_state R36). -/
theorem Clip.inside_frame {c : Clip} {x y : Int} (h : c.inside x y = true) : (0 ≤ x ∧ x < 128) ∧ 0 ≤ y ∧ y < 128 := by
  obtain ⟨⟨h1, h2⟩, h3, h4⟩ := Clip.inside_iff.1 h
  have := c.x2.isLt; have := c.y2.isLt
  omega

theorem dotColor_inside {e : DrawEnv} {d : Dot} {n : Nibble} (h : dotColor e d = some n) :
    e.clip.inside d.x d.y = true := by
  unfold dotColor at h
  split at h
  · simp at h
  · next hc => simpa using hc

/-- What a dot writes at the pixel (x, y), if it writes there. -/
def hit (e : DrawEnv) (x y : Int) (d : Dot) : Option Nibble := if d.x = x ∧ d.y = y then dotColor e d else none

theorem pixelGet_setPixel (e : DrawEnv) (m : List Host.Cell) (d : Dot) {x y : Nat} (hx : x < 128) :
    pixelGet (setPixel e m d) fbBase x y = (hit e x y d).getD (pixelGet m fbBase x y) := by
  unfold setPixel hit
  cases h : dotColor e d with
  | none => simp
  | some n =>
    obtain ⟨⟨h1, h2⟩, h3, h4⟩ := Clip.inside_frame (dotColor_inside h)
    simp only
    rw [pixelGet_pixelPut m n (by omega) hx]
    by_cases hc : d.x = x ∧ d.y = y
    · rw [if_pos (by omega), if_pos hc]; rfl
    · rw [if_neg (by omega), if_neg hc]; rfl

theorem read_setPixel (e : DrawEnv) (m : List Host.Cell) (d : Dot) {a : Nat}
    (ha : ¬(fbBase ≤ a ∧ a < fbBase + 8192)) : Memory.read (setPixel e m d) a = Memory.read m a := by
  unfold setPixel
  split
  · next h =>
    obtain ⟨⟨h1, h2⟩, h3, h4⟩ := Clip.inside_frame (dotColor_inside h)
    exact read_pixelPut m _ (by omega) (by omega) ha
  · rfl

theorem setPixel_wf {e : DrawEnv} {m : List Host.Cell} (h : Memory.wf m) (d : Dot) : Memory.wf (setPixel e m d) := by
  unfold setPixel
  split
  · exact pixelPut_wf h _ _ _ _
  · exact h

theorem mem_setPixel {e : DrawEnv} {m : List Host.Cell} {d : Dot} {c : Host.Cell} (h : c ∈ setPixel e m d) :
    c ∈ m ∨ (fbBase ≤ c.1 ∧ c.1 < fbBase + 8192) := by
  unfold setPixel at h
  split at h
  · next hd =>
    obtain ⟨⟨h1, h2⟩, h3, h4⟩ := Clip.inside_frame (dotColor_inside hd)
    exact mem_pixelPut h (by omega) (by omega)
  · exact Or.inl h

/-! ### A list of dots -/

/-- The effect of `paint` on one pixel: that of the last dot that writes there. -/
theorem fbGet_paint (s : State) (dots : List Dot) {x y : Nat} (hx : x < 128) :
    fbGet (paint s dots) x y = ((dots.filterMap (hit (drawEnv s) x y)).getLast?).getD (fbGet s x y) := by
  unfold fbGet paint
  generalize drawEnv s = e
  simp only
  induction dots using List.reverseRecOn with
  | nil => rfl
  | append_singleton ds d ih =>
    rw [List.foldl_append, List.foldl_cons, List.foldl_nil, pixelGet_setPixel _ _ _ hx, ih, List.filterMap_append]
    cases h : hit e x y d with
    | none => simp [h]
    | some n => simp [h]

/-- `paint` changes no byte outside the framebuffer. -/
theorem read_paint (s : State) (dots : List Dot) {a : Nat} (ha : ¬(fbBase ≤ a ∧ a < fbBase + 8192)) :
    Memory.read (paint s dots).mem a = Memory.read s.mem a := by
  rw [paint_mem]
  generalize drawEnv s = e
  generalize s.mem = m
  induction dots generalizing m with
  | nil => rfl
  | cons d ds ih => rw [List.foldl_cons, ih, read_setPixel _ _ _ ha]

theorem paint_wf {s : State} (h : Memory.wf s.mem) (dots : List Dot) : Memory.wf (paint s dots).mem := by
  rw [paint_mem]
  generalize drawEnv s = e
  generalize s.mem = m at h
  induction dots generalizing m with
  | nil => exact h
  | cons d ds ih => exact ih _ (setPixel_wf h d)

theorem mem_paint {s : State} {dots : List Dot} {c : Host.Cell} (h : c ∈ (paint s dots).mem) :
    c ∈ s.mem ∨ (fbBase ≤ c.1 ∧ c.1 < fbBase + 8192) := by
  rw [paint_mem] at h
  generalize drawEnv s = e at h
  generalize s.mem = m at h ⊢
  induction dots generalizing m with
  | nil => exact Or.inl h
  | cons d ds ih =>
    rcases ih _ h with h | h
    · exact mem_setPixel h
    · exact Or.inr h

/-- Dots of one colour value: a pixel is drawn when some dot stands on it, and the order of the dots does not
matter (00_scope R15). -/
theorem fbGet_paint_uniform (s : State) (dots : List Dot) (cb : ColorBits) (hcb : ∀ d ∈ dots, d.cb = cb) {x y : Nat}
    (hx : x < 128) : fbGet (paint s dots) x y =
      if (∃ d ∈ dots, d.x = x ∧ d.y = y) then (dotColor (drawEnv s) ⟨x, y, cb⟩).getD (fbGet s x y)
      else fbGet s x y := by
  have key : ∀ ds : List Dot, (∀ d ∈ ds, d.cb = cb) → (ds.filterMap (hit (drawEnv s) x y)).getLast? =
      if (∃ d ∈ ds, d.x = x ∧ d.y = y) then dotColor (drawEnv s) ⟨x, y, cb⟩ else none := by
    intro ds
    induction ds using List.reverseRecOn with
    | nil => simp
    | append_singleton ds d ih =>
      intro h
      have ih := ih fun u hu => h u (by simp [hu])
      have hd : d.cb = cb := h d (by simp)
      rw [List.filterMap_append, List.getLast?_append, ih]
      by_cases hc : d.x = x ∧ d.y = y
      · have hde : d = ⟨x, y, cb⟩ := by cases d; simp_all
        rw [if_pos (⟨d, by simp, hc⟩ : ∃ u ∈ ds ++ [d], u.x = (x : Int) ∧ u.y = (y : Int))]
        have hh : hit (drawEnv s) x y d = dotColor (drawEnv s) ⟨x, y, cb⟩ := by rw [hit, if_pos hc, hde]
        cases hn : dotColor (drawEnv s) ⟨x, y, cb⟩ with
        | none => simp [hh, hn]
        | some n => simp [hh, hn]
      · have hh : hit (drawEnv s) x y d = none := by rw [hit, if_neg hc]
        have he : (∃ u ∈ ds ++ [d], u.x = (x : Int) ∧ u.y = (y : Int)) ↔ ∃ u ∈ ds, u.x = (x : Int) ∧ u.y = (y : Int) := by
          constructor
          · rintro ⟨u, hu, hxy⟩
            rcases List.mem_append.1 hu with hu | hu
            · exact ⟨u, hu, hxy⟩
            · rw [List.mem_singleton] at hu; subst hu; exact absurd hxy hc
          · rintro ⟨u, hu, hxy⟩; exact ⟨u, by simp [hu], hxy⟩
        simp only [he]
        simp [hh]
  rw [fbGet_paint s dots hx, key dots hcb]
  split <;> rfl

end Sys2Proof.Machine
end

