-- ==== Sys2Proof/Laws/PerInstr.lean ====
section
/-! SUPPORT. The family of per-instruction statements: how many words an instruction is sent as (30_encoding R100, R101,
R103, R104). -/

namespace Sys2Proof.Laws.PacketShape

/-- One word, and for a command one more for each present slot. -/
def Statement (i : Instr) : Prop := (encode i).length = 1 + (i.slots.filter Option.isSome).length

theorem encodeCommand_length (op : Byte) (slots : List Arg) :
    (encodeCommand op slots).length = 1 + (slots.filter Option.isSome).length := by
  rw [encodeCommand, List.length_cons, List.reduceOption_length_eq, Nat.add_comm]

theorem nop : Statement .nop := encodeCommand_length _ _
theorem pset (a b c : Arg) : Statement (.pset a b c) := encodeCommand_length _ _
theorem pget (a b : Arg) : Statement (.pget a b) := encodeCommand_length _ _
theorem line (a b c d e : Arg) : Statement (.line a b c d e) := encodeCommand_length _ _
theorem hline (a b c d : Arg) : Statement (.hline a b c d) := encodeCommand_length _ _
theorem vline (a b c d : Arg) : Statement (.vline a b c d) := encodeCommand_length _ _
theorem circ (a b c d : Arg) : Statement (.circ a b c d) := encodeCommand_length _ _
theorem circfill (a b c d : Arg) : Statement (.circfill a b c d) := encodeCommand_length _ _
theorem clip (a b c d : Arg) : Statement (.clip a b c d) := encodeCommand_length _ _
theorem cls (a : Arg) : Statement (.cls a) := encodeCommand_length _ _
theorem camera (a b : Arg) : Statement (.camera a b) := encodeCommand_length _ _
theorem spr (a b c d e f g : Arg) : Statement (.spr a b c d e f g) := encodeCommand_length _ _
theorem sspr (a b c d e f g h i j : Arg) : Statement (.sspr a b c d e f g h i j) := encodeCommand_length _ _
theorem map (a b c d e f g : Arg) : Statement (.map a b c d e f g) := encodeCommand_length _ _
theorem mget (a b : Arg) : Statement (.mget a b) := encodeCommand_length _ _
theorem mset (a b c : Arg) : Statement (.mset a b c) := encodeCommand_length _ _
theorem sget (a b : Arg) : Statement (.sget a b) := encodeCommand_length _ _
theorem sset (a b c : Arg) : Statement (.sset a b c) := encodeCommand_length _ _
theorem fget (a b : Arg) : Statement (.fget a b) := encodeCommand_length _ _
theorem fset (a b c : Arg) : Statement (.fset a b c) := encodeCommand_length _ _
theorem pal (a b c : Arg) : Statement (.pal a b c) := encodeCommand_length _ _
theorem palt (a b : Arg) : Statement (.palt a b) := encodeCommand_length _ _
theorem sfx (a b c : Arg) : Statement (.sfx a b c) := encodeCommand_length _ _
theorem memr (a : Nat) : Statement (.memr a) := rfl
theorem memw (a : Nat) (v : Byte) : Statement (.memw a v) := rfl
theorem sample (a : Nat) : Statement (.sample a) := rfl

end Sys2Proof.Laws.PacketShape
end

