-- ==== Sys2Proof/Laws/Round.lean ====
section
/-! SUPPORT. The rounding to binary32 (`Surd.round32`): it keeps the sign, its results are binary32 magnitudes
(`IsMag32`), and it never passes one (`roundMag32_le`). -/

namespace Sys2Proof.Machine.Surd

theorem roundEven_ge {x : Surd} : floor x ≤ roundEven x := by
  unfold roundEven
  dsimp only
  repeat' split
  all_goals omega

theorem roundEven_le {x : Surd} : roundEven x ≤ floor x + 1 := by
  unfold roundEven
  dsimp only
  repeat' split
  all_goals omega

/-- Rounding does not pass an integer. -/
theorem roundEven_le_int {x : Surd} (hx : wf x) {m : ℤ} (h : toReal x ≤ m) : roundEven x ≤ m := by
  rcases lt_or_eq_of_le h with h | h
  · have : floor x < m := by rw [floor_eq hx]; exact_mod_cast (Int.floor_lt.2 h)
    exact roundEven_le.trans (by omega)
  · have hf : floor x = m := by rw [floor_eq hx, h, Int.floor_intCast]
    have hd : toReal (sub (frac x) (ofRat (1 / 2))) = -1 / 2 := by
      rw [toReal_sub, toReal_frac hx, h, toReal_ofRat]; norm_num
    have hw : wf (sub (frac x) (ofRat (1 / 2))) := sub_wf (frac_wf hx) (ofRat_wf _)
    have hne : sub (frac x) (ofRat (1 / 2)) ≠ [] := fun e => by rw [e] at hd; norm_num at hd
    have hlt : floor (sub (frac x) (ofRat (1 / 2))) < 0 := by rw [floor_neg_iff hw, hd]; norm_num
    unfold roundEven
    dsimp only
    rw [if_neg hne, if_pos hlt, hf]

/-- A binary32 magnitude: n · 2^e / 2^149 with n ≤ 2^24. -/
def IsMag32 (q : ℚ) : Prop := ∃ n e : ℕ, n ≤ 2 ^ 24 ∧ q = n * 2 ^ e / 2 ^ 149

/-- The scale `roundMag32` works at. -/
def magShift (x : Surd) : ℕ := Nat.log2 (floor (scale (2 ^ 149 : ℕ) x)).toNat - 23

theorem roundMag32_eq (x : Surd) : roundMag32 x =
    (roundEven (scale ((2 ^ 149 : ℕ) / (2 ^ magShift x : ℕ)) x) : ℚ) * 2 ^ magShift x / 2 ^ 149 := by
  unfold roundMag32 magShift; push_cast; rfl

theorem toReal_scaled (x : Surd) (sh : ℕ) :
    toReal (scale ((2 ^ 149 : ℕ) / (2 ^ sh : ℕ)) x) * 2 ^ sh = 2 ^ 149 * toReal x := by
  rw [toReal_scale]; push_cast; field_simp; norm_num; ring

/-- The scaled value has at most 24 bits, and exactly 24 when the scale is above 0. -/
theorem magShift_spec {x : Surd} (hx : wf x) (h0 : 0 ≤ toReal x) :
    2 ^ 149 * toReal x < 2 ^ 24 * 2 ^ magShift x ∧ (0 < magShift x → 2 ^ 23 * 2 ^ magShift x ≤ 2 ^ 149 * toReal x) := by
  have hw : wf (scale (2 ^ 149 : ℕ) x) := scale_wf _ hx
  have ht : toReal (scale (2 ^ 149 : ℕ) x) = 2 ^ 149 * toReal x := by rw [toReal_scale]; norm_num
  have hfl : floor (scale (2 ^ 149 : ℕ) x) = ⌊2 ^ 149 * toReal x⌋ := by rw [floor_eq hw, ht]
  set y : ℝ := 2 ^ 149 * toReal x with hy
  have hy0 : 0 ≤ y := by positivity
  have hn0 : 0 ≤ ⌊y⌋ := Int.floor_nonneg.2 hy0
  obtain ⟨n, hn⟩ : ∃ n : ℕ, ⌊y⌋ = n := ⟨⌊y⌋.toNat, (Int.toNat_of_nonneg hn0).symm⟩
  have hms : magShift x = Nat.log2 n - 23 := by unfold magShift; rw [hfl, hn, Int.toNat_natCast]
  have hlt : y < (n : ℝ) + 1 := by have := Int.lt_floor_add_one y; rw [hn] at this; exact_mod_cast this
  have hge : (n : ℝ) ≤ y := by have := Int.floor_le y; rw [hn] at this; exact_mod_cast this
  constructor
  · have h1 : n < 2 ^ (Nat.log2 n + 1) := Nat.lt_log2_self
    have h2 : 2 ^ (Nat.log2 n + 1) ≤ 2 ^ (24 + magShift x) := Nat.pow_le_pow_right (by norm_num) (by omega)
    have h3 : n + 1 ≤ 2 ^ (24 + magShift x) := by omega
    have h4 : (n : ℝ) + 1 ≤ 2 ^ 24 * 2 ^ magShift x := by rw [← pow_add]; exact_mod_cast h3
    linarith
  · intro hpos
    have hn1 : n ≠ 0 := by rintro rfl; simp at hms; omega
    have h1 : 2 ^ Nat.log2 n ≤ n := Nat.log2_self_le hn1
    have h2 : 23 + magShift x = Nat.log2 n := by omega
    have h3 : (2 : ℝ) ^ 23 * 2 ^ magShift x ≤ n := by rw [← pow_add, h2]; exact_mod_cast h1
    linarith

theorem scaled_wf {x : Surd} (hx : wf x) (sh : ℕ) : wf (scale ((2 ^ 149 : ℕ) / (2 ^ sh : ℕ)) x) := scale_wf _ hx

theorem scaled_nonneg {x : Surd} (h0 : 0 ≤ toReal x) (sh : ℕ) :
    0 ≤ toReal (scale ((2 ^ 149 : ℕ) / (2 ^ sh : ℕ)) x) := by
  rw [toReal_scale]; push_cast; positivity

theorem roundMag32_nonneg {x : Surd} (hx : wf x) (h0 : 0 ≤ toReal x) : 0 ≤ roundMag32 x := by
  rw [roundMag32_eq]
  have : 0 ≤ roundEven (scale ((2 ^ 149 : ℕ) / (2 ^ magShift x : ℕ)) x) :=
    le_trans (by rw [floor_eq (scaled_wf hx _)]; exact Int.floor_nonneg.2 (scaled_nonneg h0 _)) roundEven_ge
  have : (0 : ℚ) ≤ roundEven (scale ((2 ^ 149 : ℕ) / (2 ^ magShift x : ℕ)) x) := by exact_mod_cast this
  positivity

theorem roundMag32_isMag32 {x : Surd} (hx : wf x) (h0 : 0 ≤ toReal x) : IsMag32 (roundMag32 x) := by
  have hle : roundEven (scale ((2 ^ 149 : ℕ) / (2 ^ magShift x : ℕ)) x) ≤ 2 ^ 24 := by
    have h1 := (magShift_spec hx h0).1
    rw [← toReal_scaled x (magShift x)] at h1
    have h2 : (0 : ℝ) < 2 ^ magShift x := by positivity
    have h3 := lt_of_mul_lt_mul_right h1 h2.le
    exact roundEven_le_int (scaled_wf hx _) (h3.le.trans (by norm_num))
  have hge : 0 ≤ roundEven (scale ((2 ^ 149 : ℕ) / (2 ^ magShift x : ℕ)) x) :=
    le_trans (by rw [floor_eq (scaled_wf hx _)]; exact Int.floor_nonneg.2 (scaled_nonneg h0 _)) roundEven_ge
  refine ⟨(roundEven (scale ((2 ^ 149 : ℕ) / (2 ^ magShift x : ℕ)) x)).toNat, magShift x, by omega, ?_⟩
  rw [roundMag32_eq]
  congr 2
  exact_mod_cast (Int.toNat_of_nonneg hge).symm

/-- Rounding does not pass a binary32 magnitude. -/
theorem roundMag32_le {x : Surd} (hx : wf x) (h0 : 0 ≤ toReal x) {q : ℚ} (hq : IsMag32 q) (h : toReal x ≤ q) :
    roundMag32 x ≤ q := by
  obtain ⟨n, e, hn, rfl⟩ := hq
  set sh := magShift x with hsh
  obtain ⟨-, hlow⟩ := magShift_spec hx h0
  have hqr : 2 ^ 149 * toReal x ≤ (n : ℝ) * 2 ^ e := by
    push_cast at h
    rw [le_div_iff₀ (by positivity)] at h
    linarith
  have hK : (0 : ℝ) < 2 ^ sh := by positivity
  obtain ⟨m, hm⟩ : ∃ m : ℕ, n * 2 ^ e = m * 2 ^ sh := by
    rcases le_or_gt sh e with hse | hse
    · exact ⟨n * 2 ^ (e - sh), by rw [mul_assoc, ← pow_add, Nat.sub_add_cancel hse]⟩
    · have h1 := hlow (by omega)
      have h2 : 2 ^ 23 * 2 ^ sh ≤ n * 2 ^ e := by exact_mod_cast h1.trans hqr
      have h3 : n * 2 ^ e ≤ 2 ^ 23 * 2 ^ sh := by
        calc n * 2 ^ e ≤ 2 ^ 24 * 2 ^ e := Nat.mul_le_mul_right _ hn
          _ = 2 ^ 23 * 2 ^ (e + 1) := by ring
          _ ≤ 2 ^ 23 * 2 ^ sh := Nat.mul_le_mul_left _ (Nat.pow_le_pow_right (by norm_num) hse)
      exact ⟨2 ^ 23, le_antisymm h3 h2⟩
  have hmr : (n : ℝ) * 2 ^ e = m * 2 ^ sh := by exact_mod_cast hm
  have hle : roundEven (scale ((2 ^ 149 : ℕ) / (2 ^ sh : ℕ)) x) ≤ (m : ℤ) := by
    refine roundEven_le_int (scaled_wf hx _) ?_
    rw [hmr, ← toReal_scaled x sh] at hqr
    exact (le_of_mul_le_mul_right hqr hK).trans (le_of_eq (by simp))
  rw [roundMag32_eq, ← hsh]
  have hmq : (n : ℚ) * 2 ^ e = m * 2 ^ sh := by exact_mod_cast hm
  rw [hmq]
  have : (roundEven (scale ((2 ^ 149 : ℕ) / (2 ^ sh : ℕ)) x) : ℚ) ≤ m := by exact_mod_cast hle
  gcongr

theorem round32_of_nonneg {x : Surd} (hx : wf x) (h0 : 0 ≤ toReal x) : round32 x = roundMag32 x := by
  rw [round32, if_neg]
  rw [floor_neg_iff hx]; exact not_lt.2 h0

theorem round32_of_neg {x : Surd} (hx : wf x) (h0 : toReal x < 0) : round32 x = -roundMag32 (neg x) := by
  rw [round32, if_pos]
  rw [floor_neg_iff hx]; exact h0

theorem round32_nonneg {x : Surd} (hx : wf x) (h0 : 0 ≤ toReal x) : 0 ≤ round32 x := by
  rw [round32_of_nonneg hx h0]; exact roundMag32_nonneg hx h0

/-- Rounding keeps a magnitude below a binary32 magnitude. -/
theorem abs_round32_le {x : Surd} (hx : wf x) {q : ℚ} (hq : IsMag32 q) (h : |toReal x| ≤ q) : |round32 x| ≤ q := by
  rcases le_or_gt 0 (toReal x) with h0 | h0
  · rw [round32_of_nonneg hx h0, abs_of_nonneg (roundMag32_nonneg hx h0)]
    exact roundMag32_le hx h0 hq (by rwa [abs_of_nonneg h0] at h)
  · have hn : 0 ≤ toReal (neg x) := by rw [toReal_neg]; linarith
    rw [round32_of_neg hx h0, abs_neg, abs_of_nonneg (roundMag32_nonneg (neg_wf hx) hn)]
    exact roundMag32_le (neg_wf hx) hn hq (by rwa [toReal_neg, ← abs_of_neg h0])

end Sys2Proof.Machine.Surd

namespace Sys2Proof.Machine.Fmt

/-- A rational result of either format keeps its sign. -/
theorem rndQ_nonneg (m : AudioReal) {q : Rat} (h : 0 ≤ q) : 0 ≤ rndQ m q := by
  cases m with
  | exactReals => exact h
  | binary32 => exact Surd.round32_nonneg (Surd.ofRat_wf q) (by rw [Surd.toReal_ofRat]; exact_mod_cast h)

/-- A result of either format keeps its sign. -/
theorem toReal_rnd_nonneg (m : AudioReal) {x : Surd} (hx : Surd.wf x) (h : 0 ≤ Surd.toReal x) :
    0 ≤ Surd.toReal (rnd m x) := by
  cases m with
  | exactReals => exact h
  | binary32 =>
    rw [rnd, Surd.toReal_ofRat]
    exact_mod_cast Surd.round32_nonneg hx h

end Sys2Proof.Machine.Fmt
end

