-- ==== Sys2Proof/Machine/Pseudo.lean ====
section
/-! DEFINITION. The assembler's argument words and the pseudo-instructions of 30_encoding R112, R114: each is its
expansion into transactions, and none is an instruction of its own. Where an expansion reads a byte b first, b is an
argument here: the host computes the written byte from the MEMR response. -/

namespace Sys2Proof.Machine.Pseudo

/-- An integer literal v: the word v << 16 (30_encoding R112). -/
def lit (v : Int) : Arg := some (resultInt v)

/-- `COLOR v`. -/
def color (v : Byte) : List Instr := [.memw 0x5F24 v]

/-- The MEMR of `FILLP` and `FILLPMODE`. -/
def fillpRead : Instr := .memr 0x5F32

/-- `FILLP p, t`, before its read: the two bytes of the mask. -/
def fillpMask (p : Half) : List Instr := [.memw 0x5F30 (p.extractLsb' 0 8), .memw 0x5F31 (p.extractLsb' 8 8)]

/-- `FILLP p, t`, after its read answered b. -/
def fillpTrans (b : Byte) (t : Bool) : Instr := .memw 0x5F32 ((b &&& 0xFE#8) ||| (if t then 1#8 else 0#8))

/-- `FILLPMODE m`, after its read answered b. -/
def fillpMode (b : Byte) (m : Bool) : Instr := .memw 0x5F32 ((b &&& 0xFD#8) ||| (if m then 2#8 else 0#8))

/-- `DISTORT m`. -/
def distort (m : Byte) : List Instr := [.memw 0x5F33 (m &&& 0x0F#8)]

/-- `RECT x0, y0, x1, y1, c`. -/
def rect (x0 y0 x1 y1 c : Arg) : List Instr :=
  [.hline x0 x1 y0 c, .hline x0 x1 y1 c, .vline x0 y0 y1 c, .vline x1 y0 y1 c]

/-- `RECTFILL x0, y0, x1, y1, c` for integer coordinates. -/
def rectfill (x0 y0 x1 y1 : Int) (c : Arg) : List Instr :=
  (rangeIncl (min y0 y1) (max y0 y1)).map (fun y => .hline (lit x0) (lit x1) (lit y) c)

end Sys2Proof.Machine.Pseudo
end

