-- ==== Sys2Proof/Machine/Assembler.lean ====
section
/-! DEFINITION. The assembler syntax of 30_encoding R112 and the pseudo-instructions of R114 as text: one line, as a
list of characters, gives the transactions it stands for. The block does not see it: it is how a program is written
down. -/

namespace Sys2Proof.Machine.Asm

/-- The parts of a line between the characters `sep`. -/
def splitOn (sep : Char) : List Char → List (List Char)
  | [] => [[]]
  | c :: cs =>
    if c = sep then [] :: splitOn sep cs
    else
      match splitOn sep cs with
      | [] => [[c]]
      | p :: ps => (c :: p) :: ps

/-- A part without the blanks around it. -/
def trim (cs : List Char) : List Char := ((cs.dropWhile (fun c => c = ' ')).reverse.dropWhile (fun c => c = ' ')).reverse

/-- The value of a digit in a base up to 16. -/
def digit (base : Nat) (c : Char) : Option Nat :=
  let n := c.toNat
  let d := if 48 ≤ n ∧ n ≤ 57 then n - 48 else if 65 ≤ n ∧ n ≤ 70 then n - 55 else if 97 ≤ n ∧ n ≤ 102 then n - 87 else 16
  if d < base then some d else none

/-- A number from its digits; `none` without digits. -/
def digits (base : Nat) (cs : List Char) : Option Nat :=
  if cs = [] then none
  else cs.foldl (fun (acc : Option Nat) c => acc.bind (fun n => (digit base c).map (fun d => n * base + d))) (some 0)

/-- A decimal or `0x` hexadecimal number. -/
def unsigned : List Char → Option Nat
  | '0' :: 'x' :: ds => digits 16 ds
  | ds => digits 10 ds

/-- A number with an optional minus sign. -/
def number : List Char → Option Int
  | '-' :: ds => (unsigned ds).map (fun n => -(n : Int))
  | ds => (unsigned ds).map (fun n => (n : Int))

/-- An argument: `_` is absent, `true` and `false` are the boolean words, `#0x` with eight digits is a raw word, and an
integer v is the word v << 16 (30_encoding R112). -/
def slot : List Char → Option Arg
  | ['_'] => some none
  | ['t', 'r', 'u', 'e'] => some (some (resultBool true))
  | ['f', 'a', 'l', 's', 'e'] => some (some (resultBool false))
  | '#' :: '0' :: 'x' :: ds => if ds.length = 8 then (digits 16 ds).map (fun n => some (BitVec.ofNat 32 n)) else none
  | cs => (number cs).map Pseudo.lit

/-- The opcodes by mnemonic (30_encoding R109). -/
def opcodes : List (List Char × Nat) :=
  [(['N', 'O', 'P'], 0x00), (['P', 'S', 'E', 'T'], 0x01), (['P', 'G', 'E', 'T'], 0x02), (['L', 'I', 'N', 'E'], 0x03),
   (['H', 'L', 'I', 'N', 'E'], 0x04), (['V', 'L', 'I', 'N', 'E'], 0x05), (['C', 'I', 'R', 'C'], 0x06),
   (['C', 'I', 'R', 'C', 'F', 'I', 'L', 'L'], 0x07), (['C', 'L', 'I', 'P'], 0x08), (['C', 'L', 'S'], 0x09),
   (['C', 'A', 'M', 'E', 'R', 'A'], 0x0A)]
  ++ [(['S', 'P', 'R'], 0x10), (['S', 'S', 'P', 'R'], 0x11), (['M', 'A', 'P'], 0x12), (['M', 'G', 'E', 'T'], 0x13),
   (['M', 'S', 'E', 'T'], 0x14), (['S', 'G', 'E', 'T'], 0x15), (['S', 'S', 'E', 'T'], 0x16), (['F', 'G', 'E', 'T'], 0x17),
   (['F', 'S', 'E', 'T'], 0x18), (['P', 'A', 'L'], 0x19), (['P', 'A', 'L', 'T'], 0x1A), (['S', 'F', 'X'], 0x20)]

/-- A command with its slots in order; trailing absent slots may be left out, more than it has are an error. -/
def command (op : Nat) (args : List Arg) : Option (List Instr) :=
  (commandOf op args).bind (fun i => if args.length ≤ i.slots.length then some [i] else none)

/-- A port transaction or a pseudo-instruction whose operands are numbers. `ctl` is what the MEMR of `FILLP` and
`FILLPMODE` answers: FILLP_CTL at that point of the program. -/
def numeric (ctl : Byte) (name : List Char) (vs : List Int) : Option (List Instr) :=
  let byte := fun (v : Int) => BitVec.ofInt 8 v
  match name, vs with
  | ['M', 'E', 'M', 'W'], [a, v] =>
    if (0 ≤ a ∧ a < 0x10000) ∧ (0 ≤ v ∧ v < 0x100) then some [.memw a.toNat (byte v)] else none
  | ['M', 'E', 'M', 'R'], [a] => if 0 ≤ a ∧ a < 0x10000 then some [.memr a.toNat] else none
  | ['S', 'A', 'M', 'P', 'L', 'E'], [c] => if 0 ≤ c ∧ c < 0x100 then some [.sample c.toNat] else none
  | ['C', 'O', 'L', 'O', 'R'], [v] => some (Pseudo.color (byte v))
  | ['D', 'I', 'S', 'T', 'O', 'R', 'T'], [m] => some (Pseudo.distort (byte m))
  | ['F', 'I', 'L', 'L', 'P'], [p, t] =>
    some (Pseudo.fillpMask (BitVec.ofInt 16 p) ++ [Pseudo.fillpRead, Pseudo.fillpTrans ctl ((byte t).getLsbD 0)])
  | ['F', 'I', 'L', 'L', 'P', 'M', 'O', 'D', 'E'], [m] =>
    some [Pseudo.fillpRead, Pseudo.fillpMode ctl ((byte m).getLsbD 0)]
  | _, _ => none

/-- `RECT` and `RECTFILL`: four coordinates and an optional colour, which may be `_` (30_encoding R114). -/
def rectangle (name : List Char) (ops : List (List Char)) : Option (List Instr) :=
  let colour := match ops.drop 4 with
    | [] => some none
    | [c] => slot c
    | _ => none
  match name, (ops.take 4).mapM number, colour with
  | ['R', 'E', 'C', 'T'], some [x0, y0, x1, y1], some c =>
    some (Pseudo.rect (Pseudo.lit x0) (Pseudo.lit y0) (Pseudo.lit x1) (Pseudo.lit y1) c)
  | ['R', 'E', 'C', 'T', 'F', 'I', 'L', 'L'], some [x0, y0, x1, y1], some c => some (Pseudo.rectfill x0 y0 x1 y1 c)
  | _, _, _ => none

/-- The transactions of one line; a comment runs from `;` to its end, and an empty line has none (30_encoding R112). `none` is
a line the syntax does not have. -/
def line (ctl : Byte) (cs : List Char) : Option (List Instr) :=
  let text := trim (cs.takeWhile (fun c => c ≠ ';'))
  let name := text.takeWhile (fun c => c ≠ ' ')
  let rest := trim (text.dropWhile (fun c => c ≠ ' '))
  let ops := if rest = [] then [] else (splitOn ',' rest).map trim
  if text = [] then some []
  else
    match opcodes.lookup name with
    | some op => (ops.mapM slot).bind (command op)
    | none =>
      match rectangle name ops with
      | some is => some is
      | none => (ops.mapM number).bind (numeric ctl name)

end Sys2Proof.Machine.Asm
end

