-- ==== Sys2Proof/Tests/Slice0.lean ====
section
/-! SUPPORT. Small tests: the well-formedness check, a decoding of every constructor, at most two steps of every
instruction, and for every statement with hypotheses a state and operands that meet them. Expected values come from
spec/95_test_vectors.md (named by entry) or are computed by hand from the rule named. -/

set_option Elab.async false

namespace Sys2Proof.Tests

open Sys2Proof.Machine Sys2Proof.Spec

/-! ### Ill-formed terms -/

theorem test_wf_memr_address_too_wide : WellFormed (.memr 0x10000) = false := by decide
theorem test_wf_memw_address_too_wide : WellFormed (.memw 0x10000 0#8) = false := by decide
theorem test_wf_sample_channel_too_wide : WellFormed (.sample 0x100) = false := by decide

/-! ### Decoding: a word of every constructor, from 30_encoding R100–R109 and 95_test_vectors L1–L3 -/

theorem test_decode_nop : decode .command [0x00000000#32] = .instr .nop [] := by decide
/-- L2.1: NOP with all 16 presence bits consumes 16 words. -/
theorem test_decode_nop_words :
    decode .command (0x00FFFF00#32 :: List.replicate 17 5#32) = .instr .nop [5#32] := by decide
/-- R113. -/
theorem test_decode_pset : decode .command [0x00000701#32, 0x000F0000#32, 0x000F0000#32, 0x00080000#32]
    = .instr (.pset (some 0x000F0000#32) (some 0x000F0000#32) (some 0x00080000#32)) [] := by decide
/-- L3.1 step 5. -/
theorem test_decode_pget : decode .command [0x00000302#32, 0x000F0000#32, 0x00100000#32]
    = .instr (.pget (some 0x000F0000#32) (some 0x00100000#32)) [] := by decide
/-- R113: the anchor form. -/
theorem test_decode_line : decode .command [0x00000C03#32, 0x00640000#32, 0x00140000#32]
    = .instr (.line none none (some 0x00640000#32) (some 0x00140000#32) none) [] := by decide
/-- L3.2 step 4: HLINE 0, 7, 1. -/
theorem test_decode_hline : decode .command [0x00000704#32, 0x00000000#32, 0x00070000#32, 0x00010000#32]
    = .instr (.hline (some 0#32) (some 0x00070000#32) (some 0x00010000#32) none) [] := by decide
theorem test_decode_vline : decode .command [0x00000705#32, 0x00030000#32, 0x00000000#32, 0x00020000#32]
    = .instr (.vline (some 0x00030000#32) (some 0#32) (some 0x00020000#32) none) [] := by decide
theorem test_decode_circ : decode .command [0x00000F06#32, 1#32, 2#32, 3#32, 4#32]
    = .instr (.circ (some 1#32) (some 2#32) (some 3#32) (some 4#32)) [] := by decide
/-- L1.10. -/
theorem test_decode_circfill :
    decode .command [0x00000F07#32, 0x00400000#32, 0x00400000#32, 0x00000000#32, 0x00070000#32]
    = .instr (.circfill (some 0x00400000#32) (some 0x00400000#32) (some 0#32) (some 0x00070000#32)) [] := by decide
/-- L2.1: CLIP -5, 120, 300, -3. -/
theorem test_decode_clip :
    decode .command [0x00000F08#32, 0xFFFB0000#32, 0x00780000#32, 0x012C0000#32, 0xFFFD0000#32]
    = .instr (.clip (some 0xFFFB0000#32) (some 0x00780000#32) (some 0x012C0000#32) (some 0xFFFD0000#32)) [] := by decide
/-- L1.3. -/
theorem test_decode_cls : decode .command [0x00000109#32, 0x000C0000#32] = .instr (.cls (some 0x000C0000#32)) [] := by
  decide
/-- L1.4. -/
theorem test_decode_camera : decode .command [0x0000030A#32, 0x000A0000#32, 0x00140000#32]
    = .instr (.camera (some 0x000A0000#32) (some 0x00140000#32)) [] := by decide
/-- L2.1: SPR 1, 0, 0, _, _, true. -/
theorem test_decode_spr : decode .command [0x00002710#32, 0x00010000#32, 0#32, 0#32, 0x00010000#32]
    = .instr (.spr (some 0x00010000#32) (some 0#32) (some 0#32) none none (some 0x00010000#32) none) [] := by decide
/-- L3.3 step 16. -/
theorem test_decode_sspr : decode .command [0x0000FF11#32, 1#32, 2#32, 3#32, 4#32, 5#32, 6#32, 7#32, 8#32]
    = .instr (.sspr (some 1#32) (some 2#32) (some 3#32) (some 4#32) (some 5#32) (some 6#32) (some 7#32) (some 8#32)
        none none) [] := by decide
/-- L3.3 step 14. -/
theorem test_decode_map : decode .command [0x00007F12#32, 1#32, 2#32, 3#32, 4#32, 5#32, 6#32, 7#32]
    = .instr (.map (some 1#32) (some 2#32) (some 3#32) (some 4#32) (some 5#32) (some 6#32) (some 7#32)) [] := by decide
/-- L3.3 step 17. -/
theorem test_decode_mget : decode .command [0x00000313#32, 0x00010000#32, 0#32]
    = .instr (.mget (some 0x00010000#32) (some 0#32)) [] := by decide
theorem test_decode_mset : decode .command [0x00000714#32, 3#32, 4#32, 17#32]
    = .instr (.mset (some 3#32) (some 4#32) (some 17#32)) [] := by decide
/-- L3.3 step 20. -/
theorem test_decode_sget : decode .command [0x00000315#32, 0x00090000#32, 0#32]
    = .instr (.sget (some 0x00090000#32) (some 0#32)) [] := by decide
theorem test_decode_sset : decode .command [0x00000316#32, 9#32, 8#32]
    = .instr (.sset (some 9#32) (some 8#32) none) [] := by decide
/-- L3.3 step 18. -/
theorem test_decode_fget : decode .command [0x00000117#32, 0x00010000#32]
    = .instr (.fget (some 0x00010000#32) none) [] := by decide
/-- `FSET 5, _, 0x81`: slots 0 and 2. -/
theorem test_decode_fset : decode .command [0x00000518#32, 0x00050000#32, 0x00810000#32]
    = .instr (.fset (some 0x00050000#32) none (some 0x00810000#32)) [] := by decide
/-- L1.5: PAL alone. -/
theorem test_decode_pal : decode .command [0x00000019#32] = .instr (.pal none none none) [] := by decide
/-- L3.3 step 24. -/
theorem test_decode_palt : decode .command [0x0000011A#32, 0x00030000#32]
    = .instr (.palt (some 0x00030000#32) none) [] := by decide
/-- L2.1: SFX -1, 2. -/
theorem test_decode_sfx : decode .command [0x00000320#32, 0xFFFF0000#32, 0x00020000#32]
    = .instr (.sfx (some 0xFFFF0000#32) (some 0x00020000#32) none) [] := by decide
/-- L2.1. -/
theorem test_decode_memr : decode .memory [0x00600000#32] = .instr (.memr 0x6000) [] := by decide
theorem test_decode_memw : decode .memory [0x805F2445#32] = .instr (.memw 0x5F24 0x45#8) [] := by decide
theorem test_decode_sample : decode .audio [0x00000002#32] = .instr (.sample 2) [] := by decide
/-- R104: bits [31:8] are ignored. -/
theorem test_decode_sample_high_bits : decode .audio [0xFFFFFF02#32] = .instr (.sample 2) [] := by decide
/-- L2.1: a reserved OP, a nonzero Z and reserved MEM bits; the argument words are consumed. -/
theorem test_decode_reserved_op : decode .command [0x0000030B#32, 1#32, 2#32, 3#32] = .ignored .reservedOpcode [3#32] := by
  decide
theorem test_decode_nonzero_z : decode .command [0x01000701#32, 1#32, 2#32, 3#32] = .ignored .nonzeroZ [] := by decide
theorem test_decode_reserved_mem : decode .memory [0x815F2406#32] = .ignored .reservedMemBits [] := by decide
/-- R109: the last opcode before each reserved range is a command, the next is not. -/
theorem test_decode_range_ends : commandOf 0x0A [] ≠ none ∧ commandOf 0x0B [] = none ∧ commandOf 0x0F [] = none
    ∧ commandOf 0x1A [] ≠ none ∧ commandOf 0x1B [] = none ∧ commandOf 0x1F [] = none ∧ commandOf 0x21 [] = none
    ∧ commandOf 0xFF [] = none := by decide

/-! ### One step on small states -/

/-- The state after an instruction. -/
def after (i : Instr) (s : State) : State :=
  match exec i s with
  | .next t => t
  | .fault _ => s
  | .refused _ => s

/-- The next state of an outcome. -/
def nextOf (o : Host.Outcome State Fault Refusal) : Option State :=
  match o with
  | .next t => some t
  | .fault _ => none
  | .refused _ => none

/-- The reset state with some bytes of memory. -/
def st (m : List Host.Cell) : State := { State.reset with mem := m }

/-- A whole-number argument. -/
def n (v : Int) : Arg := Pseudo.lit v

/-- Pixels a..b of a framebuffer row. -/
def rowOf (s : State) (y a b : Nat) : List Nibble := (List.range (b - a)).map (fun (k : Nat) => fbGet s (a + k) y)

/-- Cel 1 with row 0 = 0..7 and pixel (8, 1) = 9 (L2.6's setup). -/
def sheet : List Host.Cell := [(4, 0x10#8), (5, 0x32#8), (6, 0x54#8), (7, 0x76#8), (0x44, 9#8)]

/-- sfx 0 with note 0 = KEY 33, INST 3, VOL 7, FX 0 and SPEED 1, playing on channel 0 (L2.11's setup). -/
def playing : State :=
  { st [(0x4100, 0xE1#8), (0x4101, 0x0E#8), (0x4141, 1#8)] with
    ch := State.reset.ch.set 0 { sfx := some 0, offset := 0, phase := [], loop := true, prevKey := 24#6, prevVol := 0 } }

theorem test_nop : nextOf (exec .nop (st sheet)) = some (st sheet) := by decide +kernel
/-- L2.2: reset pen 6. -/
theorem test_pset_pen : fbGet (after (.pset (n 0) (n 0) none) State.reset) 0 0 = 6#4 := by decide +kernel
/-- L2.2: primary is the low nibble, the whole byte is the pen. -/
theorem test_pset_colour : (fbGet (after (.pset (n 1) (n 0) (n 0x2B)) State.reset) 1 0,
    (after (.pset (n 1) (n 0) (n 0x2B)) State.reset).pen) = (0xB#4, 0x2B#8) := by decide +kernel
/-- R151: a stored nibble, and 0 off the frame (L2.3). -/
theorem test_pget : (after (.pget (n 1) (n 0)) (st [(0x6000, 0x80#8)])).cmdOut = [0x00080000#32] := by decide +kernel
theorem test_pget_outside : (after (.pget (n (-1)) (n 0)) (st [(0x6000, 0x88#8)])).cmdOut = [0#32] := by decide +kernel
/-- L3.2 step 3: the stippled row, and the pattern stored. -/
theorem test_hline_pattern :
    let t := after (.hline (n 0) (n 7) (n 0) (some 0x10125A5A#32)) { State.reset with fillpMode := true }
    (rowOf t 0 0 9, t.fillp) = ([2, 1, 2, 1, 2, 1, 2, 1, 0], 0x5A5A#16) := by decide +kernel
/-- L1.2: the span on a frame cleared to 3. -/
theorem test_hline_bytes :
    let t := after (.hline (n 6) (n 1) (n 0) (n 9)) (st [(0x6000, 0x33#8), (0x6001, 0x33#8), (0x6002, 0x33#8), (0x6003, 0x33#8)])
    [memRead t 0x6000, memRead t 0x6001, memRead t 0x6002, memRead t 0x6003] = [0x93#8, 0x99#8, 0x99#8, 0x39#8] := by
  decide +kernel
/-- L2.3. -/
theorem test_vline : (after (.vline (n 3) (n 2) (n 0) (n 9)) State.reset).mem
    = [(0x6001, 0x90#8), (0x6041, 0x90#8), (0x6081, 0x90#8)] := by decide +kernel
/-- L2.4: (0,0) (1,1) (2,1) (3,2) (4,2), and the anchor. -/
theorem test_line : let t := after (.line (n 0) (n 0) (n 4) (n 2) (n 7)) State.reset
    (t.mem, t.anchorX, t.anchorY)
      = ([(0x6000, 7#8), (0x6040, 0x70#8), (0x6041, 7#8), (0x6081, 0x70#8), (0x6082, 7#8)], 4#16, 2#16) := by decide +kernel
/-- L2.4: an incomplete slot set changes nothing. -/
theorem test_line_incomplete : nextOf (exec (.line (n 1) none (n 4) (n 5) (n 9)) State.reset) = some State.reset := by decide +kernel
/-- L2.5: `CIRC 0, 0, 2` writes (0,2) (1,2) (2,0) (2,1). -/
theorem test_circ : (after (.circ (n 0) (n 0) (n 2) (n 7)) State.reset).mem
    = [(0x6001, 7#8), (0x6041, 7#8), (0x6080, 0x77#8)] := by decide +kernel
/-- L2.5: r < 0 sets the pen only. -/
theorem test_circ_negative : nextOf (exec (.circ (n 64) (n 64) (n (-1)) (n 0x23)) State.reset)
    = some { State.reset with pen := 0x23#8 } := by decide +kernel
/-- L1.10. -/
theorem test_circfill_zero : (after (.circfill (n 64) (n 64) (n 0) (n 7)) State.reset).mem = [(0x7020, 7#8)] := by
  decide +kernel
/-- L2.5: the plus of 5 at r = 1. -/
theorem test_circfill_one : (after (.circfill (n 64) (n 64) (n 1) (n 7)) State.reset).mem
    = [(0x6FE0, 7#8), (0x701F, 0x70#8), (0x7020, 0x77#8), (0x7060, 7#8)] := by decide +kernel
/-- L2.3. -/
theorem test_clip : (after (.clip (n (-5)) (n 120) (n 300) (n (-3))) State.reset).clip = ⟨0, 120, 128, 117⟩ := by
  decide +kernel
theorem test_clip_reset : (after (.clip (n 1) (n 2) (n 3) none) { State.reset with clip := ⟨1, 1, 2, 2⟩ }).clip
    = ⟨0, 0, 128, 128⟩ := by decide +kernel
/-- L2.3: only the low nibble counts. -/
theorem test_cls : let t := after (.cls (n 17)) { State.reset with cursorX := 7#8, clip := ⟨1, 1, 2, 2⟩ }
    (memRead t 0x6000, memRead t 0x6003, t.cursorX, t.clip) = (0x11#8, 0x11#8, 0#8, ⟨0, 0, 128, 128⟩) := by decide +kernel
/-- L2.3: the old offset is answered with its sign. -/
theorem test_camera : let t := after (.camera none none) { State.reset with cameraX := 0xFFFF#16 }
    (t.cameraX, t.cmdOut) = (0#16, [0xFFFF0000#32, 0#32]) := by decide +kernel
/-- L2.6. -/
theorem test_spr : (rowOf (after (.spr (n 1) (n 0) (n 0) none none none none) (st sheet)) 0 0 9,
    rowOf (after (.spr (n 1) (n 0) (n 0) none none none none) (st sheet)) 1 0 2) = ([0, 1, 2, 3, 4, 5, 6, 7, 0], [9, 0]) := by
  decide +kernel
theorem test_spr_flip : rowOf (after (.spr (n 1) (n 0) (n 0) none none (some 0x00010000#32) none) (st sheet)) 0 0 9
    = [7, 6, 5, 4, 3, 2, 1, 0, 0] := by decide +kernel
/-- L2.6. -/
theorem test_sspr : rowOf (after (.sspr (n 8) (n 0) (n 8) (n 1) (n 0) (n 0) (n 4) (n 1) none none) (st sheet)) 0 0 5
    = [0, 2, 4, 6, 0] := by decide +kernel
theorem test_sspr_flip :
    rowOf (after (.sspr (n 8) (n 0) (n 8) (n 1) (n 0) (n 0) (n 4) (n 1) (some 1#32) none) (st sheet)) 0 0 5
    = [6, 4, 2, 0, 0] := by decide +kernel
/-- L2.7, with cel 1's row 0 = 0..7: MAP -1, 0, 0, 0, 2, 1 skips the cell off the map. -/
theorem test_map : rowOf (after (.map (n (-1)) (n 0) (n 0) (n 0) (n 2) (n 1) none) (st (sheet ++ [(0x2000, 1#8)]))) 0 8 16
    = [0, 1, 2, 3, 4, 5, 6, 7] := by decide +kernel
/-- L2.7: a mask with a bit the flags lack draws nothing under all_bits. -/
theorem test_map_layer :
    (after (.map (n 0) (n 0) (n 0) (n 0) (n 1) (n 1) (n 3)) (st (sheet ++ [(0x2000, 1#8), (0x4001, 1#8)]))).mem
    = sheet ++ [(0x2000, 1#8), (0x4001, 1#8)] := by decide +kernel
/-- L2.8. -/
theorem test_mget : (after (.mget (n 3) (n 4)) (st [(0x2203, 0x11#8)])).cmdOut = [0x00110000#32] := by decide +kernel
theorem test_mset : (after (.mset (n 3) (n 4) (n 17)) State.reset).mem = [(0x2203, 0x11#8)] := by decide +kernel
/-- L2.13: with MAP_SHEET_SHARED the byte of map row 32 is sheet byte 0x1000. -/
theorem test_mset_shared :
    (after (.mset (n 0) (n 32) (n 7)) { State.reset with params := { Params.default with mapSheetShared := true } }).mem
    = [(0x1000, 7#8)] := by decide +kernel
theorem test_sget : (after (.sget (n 9) (n 0)) (st [(4, 0x10#8)])).cmdOut = [0x00010000#32] := by decide +kernel
/-- L2.8: after PAL 8, 12. -/
theorem test_sset : let t := after (.sset (n 0) (n 0) (n 8)) { State.reset with drawPal := State.reset.drawPal.set 8 12#5 }
    (t.mem, t.pen) = ([(0, 12#8)], 8#8) := by decide +kernel
theorem test_sset_off : after (.sset (n 200) (n 0) (n 3)) State.reset = { State.reset with pen := 3#8 } := by decide +kernel
theorem test_fget_bit : (after (.fget (n 2) (n 1)) (st [(0x4002, 3#8)])).cmdOut = [0x00010000#32] := by decide +kernel
theorem test_fget_bit_out : (after (.fget (n 2) (n 9)) (st [(0x4002, 3#8)])).cmdOut = [0#32] := by decide +kernel
theorem test_fset_bit : (after (.fset (n 5) (n 3) (n 1)) (st [(0x4005, 0x81#8)])).mem = [(0x4005, 0x89#8)] := by decide +kernel
theorem test_fset_clear : (after (.fset (n 5) (n 3) (n 0)) (st [(0x4005, 8#8)])).mem = [] := by decide +kernel
/-- L2.9: TRANS kept. -/
theorem test_pal : (after (.pal (n 0) (n 7) none) State.reset).drawPal[0] = 0x17#5 := by decide +kernel
theorem test_pal_screen : (after (.pal (n 3) (n 0x8B) (n 1)) State.reset).screenPal[3] = 0x8B#8 := by decide +kernel
theorem test_palt : (after (.palt (n 3) (n 1)) State.reset).drawPal[3] = 0x13#5 := by decide +kernel
theorem test_palt_read : (after (.palt (n 0) none) State.reset).cmdOut = [0x00010000#32] := by decide +kernel
/-- L2.12: 3 1 4 2 and SFX 9: channel 1 had the lowest id. -/
theorem test_sfx_steal :
    let c := fun (i : Fin 64) => { Channel.reset with sfx := some i }
    ((after (.sfx (n 9) none none) { State.reset with ch := #v[c 3, c 1, c 4, c 2] }).ch.map (fun d => d.sfx)).toList
      = [some 3, some 9, some 4, some 2] := by decide +kernel
/-- L1.7: the channel that plays the id is reused though channel 0 is Idle. -/
theorem test_sfx_reuse :
    ((after (.sfx (n 5) none (n 31))
      { State.reset with ch := State.reset.ch.set 2 { Channel.reset with sfx := some 5 } }).ch.map
        (fun d => (d.sfx, d.offset))).toList
      = [(none, 0), (none, 0), (some 5, 31), (none, 0)] := by decide +kernel
/-- L2.13. -/
theorem test_memr : (after (.memr 0x5F34) State.reset).memOut = [0xFF#32] := by decide +kernel
theorem test_memw_clamp : (after (.memw 0x5F20 200#8) State.reset).clip.x1 = 128 := by decide +kernel
theorem test_memw_fillp : (after (.memw 0x5F31 0x80#8) { State.reset with fillp := 1#16 }).fillp = 0x8001#16 := by
  decide +kernel
/-- L2.11: the square's first sample, 8191, and its phase, 440 / 22050. -/
theorem test_sample : let t := after (.sample 0) playing
    (t.audOut, t.ch[0].phase, t.ch[0].offset) = ([0x00001FFF#32], [⟨0, 44 / 2205⟩], 1 / 183) := by decide +kernel
/-- L2.11: INST 0 (note word 0x0E21) gives 10673 first, and 9362 with its DISTORT bit set. -/
theorem test_sample_distort :
    let s := { playing with mem := [(0x4100, 0x21#8), (0x4101, 0x0E#8), (0x4141, 1#8)] }
    ((after (.sample 0) s).audOut, (after (.sample 0) { s with distort := 1#4 }).audOut)
      = ([BitVec.ofInt 32 10673], [BitVec.ofInt 32 9362]) := by decide +kernel

/-! ### The host's two questions -/

theorem test_decodeTableWord : decodeTableWord 32 0x0000000A = some (.camera none none)
    ∧ decodeTableWord 32 0x805F2445 = some (.memw 0x5F24 0x45#8) ∧ decodeTableWord 32 0x7F000002 = some (.sample 2) := by decide
theorem test_withFetchWord :
    nextOf (step (State.reset.withFetchWord 32 0x00000109)) = nextOf (exec (.cls (some 0#32)) State.reset) := by decide +kernel

/-! ### The assembler syntax (30_encoding R112–R114) -/

/-- R113's two lines, with a comment; a line with one operand too many; an unknown mnemonic. -/
theorem test_asm_commands :
    Asm.line 0 "PSET 15, 15, 8 ; a pixel".toList = some [.pset (n 15) (n 15) (n 8)]
    ∧ Asm.line 0 "LINE _, _, 100, 20".toList = some [.line none none (n 100) (n 20) none]
    ∧ Asm.line 0 "CLS 1, 2".toList = none ∧ Asm.line 0 "CIRCLE 1".toList = none ∧ Asm.line 0 "; empty".toList = some [] := by
  decide
/-- L2.1's CLIP and SPR, and a raw word. -/
theorem test_asm_literals :
    Asm.line 0 "CLIP -5, 120, 300, -3".toList = some [.clip (n (-5)) (n 120) (n 300) (n (-3))]
    ∧ Asm.line 0 "SPR 1, 0, 0, _, _, true".toList = some [.spr (n 1) (n 0) (n 0) none none (some 0x10000#32) none]
    ∧ Asm.line 0 "HLINE 0, 7, 0, #0x10125A5A".toList = some [.hline (n 0) (n 7) (n 0) (some 0x10125A5A#32)] := by decide
/-- Port transactions and the expansions of R114, with FILLP_CTL = 2. -/
theorem test_asm_pseudo :
    Asm.line 0 "MEMW 0x5F24, 0x45".toList = some [.memw 0x5F24 0x45#8] ∧ Asm.line 0 "SAMPLE 2".toList = some [.sample 2]
    ∧ Asm.line 2 "FILLP 0x5A5A, 1".toList = some [.memw 0x5F30 0x5A#8, .memw 0x5F31 0x5A#8, .memr 0x5F32, .memw 0x5F32 3#8]
    ∧ Asm.line 0 "RECTFILL 1, 3, 2, 2, _".toList = some [.hline (n 1) (n 2) (n 2) none, .hline (n 1) (n 2) (n 3) none] := by
  decide

/-! ### Witnesses: for each statement with hypotheses, a state and operands that meet them, at the ends of the ranges -/

/-- An instruction that answers a next state answers `after`. -/
theorem next_after {i : Instr} {s : State} (h : (nextOf (exec i s)).isSome = true) : exec i s = .next (after i s) := by
  unfold after
  cases hx : exec i s with
  | next t => rfl
  | fault f => simp [hx, nextOf] at h
  | refused r => simp [hx, nextOf] at h

/-- The reset state with words waiting at one port. -/
def waiting (p : Port) (ws : List Word) : State := { State.reset with inbox := transfersOn p ws }

theorem witness_EncodeDecodeRoundTrip : WellFormed (.memr 0xFFFF) = true ∧ WellFormed (.memw 0xFFFF 0xFF#8) = true
    ∧ WellFormed (.sample 0xFF) = true ∧ WellFormed (.pset none (some 0xFFFFFFFF#32) none) = true := by decide

theorem witness_DecodedIsWellFormed : decode .memory [0x00FFFF00#32] = .instr (.memr 0xFFFF) []
    ∧ decode .audio [0xFFFFFFFF#32] = .instr (.sample 0xFF) [] ∧ decode .command [0x20#32] = .instr (.sfx none none none) [] := by
  decide

/-- A header of 16 words, one short and whole, and a header of none. -/
theorem witness_PacketLength : (List.replicate 15 5#32).length < popcount (maskField 0x01FFFFFF#32)
    ∧ (List.replicate 16 5#32).length = popcount (maskField 0x01FFFFFF#32)
    ∧ ([] : List Word).length = popcount (maskField 0x00000001#32) := by decide

/-- SSPR with all 16 presence bits, and NOP with none. -/
theorem witness_CommandFields : zField 0x00FFFF11#32 = 0 ∧ slotCounts.lookup (opField 0x00FFFF11#32) = some 10
    ∧ (List.replicate 16 5#32).length = popcount (maskField 0x00FFFF11#32)
    ∧ zField 0#32 = 0 ∧ slotCounts.lookup (opField 0#32) = some 0 ∧ ([] : List Word).length = popcount (maskField 0#32) := by
  decide

/-- Z = 1 on PSET, OP 0xFF with Z = 0, and PSET without and with a word for slot 15. -/
theorem witness_ReservedPacketsAreIgnored :
    (waiting .command [0x01000701#32, 1#32, 2#32, 3#32]).inbox = transfersOn .command (0x01000701#32 :: [1#32, 2#32, 3#32]) ++ []
    ∧ [1#32, 2#32, 3#32].length = popcount (maskField 0x01000701#32) ∧ zField 0x01000701#32 ≠ 0
    ∧ ([] : List Word).length = popcount (maskField 0xFF#32) ∧ zField 0xFF#32 = 0 ∧ slotCounts.lookup (opField 0xFF#32) = none
    ∧ [1#32, 2#32, 3#32].length = popcount (maskField 0x00000701#32) ∧ [1#32, 2#32, 3#32, 4#32].length = popcount (maskField 0x00800701#32)
    ∧ zField 0x00000701#32 = 0 ∧ zField 0x00800701#32 = 0 ∧ opField 0x00000701#32 = opField 0x00800701#32
    ∧ slotCounts.lookup (opField 0x00000701#32) = some 3
    ∧ ∀ k, k < 3 → slotValue (maskField 0x00000701#32) [1#32, 2#32, 3#32] k
        = slotValue (maskField 0x00800701#32) [1#32, 2#32, 3#32, 4#32] k := by decide

/-- A reserved word, a write and a read at the last address; and an audio word of channel 255. -/
theorem witness_MemoryWord_AudioWord : (waiting .memory [0x7F000000#32]).inbox = ⟨.memory, 0x7F000000#32⟩ :: []
    ∧ (0x7F000000#32).toNat / 2 ^ 24 % 2 ^ 7 ≠ 0
    ∧ (0x80FFFFFF#32).toNat / 2 ^ 24 % 2 ^ 7 = 0 ∧ (0x80FFFFFF#32).toNat / 2 ^ 31 = 1
    ∧ (0x00FFFFFF#32).toNat / 2 ^ 24 % 2 ^ 7 = 0 ∧ (0x00FFFFFF#32).toNat / 2 ^ 31 ≠ 1
    ∧ (waiting .audio [0xFFFFFFFF#32]).inbox = ⟨.audio, 0xFFFFFFFF#32⟩ :: [] := by decide

theorem witness_ArgumentAndResultWords : int16 (BitVec.ofInt 32 (-32768) <<< 16) = -32768
    ∧ int16 (BitVec.ofInt 32 32767 <<< 16) = 32767 ∧ int16 0xFFFF8000#32 = -1 ∧ fix 0xFFFF8000#32 = -1 / 2 := by decide +kernel

theorem witness_StepRunsDecodedInstruction : WellFormed (.memw 0xFFFF 1#8) = true
    ∧ (waiting .memory [0x80FFFF01#32]).inbox = transfersOf (.memw 0xFFFF 1#8) ++ [] := by decide

/-- Nothing; a PSET packet without its last word; the same with a MEM word behind it. -/
theorem witness_WaitingAndInterleaving : State.reset.inbox = [] ∧ [1#32, 2#32].length < popcount (maskField 0x00000701#32)
    ∧ (waiting .command [0x00000701#32, 1#32, 2#32]).inbox = transfersOn .command (0x00000701#32 :: [1#32, 2#32])
    ∧ (⟨.memory, 0x805F2445#32⟩ : Transfer).port ≠ .command
    ∧ (nextOf (step { State.reset with inbox := [⟨.memory, 0x805F2445#32⟩] })).map (fun t => t.pen) = some 0x45#8
    ∧ (nextOf (step { State.reset with
        inbox := transfersOn .command [0x00000701#32, 1#32, 2#32] ++ ⟨.memory, 0x805F2445#32⟩ :: [] })).map
          (fun t => (t.pen, t.inbox)) = some (0x45#8, transfersOn .command [0x00000701#32, 1#32, 2#32]) := by decide +kernel

theorem witness_NothingStops : WellFormed (.sample 0xFF) = true ∧ 2 ^ 16 ≤ 0x10000 := by decide

/-- A state that reset is not: a record in memory and a Playing channel. -/
theorem playing_inv : Inv playing where
  memWf := by decide +kernel
  memArray := by unfold MemInArrays; decide +kernel
  channels := by
    intro c
    have h : (0 ≤ playing.ch[c].offset ∧ playing.ch[c].offset < 32) ∧ (playing.ch[c].sfx = none → playing.ch[c].offset = 0)
        ∧ playing.ch[c].phase = [] ∧ (0 ≤ playing.ch[c].prevVol ∧ playing.ch[c].prevVol ≤ 1) := by
      revert c; decide +kernel
    exact ⟨h.1, h.2.1, by rw [h.2.2.1]; exact ⟨by decide, by simp [Surd.toReal]⟩, h.2.2.2⟩
  distinct := by unfold DistinctSfx; decide +kernel

theorem witness_StepKeepsInvariant : Inv { playing with inbox := [⟨.audio, 0#32⟩] }
    ∧ (nextOf (step { playing with inbox := [⟨.audio, 0#32⟩] })).map (fun t => t.audOut) = some [0x00001FFF#32] :=
  ⟨⟨playing_inv.memWf, playing_inv.memArray, playing_inv.channels, playing_inv.distinct⟩, by decide +kernel⟩

/-- The ends of the ranges of the reset table; a state that reset is not, with its channels Idle, a word waiting that is a MEMW
and no SFX, and the silence of every channel. -/
theorem witness_ResetValues : memRead State.reset 0x5F0F = 15#8 ∧ memRead State.reset 0x5F1F = 15#8
    ∧ memRead State.reset 0x5F25 = 0 ∧ memRead State.reset 0x5F33 = 0 ∧ memRead State.reset 0x5F37 = 0xFF#8
    ∧ memRead State.reset 0x5F38 = 0 ∧ memRead State.reset 0x5F7F = 0 ∧ memRead State.reset 0x51FF = 0
    ∧ memRead State.reset 0x7FFF = 0
    ∧ (let s := { st sheet with inbox := [⟨.memory, 0x805F2445#32⟩] }
      (∀ d : Fin 4, s.ch[d].sfx = none)
      ∧ nextTransaction s.inbox = some (.memory, [0x805F2445#32], [])
      ∧ decode .memory [0x805F2445#32] = .instr (.memw 0x5F24 0x45#8) [] ∧ row (.memw 0x5F24 0x45#8) ≠ 0x20
      ∧ (nextOf (step s)).map (fun t => (t.pen, t.ch.toList.map (fun C => C.sfx))) = some (0x45#8, [none, none, none, none])) := by
  decide +kernel

/-- Every register and queue is changed by a transaction of its list. -/
theorem witness_RegisterWriters :
    (after (.pset none none (n 9)) State.reset).pen ≠ State.reset.pen
    ∧ (after (.memw 0x5F30 1#8) State.reset).fillp ≠ State.reset.fillp
    ∧ (after (.memw 0x5F32 1#8) State.reset).fillpTrans ≠ State.reset.fillpTrans
    ∧ (after (.memw 0x5F32 2#8) State.reset).fillpMode ≠ State.reset.fillpMode
    ∧ (after (.memw 0x5F33 1#8) State.reset).distort ≠ State.reset.distort
    ∧ (after (.clip (n 1) (n 1) (n 1) (n 1)) State.reset).clip ≠ State.reset.clip
    ∧ (after (.cls none) { State.reset with cursorX := 1#8, cursorY := 1#8 }).cursorX ≠ 1#8
    ∧ (after (.camera (n 1) (n 1)) State.reset).cameraX ≠ State.reset.cameraX
    ∧ (after (.line (n 0) (n 0) (n 1) (n 1) none) State.reset).anchorX ≠ State.reset.anchorX
    ∧ (after (.pal (n 0) (n 7) none) State.reset).drawPal ≠ State.reset.drawPal
    ∧ (after (.pal (n 0) (n 7) (n 1)) State.reset).screenPal ≠ State.reset.screenPal
    ∧ (after (.sfx (n 0) none none) State.reset).ch ≠ State.reset.ch
    ∧ (after (.mget none none) State.reset).cmdOut ≠ State.reset.cmdOut
    ∧ (after (.memr 0) State.reset).memOut ≠ State.reset.memOut
    ∧ (after (.sample 0) State.reset).audOut ≠ State.reset.audOut := by decide +kernel

/-- Each array is changed by a transaction of its list, and the sheet by MSET where it is shared. -/
theorem witness_ArrayWriters :
    Memory.read (after (.pset none none none) State.reset).mem 0x6000 ≠ Memory.read State.reset.mem 0x6000
    ∧ Memory.read (after (.sset none none (n 1)) State.reset).mem 0 ≠ Memory.read State.reset.mem 0
    ∧ Memory.read (after (.mset (n 0) (n 32) (n 7))
        { State.reset with params := { Params.default with mapSheetShared := true } }).mem 0x1000 ≠ 0
    ∧ Memory.read (after (.mset none none (n 1)) State.reset).mem 0x2000 ≠ Memory.read State.reset.mem 0x2000
    ∧ Memory.read (after (.fset none none (n 1)) State.reset).mem 0x4000 ≠ Memory.read State.reset.mem 0x4000
    ∧ Memory.read (after (.memw 0x51FF 1#8) State.reset).mem 0x51FF ≠ Memory.read State.reset.mem 0x51FF := by decide +kernel

/-- Commands of one, two and no result words, and both forms of PALT. -/
theorem witness_ResultCounts : (after (.fget none none) State.reset).cmdOut.length = 1
    ∧ (after (.camera none none) State.reset).cmdOut.length = 2 ∧ (after (.palt (n 0) none) State.reset).cmdOut.length = 1
    ∧ (after (.palt (n 0) (n 1)) State.reset).cmdOut.length = 0 ∧ (after (.cls none) State.reset).cmdOut.length = 0 := by
  decide +kernel

/-- Reserved and read-only addresses, at the ends of their ranges: 0xFF is written and 0, or the channel's id, read back. -/
theorem witness_RegisterMap :
    ([0x5F27, 0x5F38, 0x5FFF, 0x5200, 0x5EFF, 0x8000, 0xFFFF].map (fun (a : Nat) => memRead (after (.memw a 0xFF#8) State.reset) a))
      = [0, 0, 0, 0, 0, 0, 0]
    ∧ memRead (after (.memw 0x5F37 0#8) State.reset) 0x5F37 = 0xFF#8
    ∧ memRead (after (.memw 0x5F0F 0xFF#8) State.reset) 0x5F0F = 0x1F#8 := by decide +kernel

theorem witness_MemoryPort : 0xFFFF < 2 ^ 16 ∧ sameByte { Params.default with mapSheetShared := true } 0x3FFF 0x1FFF = true
    ∧ sameByte { Params.default with mapSheetShared := true } 0x2FFF 0x0FFF = false
    ∧ sameByte Params.default 0x3000 0x1000 = false := by decide

/-- With the shared parameter: the corner cells of the shared rows, and both nibbles of a sheet byte. -/
theorem witness_SharedMapAndSheet :
    let s := { st [(0x1FFF, 0x34#8)] with params := { Params.default with mapSheetShared := true } }
    int16 0x007F0000#32 = ((127 : Nat) : Int) ∧ int16 0x003F0000#32 = ((63 : Nat) : Int)
    ∧ (let t := after (.mset (some 0x007F0000#32) (some 0x003F0000#32) (some 0x00A50000#32)) s
      (nextOf (exec (.mset (some 0x007F0000#32) (some 0x003F0000#32) (some 0x00A50000#32)) s)).isSome = true
      ∧ sheetNibble t 126 127 = 5#4 ∧ sheetNibble t 127 127 = 0xA#4)
    ∧ memRead (after (.sset (some 0x007E0000#32) (some 0x007F0000#32) (n 9)) s) 0x3FFF = 0x39#8
    ∧ memRead (after (.sset (some 0x007F0000#32) (some 0x007F0000#32) (n 9)) s) 0x3FFF = 0x94#8 := by decide +kernel

theorem witness_DisplayView : displayColor { st [(0x7FFF, 0x80#8)] with screenPal := State.reset.screenPal.set 8 0x8B#8 } 127 127
    = 0x8B#8 := by decide +kernel

/-- A colour word with its pattern flag: in fill-pattern mode and out of it. -/
theorem witness_ResolveColor : (0x11125A5A#32).getLsbD 28 = true
    ∧ (resolveColor (some 0x11125A5A#32) { State.reset with fillpMode := true }).2
      = { State.reset with fillpMode := true, pen := 0x12#8, fillp := 0x5A5A#16, fillpTrans := true }
    ∧ (resolveColor (some 0x11125A5A#32) State.reset).2 = { State.reset with pen := 0x12#8 } := by decide +kernel

/-- L1.2's span, HLINE 1..6: bytes 1 and 2 whole, byte 0 its odd pixel, byte 3 its even one, byte 4 none. -/
theorem witness_SpanFastPath : (loadColor (n 9) State.reset).fillp = 0 ∧ devy State.reset (intArg (n 0) 0) = 0
    ∧ (nextOf (exec (.hline (n 6) (n 1) (n 0) (n 9)) State.reset)).isSome = true
    ∧ (let D := fun x : Int => InClip State.reset x 0 ∧ Between (devx State.reset (intArg (n 6) 0)) (devx State.reset (intArg (n 1) 0)) x
      (D 2 ∧ D 3) ∧ (D 6 ∧ ¬D 7) ∧ (¬D 0 ∧ D 1) ∧ (¬D 8 ∧ ¬D 9)) := by
  unfold InClip Between; decide +kernel

/-- Both complete forms of LINE, and the incomplete ones. -/
theorem witness_LineDrawsAndMovesAnchor : (after (.line none none (n 3) (n 1) (n 7)) { State.reset with anchorX := 2#16, anchorY := 1#16 }).mem
      = [(0x6041, 0x77#8)]
    ∧ nextOf (exec (.line none (n 1) (n 1) (n 1) (n 9)) State.reset) = some State.reset
    ∧ nextOf (exec (.line none none none (n 1) (n 9)) State.reset) = some State.reset
    ∧ nextOf (exec (.line none none (n 1) none (n 9)) State.reset) = some State.reset := by decide +kernel

/-- A line given from both ends, a flat, a steep and a diagonal one, and L2.4's pixels: one for each x of the flat one. -/
theorem witness_LineConsequences :
    (after (.line (n 0) (n 0) (n 4) (n 2) (n 7)) State.reset).mem = (after (.line (n 4) (n 2) (n 0) (n 0) (n 7)) State.reset).mem
    ∧ (nextOf (exec (.line (n 0) (n 0) (n 4) (n 2) (n 7)) State.reset)).isSome = true
    ∧ (nextOf (exec (.line (n 4) (n 2) (n 0) (n 0) (n 7)) State.reset)).isSome = true
    ∧ (|(4 : Int) - 0| > |(2 : Int) - 0| ∧ Between 0 4 4) ∧ (|(2 : Int) - 0| < |(4 : Int) - 0| ∧ Between 0 4 0)
    ∧ |(-3 : Int) - 0| = |(3 : Int) - 0|
    ∧ ([(0, 0), (1, 1), (2, 1), (3, 2), (4, 2)].map (fun (p : Nat × Nat) =>
        fbGet (after (.line (n 0) (n 0) (n 4) (n 2) (n 7)) State.reset) p.1 p.2)) = [7, 7, 7, 7, 7] := by
  unfold Between; decide +kernel

/-- Device coordinates and `wrap16` at the ends of int16 (40_rasterizer R147). -/
theorem witness_PsetDrawsPixel : devx { State.reset with cameraX := 1#16 } (-32768) = 32767
    ∧ devy { State.reset with cameraY := 0xFFFF#16 } 32767 = -32768 ∧ wrap16 32768 = -32768 ∧ wrap16 (-32769) = 32767 := by decide

/-- SSET without a colour, at the two ends of the sheet and off it, under both readings: by R213 the reset pen's 6 is stored,
by R311 nothing changes. -/
theorem witness_SsetStoresColour :
    let s := { State.reset with params := { Params.default with ssetNoColour := .noChange } }
    (after (.sset (n 0) (n 0) none) State.reset).mem = [(0, 6#8)]
    ∧ (after (.sset (n 127) (n 127) none) State.reset).mem = [(0x1FFF, 0x60#8)]
    ∧ nextOf (exec (.sset (n 128) (n 0) none) State.reset) = some State.reset
    ∧ nextOf (exec (.sset (n 0) (n 0) none) s) = some s
    ∧ (after (.sset (n 0) (n 0) (n 9)) s).mem = [(0, 9#8)] ∧ (n 9) ≠ none := by decide +kernel

/-- The two pixels of a sheet byte as SGET answers them; MGET and FGET in and out of range. -/
theorem witness_AccessorReads : (after (.sget (n 127) (n 127)) (st [(0x1FFF, 0x34#8)])).cmdOut = [0x00030000#32]
    ∧ sheetNibble (st [(0x1FFF, 0x34#8)]) 126 127 = 4#4 ∧ sheetNibble (st [(0x1FFF, 0x34#8)]) 127 127 = 3#4
    ∧ (after (.mget (n 128) (n 0)) (st [(0x2080, 1#8)])).cmdOut = [0#32]
    ∧ (after (.fget (n 256) none) (st [(0x4100, 1#8)])).cmdOut = [0#32] := by decide +kernel

theorem witness_SmallCircles : intArg (n (-1)) 0 < 0 ∧ intArg (n 0) 0 = 0 ∧ intArg (n 1) 0 = 1
    ∧ devx State.reset (intArg (n 32766) 0) = 32766 ∧ devy State.reset (intArg (n (-32767)) 0) = -32767 := by decide +kernel

theorem witness_ClipCommand : (after (.clip (n 1) (n 2) (n 0) (n 0)) State.reset).clip = ⟨1, 2, 1, 2⟩ := by decide +kernel

/-- The pixel right of the clip rectangle. -/
theorem witness_OutsideClipUnchanged :
    let s := { st [(0x6000, 0x21#8)] with clip := ⟨0, 0, 1, 1⟩ }
    ¬InClip s 1 0 ∧ (nextOf (exec (.hline (n 0) (n 127) (n 0) (n 9)) s)).isSome = true
    ∧ row (.hline (n 0) (n 127) (n 0) (n 9)) ≠ 0x09
    ∧ rowOf (after (.hline (n 0) (n 127) (n 0) (n 9)) s) 0 0 2 = [9, 2] := by
  unfold InClip; decide +kernel

theorem witness_SsprDrawsSpr : 255 < 256
    ∧ rowOf (after (.sspr (some (intWord 8)) (some (intWord 0)) (some (intWord 8)) (some (intWord 8)) (n 3) (n 0) none none none none)
        (st sheet)) 0 3 11 = [0, 1, 2, 3, 4, 5, 6, 7] := by decide +kernel

theorem witness_LayerFilter : (3#8 : Byte) ≠ 0 ∧ layerPass .allBits 1#8 3#8 = false ∧ layerPass .anyBit 1#8 3#8 = true := by decide

/-- MSET and FSET in and out of range, at the last cell and the last flag; FSET with bit 8. -/
theorem witness_MsetStoresCell_FsetStoresFlags : intArg (n 127) 0 = ((127 : Nat) : Int) ∧ intArg (n 63) 0 = ((63 : Nat) : Int)
    ∧ (after (.mset (n 127) (n 63) (n 1)) State.reset).mem = [(0x3FFF, 1#8)]
    ∧ nextOf (exec (.mset (n 128) (n 63) (n 1)) State.reset) = some State.reset
    ∧ (after (.fset (n 255) none (n 255)) State.reset).mem = [(0x40FF, 0xFF#8)]
    ∧ (after (.fset (n 255) (n 7) (n 1)) State.reset).mem = [(0x40FF, 0x80#8)]
    ∧ nextOf (exec (.fset (n 255) (n 8) (n 1)) State.reset) = some State.reset
    ∧ nextOf (exec (.fset (n 256) none (n 1)) State.reset) = some State.reset := by decide +kernel

/-- PAL and PALT in each of their forms; the index is taken mod 16. -/
theorem witness_PalRemapsOrResets_PaltTransparency :
    let s := { State.reset with drawPal := State.reset.drawPal.set 3 0x1F#5, screenPal := State.reset.screenPal.set 3 0x8B#8 }
    intArg (n (-1)) 0 % 16 = (((15 : Fin 16).val : Nat) : Int)
    ∧ nextOf (exec (.pal none none (n 9)) s) = some State.reset
    ∧ nextOf (exec (.pal (n 3) none none) s) = some s ∧ nextOf (exec (.pal none (n 3) none) s) = some s
    ∧ nextOf (exec (.pal (n 3) (n 4) (n 2)) s) = some s
    ∧ (after (.palt none none) s).drawPal[3] = 0x0F#5 ∧ nextOf (exec (.palt none (n 1)) s) = some s
    ∧ (after (.palt (n 19) none) s).cmdOut = [0x00010000#32] := by decide +kernel

/-- SFX out of each range, without a channel, stopping, un-looping, and starting on the chosen and on an explicit channel. -/
theorem witness_SfxTriggersChannel :
    nextOf (exec (.sfx (n 64) none none) playing) = some playing ∧ nextOf (exec (.sfx (n (-3)) (n 0) none) playing) = some playing
    ∧ nextOf (exec (.sfx (n 0) (n 4) none) playing) = some playing ∧ nextOf (exec (.sfx (n 0) (n 0) (n 32)) playing) = some playing
    ∧ nextOf (exec (.sfx (n (-1)) none none) playing) = some playing
    ∧ (after (.sfx (n (-1)) (n 0) none) playing).ch[0].sfx = none ∧ (after (.sfx (n (-2)) (n 0) none) playing).ch[0].loop = false
    ∧ (after (.sfx (n 63) none (n 31)) playing).ch[1].sfx = some 63 ∧ pickChannel playing 63 = 1
    ∧ (let t := after (.sfx (n 0) (n 3) none) playing
      t.ch[3].sfx = some 0 ∧ t.ch[0].sfx = none) := by decide +kernel

/-- A channel that plays the id; an Idle channel; four others that play. -/
theorem witness_PickChannel : playing.ch[(0 : Fin 4)].sfx = some 0
    ∧ (∀ c : Fin 4, playing.ch[c].sfx ≠ some 5) ∧ playing.ch[(1 : Fin 4)].sfx = none
    ∧ (let s := { State.reset with
        ch := #v[{ Channel.reset with sfx := some 3 }, { Channel.reset with sfx := some 1 }, { Channel.reset with sfx := some 4 },
          { Channel.reset with sfx := some 2 }] }
      ∀ c : Fin 4, s.ch[c].sfx ≠ some 5 ∧ s.ch[c].sfx ≠ none) := by decide +kernel

theorem witness_SampleSilence : (∀ h : 3 < 4, (playing.ch[3]).sfx = none) ∧ ∀ h : 255 < 4, (playing.ch[255]).sfx = none :=
  ⟨fun _ => rfl, fun h => absurd h (by decide)⟩

/-- A note that sounds; a silent one; one whose advance ends the note; one whose advance ends the sfx. -/
theorem witness_SamplePlaying :
    let at' := fun (q : Rat) => { playing with ch := playing.ch.set 0 { playing.ch[0] with offset := q } }
    (at' 0).ch[(0 : Fin 4)].sfx = some 0 ∧ (noteAt (at' 0) 0 0).vol ≠ 0 ∧ (noteAt (at' 1) 0 1).vol = 0
    ∧ (⌊nextOffset (at' (1 - 1 / 183)) (at' (1 - 1 / 183)).ch[(0 : Fin 4)] 0⌋ = 1 ∧ ⌊(1 - 1 / 183 : Rat)⌋ = 0)
    ∧ (after (.sample 0) (at' (1 - 1 / 183))).ch[0].prevKey = 33#6
    ∧ 32 ≤ nextOffset (at' (32 - 1 / 183)) (at' (32 - 1 / 183)).ch[(0 : Fin 4)] 0
    ∧ (after (.sample 0) (at' (32 - 1 / 183))).ch[0].sfx = none := by decide +kernel

/-- A record with LOOP_START 1 and LOOP_END 2: at next = 2 it wraps to 1, before it does not. -/
theorem witness_OffsetAdvance :
    let s := st [(0x4141, 1#8), (0x4142, 1#8), (0x4143, 2#8)]
    let C := fun (q : Rat) => { Channel.reset with loop := true, offset := q }
    s.params.audioReal = .exactReals ∧ loopStart s 0 = 1 ∧ loopEnd s 0 = 2 ∧ speedByte s 0 = 1
    ∧ nextOffset s (C (2 - 1 / 183)) 0 = 1 ∧ nextOffset s (C 1) 0 = 1 + 1 / 183 := by decide +kernel

theorem witness_SampleScaling : bitcrush (-32767) = -7 * 4681 ∧ bitcrush 32767 = 7 * 4681
    ∧ Surd.wf (Surd.ofRat (-32768 / 32767)) ∧ Surd.trunc (Fmt.mulQ .exactReals 32767 (Surd.ofRat (-32768 / 32767))) = -32768
    ∧ Surd.trunc (Fmt.mulQ .exactReals 32767 (Surd.ofRat (32768 / 32767))) = 32768 := by decide +kernel

/-- A phase of a triangle at t = 1/4, and of the noise. -/
theorem witness_Waveforms : Surd.wf (Surd.ofRat (1 / 4)) ∧ wave .exactReals 0#3 (Surd.ofRat (1 / 4)) = [] ∧ (0#3 : BitVec 3) ≠ 6#3
    ∧ Surd.wf [⟨0, 1 / 22050⟩, ⟨1 / 12, 1⟩] := by decide +kernel

theorem witness_NoteEffects : State.reset.params.audioReal = .exactReals ∧ State.reset.params.vibrato = .formula
    ∧ (effect State.reset ⟨33#6, 0#3, 7#3, 3#3⟩ { Channel.reset with offset := 1 / 2 } 0 0 1) = ⟨[⟨0, 220⟩], 1⟩
    ∧ (effect { State.reset with params := { Params.default with vibrato := .other } } ⟨33#6, 0#3, 7#3, 3#3⟩
        { Channel.reset with offset := 1 / 2 } 0 0 1) = ⟨[⟨0, 220⟩], 1⟩ := by
  decide +kernel

theorem witness_NoOverflowWithoutNoise : Inv playing ∧ playing.params.audioReal = .exactReals
    ∧ playing.ch[(0 : Fin 4)].sfx = some 0 ∧ (noteAt playing 0 0).inst ≠ 6#3
    ∧ (nextOf (exec (.sample 0) playing)).isSome = true := ⟨playing_inv, by decide +kernel⟩

/-- A channel that plays; MEMW to the last byte before SFXT: the SAMPLE can go before or after. -/
theorem witness_SampleCommutes : Inv playing ∧ (Instr.memw 0x40FF 1#8).port ≠ .audio ∧ row (.memw 0x40FF 1#8) ≠ 0x20 ∧ ¬(0x4100 ≤ 0x40FF ∧ 0x40FF < 0x5200) ∧ 0x40FF ≠ 0x5F33
    ∧ ¬(0x5F34 ≤ 0x5F38 ∧ 0x5F38 < 0x5F38)
    ∧ after (.sample 0) (after (.memw 0x40FF 1#8) playing) = after (.memw 0x40FF 1#8) (after (.sample 0) playing) :=
  ⟨playing_inv, by decide +kernel⟩

end Sys2Proof.Tests
end

section
/-! The reals of the audio path that are not negative: every operation a frequency or a phase is computed with keeps
them so, in both formats of `AUDIO_REAL`. -/

namespace Sys2Proof.Machine

/-- A canonical real ≥ 0: what a frequency and a phase are (10_state R52). -/
def Surd.Nonneg (x : Surd) : Prop := Surd.wf x ∧ 0 ≤ Surd.toReal x

theorem Surd.nonneg_nil : Surd.Nonneg [] := ⟨Surd.wf_nil, le_rfl⟩

namespace Fmt

open Surd

/-- The nonnegative reals that no rounding of the format passes: all of them, or the binary32 magnitudes. -/
def Fits (m : AudioReal) (r : ℝ) : Prop :=
  match m with
  | .exactReals => True
  | .binary32 => ∃ q : ℚ, IsMag32 q ∧ r = q

theorem fits_one (m : AudioReal) : Fits m 1 := by
  cases m with
  | exactReals => trivial
  | binary32 => exact ⟨1, ⟨1, 149, by norm_num, by norm_num⟩, by norm_num⟩

theorem fits_rnd (m : AudioReal) {x : Surd} (hx : Surd.Nonneg x) : Fits m (toReal (rnd m x)) := by
  obtain ⟨hw, h0⟩ := hx
  cases m with
  | exactReals => trivial
  | binary32 => exact ⟨round32 x, round32_of_nonneg hw h0 ▸ roundMag32_isMag32 hw h0, toReal_ofRat _⟩

/-- Rounding keeps a magnitude below one that fits the format. -/
theorem abs_toReal_rnd_le (m : AudioReal) {x : Surd} (hx : wf x) {r : ℝ} (hr : Fits m r) (h : |toReal x| ≤ r) :
    |toReal (rnd m x)| ≤ r := by
  cases m with
  | exactReals => exact h
  | binary32 =>
    obtain ⟨q, hq, rfl⟩ := hr
    rw [rnd, toReal_ofRat]
    exact_mod_cast abs_round32_le hx hq h

theorem toReal_rnd_ofRat (m : AudioReal) (q : Rat) : toReal (rnd m (ofRat q)) = rndQ m q := by
  cases m <;> exact toReal_ofRat _

theorem rndQ_le_one (m : AudioReal) {q : Rat} (h0 : 0 ≤ q) (h1 : q ≤ 1) : rndQ m q ≤ 1 := by
  have hq : |toReal (ofRat q)| ≤ 1 := by
    rw [toReal_ofRat, abs_of_nonneg (by exact_mod_cast h0)]
    exact_mod_cast h1
  have h := (le_abs_self _).trans (abs_toReal_rnd_le m (ofRat_wf q) (fits_one m) hq)
  rw [toReal_rnd_ofRat] at h
  exact_mod_cast h

theorem nonneg_rnd (m : AudioReal) {x : Surd} (hx : Surd.Nonneg x) : Surd.Nonneg (rnd m x) :=
  ⟨rnd_wf m hx.1, toReal_rnd_nonneg m hx.1 hx.2⟩

theorem nonneg_add (m : AudioReal) {x y : Surd} (hx : Surd.Nonneg x) (hy : Surd.Nonneg y) : Surd.Nonneg (add m x y) :=
  nonneg_rnd m ⟨Surd.add_wf hx.1 hy.1, by rw [toReal_add]; exact add_nonneg hx.2 hy.2⟩

theorem nonneg_mul (m : AudioReal) {x y : Surd} (hx : Surd.Nonneg x) (hy : Surd.Nonneg y) : Surd.Nonneg (mul m x y) :=
  nonneg_rnd m ⟨Surd.mul_wf x y, by rw [toReal_mul]; exact mul_nonneg hx.2 hy.2⟩

theorem nonneg_scale {q : Rat} {x : Surd} (hq : 0 ≤ q) (hx : Surd.Nonneg x) : Surd.Nonneg (scale q x) :=
  ⟨scale_wf q hx.1, by rw [toReal_scale]; exact mul_nonneg (by exact_mod_cast hq) hx.2⟩

theorem nonneg_mulQ (m : AudioReal) {q : Rat} {x : Surd} (hq : 0 ≤ q) (hx : Surd.Nonneg x) : Surd.Nonneg (mulQ m q x) :=
  nonneg_rnd m (nonneg_scale (rndQ_nonneg m hq) hx)

theorem nonneg_divQ (m : AudioReal) {q : Rat} {x : Surd} (hq : 0 ≤ q) (hx : Surd.Nonneg x) : Surd.Nonneg (divQ m x q) :=
  nonneg_rnd m (nonneg_scale (one_div_nonneg.2 (rndQ_nonneg m hq)) hx)

theorem nonneg_pow2 (m : AudioReal) (e : Rat) : Surd.Nonneg (pow2 m e) :=
  nonneg_rnd m ⟨Surd.pow2_wf e, by rw [toReal_pow2]; positivity⟩

/-- A point between two frequencies, the first in the format, is not negative: a fall of at most p from p is
computed without passing 0, because p fits the format. -/
theorem slide_nonneg (m : AudioReal) {t : Rat} {p f : Surd} (h0 : 0 ≤ t) (h1 : t ≤ 1) (hp : Surd.Nonneg p)
    (hf : Surd.Nonneg f) (hfit : Fits m (toReal p)) : Surd.Nonneg (add m p (mulQ m t (sub m f p))) := by
  have hd : wf (sub m f p) := sub_wf m hf.1 hp.1
  refine nonneg_rnd m ⟨Surd.add_wf hp.1 (mulQ_wf m t hd), ?_⟩
  rw [toReal_add]
  rcases le_total (toReal p) (toReal f) with hle | hle
  · have hup : Surd.Nonneg (sub m f p) :=
      nonneg_rnd m ⟨Surd.sub_wf hf.1 hp.1, by rw [toReal_sub]; exact sub_nonneg.2 hle⟩
    exact add_nonneg hp.2 (nonneg_mulQ m h0 hup).2
  · have hfall : |toReal (sub m f p)| ≤ toReal p := by
      refine abs_toReal_rnd_le m (Surd.sub_wf hf.1 hp.1) hfit ?_
      rw [toReal_sub, abs_le]
      constructor <;> linarith [hf.2, hp.2]
    have hpart : |toReal (mulQ m t (sub m f p))| ≤ toReal p := by
      refine abs_toReal_rnd_le m (scale_wf _ hd) hfit ?_
      have ht0 : (0 : ℝ) ≤ rndQ m t := by exact_mod_cast rndQ_nonneg m h0
      have ht1 : (rndQ m t : ℝ) ≤ 1 := by exact_mod_cast rndQ_le_one m h0 h1
      rw [toReal_scale, abs_mul, abs_of_nonneg ht0]
      exact (mul_le_of_le_one_left (abs_nonneg _) ht1).trans hfall
    linarith [(abs_le.1 hpart).1]

end Fmt

/-! ### One sample of a Playing channel -/

theorem keyFreq_nonneg (m : AudioReal) (k : BitVec 6) : Surd.Nonneg (keyFreq m k) :=
  Fmt.nonneg_mulQ m (by norm_num) (Fmt.nonneg_pow2 m _)

theorem keyFreq_fits (m : AudioReal) (k : BitVec 6) : Fmt.Fits m (Surd.toReal (keyFreq m k)) :=
  Fmt.fits_rnd m (Fmt.nonneg_scale (Fmt.rndQ_nonneg m (by norm_num)) (Fmt.nonneg_pow2 m _))

theorem vibrato_nonneg (p : Params) {freq : Surd} (hf : Surd.Nonneg freq) (offset : Rat) :
    Surd.Nonneg (vibrato p freq offset) := by
  unfold vibrato
  split
  · exact Fmt.nonneg_mul _ hf (Fmt.nonneg_pow2 _ _)
  · have hw : Surd.wf (Fmt.rnd p.audioReal (Surd.normalize (Config.vibratoOther freq offset))) :=
      Fmt.rnd_wf _ (Surd.normalize_wf _)
    dsimp only
    split
    · exact Surd.nonneg_nil
    · next h => exact ⟨hw, not_lt.1 ((Surd.floor_neg_iff hw).not.1 h)⟩

/-- Whatever effect a note has, its frequency is not negative. -/
theorem effect_freq_nonneg (s : State) (N : Note) (C : Channel) (S : Fin 64) (n speed : Nat)
    (h0 : 0 ≤ C.offset - n) (h1 : C.offset - n ≤ 1) : Surd.Nonneg (effect s N C S n speed).freq := by
  have ht0 := Fmt.rndQ_nonneg s.params.audioReal h0
  have ht1 := Fmt.rndQ_le_one s.params.audioReal h0 h1
  have hkey := keyFreq_nonneg s.params.audioReal
  unfold effect
  dsimp only
  split
  · exact Fmt.slide_nonneg _ ht0 ht1 (hkey _) (hkey _) (keyFreq_fits _ _)
  · exact vibrato_nonneg _ (hkey _) _
  · exact Fmt.nonneg_mulQ _ (Fmt.rndQ_nonneg _ (sub_nonneg.2 ht1)) (hkey _)
  all_goals exact hkey _

theorem volOf_mem_unit (m : AudioReal) (v : BitVec 3) : 0 ≤ volOf m v ∧ volOf m v ≤ 1 := by
  have h0 : (0 : Rat) ≤ (v.toNat : Rat) / 7 := by positivity
  have h1 : (v.toNat : Rat) / 7 ≤ 1 := by
    have hv : v.toNat ≤ 7 := by omega
    rw [div_le_one (by norm_num)]
    exact_mod_cast hv
  exact ⟨Fmt.rndQ_nonneg m h0, Fmt.rndQ_le_one m h0 h1⟩

theorem fmodrQ_nonneg (a : Rat) {b : Rat} (hb : 0 < b) : 0 ≤ fmodrQ a b := by
  have h := mul_le_mul_of_nonneg_left (Int.floor_le (a / b)) hb.le
  rw [mul_div_cancel₀ a hb.ne'] at h
  exact sub_nonneg.2 h

theorem nextOffset_nonneg (s : State) {C : Channel} (h0 : 0 ≤ C.offset) (S : Fin 64) : 0 ≤ nextOffset s C S := by
  unfold nextOffset
  dsimp only
  split
  · next h =>
    simp only [Bool.and_eq_true, decide_eq_true_eq] at h
    have hlt : (sfxLoopStart s S : Rat) < sfxLoopEnd s S := by exact_mod_cast h.1.2
    have hmod := Fmt.rndQ_nonneg s.params.audioReal
      (fmodrQ_nonneg (Fmt.rndQ s.params.audioReal
        (Fmt.rndQ s.params.audioReal (C.offset + Fmt.rndQ s.params.audioReal (1 / (183 * (playSpeed s S : Rat))))
          - sfxLoopStart s S)) (sub_pos.2 hlt))
    exact Fmt.rndQ_nonneg _ (by positivity)
  · have hstep : 0 ≤ Fmt.rndQ s.params.audioReal (1 / (183 * (playSpeed s S : Rat))) :=
      Fmt.rndQ_nonneg _ (by positivity)
    exact Fmt.rndQ_nonneg _ (by positivity)

/-- The offset inside its note, as `voiceSample` takes the note's index. -/
theorem sub_floor_toNat_mem_unit {q : Rat} (h : 0 ≤ q) :
    0 ≤ q - (q.floor.toNat : Rat) ∧ q - (q.floor.toNat : Rat) ≤ 1 := by
  have hcast : (q.floor.toNat : Rat) = (⌊q⌋ : Rat) := by
    exact_mod_cast Int.toNat_of_nonneg (Int.floor_nonneg.2 h)
  rw [hcast]
  exact ⟨Int.fract_nonneg q, (Int.fract_lt_one q).le⟩

theorem voiceSample_phase_nonneg (s : State) (c : Fin 4) (S : Fin 64) (h : ChannelOk s.ch[c]) :
    Surd.Nonneg (voiceSample s c S).1 := by
  obtain ⟨⟨h0, -⟩, -, hph, -⟩ := h
  unfold voiceSample
  dsimp only
  split
  · exact hph
  · obtain ⟨ht0, ht1⟩ := sub_floor_toNat_mem_unit h0
    exact Fmt.nonneg_add _ hph
      (Fmt.nonneg_divQ _ (by norm_num) (effect_freq_nonneg _ _ _ _ _ _ ht0 ht1))

/-! ### Channels between two transactions -/

theorem ChannelOk.idle {C : Channel} (h : ChannelOk C) : ChannelOk C.idle := by
  obtain ⟨-, -, hph, hvol⟩ := h
  exact ⟨⟨le_rfl, by norm_num [Channel.idle]⟩, fun _ => rfl, hph, hvol⟩

theorem startedCh_ok (id : Fin 64) {o : Int} (h : o ≤ 31) : ChannelOk (startedCh id o) := by
  have h0 : (0 : Rat) ≤ ((max 0 o : Int) : Rat) := by exact_mod_cast le_max_left 0 o
  have h1 : ((max 0 o : Int) : Rat) < 32 := by
    have : max 0 o < 32 := by omega
    exact_mod_cast this
  exact ⟨⟨h0, h1⟩, fun hn => by simp [startedCh] at hn, Surd.nonneg_nil, le_rfl, zero_le_one⟩

/-- A channel whose offset moves to q ≥ 0, or that ends there (42_audio R282). -/
theorem advanced_ok {C : Channel} {S : Fin 64} {q : Rat} (hS : C.sfx = some S) (hph : Surd.Nonneg C.phase)
    (hvol : 0 ≤ C.prevVol ∧ C.prevVol ≤ 1) (hq : 0 ≤ q) :
    ChannelOk (if 32 ≤ q then C.idle else { C with offset := q }) := by
  split
  · exact ⟨⟨le_rfl, by norm_num [Channel.idle]⟩, fun _ => rfl, hph, hvol⟩
  · next hlt => exact ⟨⟨hq, not_le.1 hlt⟩, fun hn => by simp [hS] at hn, hph, hvol⟩

theorem stepChannel_ok {s : State} {c : Fin 4} {S : Fin 64} (h : ChannelOk s.ch[c]) (hS : s.ch[c].sfx = some S) :
    ChannelOk (stepChannel s c S) := by
  have hphase := voiceSample_phase_nonneg s c S h
  obtain ⟨⟨h0, -⟩, -, -, hvol⟩ := h
  refine advanced_ok (S := S) ?_ ?_ ?_ (nextOffset_nonneg s h0 S) <;> dsimp only
  · split <;> exact hS
  · split <;> exact hphase
  · split
    · exact volOf_mem_unit _ _
    · exact hvol

/-- A sample starts no sfx. -/
theorem stepChannel_sfx {s : State} {c : Fin 4} {S : Fin 64} :
    (stepChannel s c S).sfx = none ∨ (stepChannel s c S).sfx = s.ch[c].sfx := by
  unfold stepChannel
  dsimp only
  split
  · exact .inl rfl
  · split <;> exact .inr rfl

end Sys2Proof.Machine
end

section
/-! What a transaction can do to the state, said once: the shapes of the next state, row by row of the opcode table. -/

namespace Sys2Proof.Machine

/-- `Transition s r t`: a transaction of row r (`Spec.row`) can take s to t. The arguments of a command stand here only as
far as they bound where it writes. -/
inductive Transition (s : State) : Nat → State → Prop where
  | unchanged (r : Nat) : Transition s r s
  | draw {r : Nat} (hr : r ∈ [0x01, 0x04, 0x05, 0x06, 0x07]) (c : Arg) (dots : List Dot) :
      Transition s r (paint (loadColor c s) dots)
  | line (c : Arg) (dots : List Dot) (x y : Half) :
      Transition s 0x03 { paint (loadColor c s) dots with anchorX := x, anchorY := y }
  | blit {r : Nat} (hr : r ∈ [0x10, 0x11, 0x12]) (dots : List Dot) : Transition s r (paint s dots)
  | clip (c : Clip) : Transition s 0x08 { s with clip := c }
  | cls (v : Byte) :
      Transition s 0x09 { s with mem := Memory.fill s.mem fbBase 8192 v, clip := fullClip, cursorX := 0, cursorY := 0 }
  | camera (x y : Half) (ws : List Word) : Transition s 0x0A (respond { s with cameraX := x, cameraY := y } ws)
  | answer {r : Nat} (hr : r ∈ [0x02, 0x13, 0x15, 0x17, 0x1A]) (ws : List Word) : Transition s r (respond s ws)
  | mset {a : Nat} (hlo : mapBase ≤ a) (hhi : a < flagsBase) (v : Byte) : Transition s 0x14 (setArrayByte s a v)
  | ssetColour (c : Arg) : Transition s 0x16 (loadColor c s)
  | sset (c : Arg) {x y : Nat} (hx : x < 128) (hy : y < 128) (n : Nibble) :
      Transition s 0x16 (sheetPut (loadColor c s) x y n)
  | fset {n : Nat} (hn : n < 256) (v : Byte) : Transition s 0x18 (flagsPut s n v)
  | pal (d : Vector (BitVec 5) 16) (p : Vector Byte 16) : Transition s 0x19 { s with drawPal := d, screenPal := p }
  | palt (d : Vector (BitVec 5) 16) : Transition s 0x1A { s with drawPal := d }
  | stop (c : Fin 4) : Transition s 0x20 (updateCh s c Channel.idle)
  | unloop (c : Fin 4) : Transition s 0x20 (updateCh s c (fun C => { C with loop := false }))
  | trigger (c : Fin 4) (id : Fin 64) {o : Int} (ho : o ≤ 31) : Transition s 0x20 (triggerCh s c id o)
  | memr (w : Word) : Transition s 0x100 (respondMem s w)
  | memw (a : Nat) (v : Byte) : Transition s 0x101 (memWrite s a v)
  | silence : Transition s 0x102 (respondAud s 0)
  | sample {c : Fin 4} {S : Fin 64} (hS : s.ch[c].sfx = some S) : Transition s 0x102 (playSample s c S)

section Commands

variable {s t : State}

theorem execLine_transition {x0 y0 x1 y1 c : Arg} (h : execLine x0 y0 x1 y1 c s = .next t) : Transition s 0x03 t := by
  unfold execLine at h
  split at h
  · cases h
    exact .line c _ _ _
  · cases h
    exact .unchanged _

theorem execClip_transition {x y w hh : Arg} (h : execClip x y w hh s = .next t) : Transition s 0x08 t := by
  cases hh <;> obtain rfl := Host.Outcome.next.inj h <;> exact .clip _

theorem onMap_iff {x y : Int} : onMap x y = true ↔ (0 ≤ x ∧ x < 128) ∧ 0 ≤ y ∧ y < 64 := by
  simp [onMap, and_assoc]

theorem onSheet_iff {x y : Int} : onSheet x y = true ↔ (0 ≤ x ∧ x < 128) ∧ 0 ≤ y ∧ y < 128 := by
  simp [onSheet, and_assoc]

theorem mapAddr_bounds {x y : Nat} (hx : x < 128) (hy : y < 64) : mapBase ≤ mapAddr x y ∧ mapAddr x y < flagsBase := by
  unfold mapAddr mapBase flagsBase; omega

theorem execMset_transition {x y v : Arg} (h : execMset x y v s = .next t) : Transition s 0x14 t := by
  unfold execMset at h
  dsimp only at h
  split at h
  · cases h
    exact .unchanged _
  split at h <;> cases h
  · next hon =>
    rw [onMap_iff] at hon
    obtain ⟨hlo, hhi⟩ := mapAddr_bounds (x := (int16 (argWord x)).toNat) (y := (int16 (argWord y)).toNat)
      (by omega) (by omega)
    exact .mset hlo hhi _
  · exact .unchanged _

theorem ssetResolved_transition (x y c : Arg) : Transition s 0x16 (ssetResolved x y c s) := by
  unfold ssetResolved
  dsimp only [resolveColor]
  split
  · next hon =>
    rw [onSheet_iff] at hon
    exact .sset c (by omega) (by omega) _
  · exact .ssetColour c

theorem execSset_transition {x y c : Arg} (h : execSset x y c s = .next t) : Transition s 0x16 t := by
  unfold execSset at h
  split at h <;> cases h
  · exact .unchanged _
  · exact ssetResolved_transition x y c

theorem execFset_transition {n b v : Arg} (h : execFset n b v s = .next t) : Transition s 0x18 t := by
  unfold execFset at h
  dsimp only at h
  split at h
  · cases h
    exact .unchanged _
  split at h
  · next hn =>
    have hn' : (int16 (argWord n)).toNat < 256 := by omega
    split at h
    · cases h
      exact .fset hn' _
    split at h <;> cases h
    · exact .fset hn' _
    · exact .unchanged _
  · cases h
    exact .unchanged _

theorem execPal_transition {c0 c1 p : Arg} (h : execPal c0 c1 p s = .next t) : Transition s 0x19 t := by
  unfold execPal at h
  dsimp only at h
  split at h
  · cases h
    exact .pal _ _
  · split at h
    · cases h
      exact .pal _ s.screenPal
    split at h <;> cases h
    · exact .pal s.drawPal _
    · exact .unchanged _
  all_goals
    cases h
    exact .unchanged _

theorem execPalt_transition {c f : Arg} (h : execPalt c f s = .next t) : Transition s 0x1A t := by
  unfold execPalt at h
  split at h <;> cases h
  · exact .palt _
  · exact .unchanged _
  · exact .answer (by decide) _
  · exact .palt _

theorem execSfx_transition {id ch off : Arg} (h : execSfx id ch off s = .next t) : Transition s 0x20 t := by
  unfold execSfx at h
  dsimp only at h
  split at h
  · cases h
    exact .unchanged _
  next hvalid =>
  split at h
  · split at h <;> cases h
    · exact .unchanged _
    · exact .stop _
  split at h
  · split at h <;> cases h
    · exact .unchanged _
    · exact .unloop _
  · cases h
    refine .trigger _ _ ?_
    simp [sfxArgsValid] at hvalid
    omega

theorem execMemr_transition {a : Nat} (h : execMemr a s = .next t) : Transition s 0x100 t := by
  unfold execMemr at h
  split at h
  · cases h
    exact .memr _
  · cases h

theorem execMemw_transition {a : Nat} {v : Byte} (h : execMemw a v s = .next t) : Transition s 0x101 t := by
  unfold execMemw at h
  split at h
  · cases h
    exact .memw _ _
  · cases h

theorem execSample_transition {ch : Nat} (h : execSample ch s = .next t) : Transition s 0x102 t := by
  unfold execSample at h
  split at h
  · split at h <;> cases h
    · exact .silence
    · next hS => exact .sample hS
  · cases h
    exact .silence

/-- Every transaction is one of the transitions of its row. -/
theorem exec_transition {i : Instr} (h : exec i s = .next t) : Transition s (Spec.row i) t := by
  cases i with
  | nop => cases h; exact .unchanged _
  | pset x y c => cases h; exact .draw (r := 0x01) (by decide) c _
  | pget x y => cases h; exact .answer (r := 0x02) (by decide) _
  | line x0 y0 x1 y1 c => exact execLine_transition h
  | hline x0 x1 y c => cases h; exact .draw (r := 0x04) (by decide) c _
  | vline x y0 y1 c => cases h; exact .draw (r := 0x05) (by decide) c _
  | circ x y r c => cases h; exact .draw (r := 0x06) (by decide) c _
  | circfill x y r c => cases h; exact .draw (r := 0x07) (by decide) c _
  | clip x y w hh => exact execClip_transition h
  | cls c => cases h; exact .cls _
  | camera x y => cases h; exact .camera _ _ _
  | spr n x y w hh fx fy => cases h; exact .blit (r := 0x10) (by decide) _
  | sspr sx sy sw sh dx dy dw dh fx fy =>
    cases h; exact .blit (r := 0x11) (by decide) _
  | map cx cy dx dy cw ch layer => cases h; exact .blit (r := 0x12) (by decide) _
  | mget x y => cases h; exact .answer (r := 0x13) (by decide) _
  | mset x y v => exact execMset_transition h
  | sget x y => cases h; exact .answer (r := 0x15) (by decide) _
  | sset x y c => exact execSset_transition h
  | fget n b => cases h; exact .answer (r := 0x17) (by decide) _
  | fset n b v => exact execFset_transition h
  | pal c0 c1 p => exact execPal_transition h
  | palt c f => exact execPalt_transition h
  | sfx id ch off => exact execSfx_transition h
  | memr a => exact execMemr_transition h
  | memw a v => exact execMemw_transition h
  | sample ch => exact execSample_transition h

/-- A step leaves the state, or consumes words, or runs a transaction on the state without its words. -/
theorem step_cases (h : step s = .next t) : t = s ∨
    ∃ rest, t = { s with inbox := rest } ∨ ∃ i, exec i { s with inbox := rest } = .next t := by
  unfold step at h
  split at h
  · exact .inl (Host.Outcome.next.inj h).symm
  · next port ws rest _ =>
    split at h
    · next i _ _ => exact .inr ⟨rest, .inr ⟨i, h⟩⟩
    · exact .inr ⟨rest, .inl (Host.Outcome.next.inj h).symm⟩
    · exact .inl (Host.Outcome.next.inj h).symm

end Commands

/-- What one sample changes. -/
theorem playSample_eq (s : State) (c : Fin 4) (S : Fin 64) : playSample s c S =
    { s with
      ch := s.ch.set c.val (stepChannel s c S) c.isLt
      audOut := s.audOut ++ [(BitVec.ofInt 16 (voiceSample s c S).2.1).signExtend 32]
      draws := (voiceSample s c S).2.2 } := rfl

end Sys2Proof.Machine
end

section
/-! Which transactions write which register, queue and array, and the invariant of every step. -/

namespace Sys2Proof.Machine

open Spec

/-- Settles O16: each transition of a row leaves every register and queue the row is not a writer of. -/
theorem registerWriters : Obligations.RegisterWriters := by
  intro i s t h
  have hT := exec_transition h
  generalize row i = r at hT ⊢
  cases hT with
  | draw hr => simp at hr ⊢; omega
  | answer hr => simp at hr ⊢; omega
  | sample => simp [playSample_eq]
  | _ => simp

/-! ### The arrays -/

theorem memWrite_mem {s : State} {a : Nat} {v : Byte} :
    (memWrite s a v).mem = if isArray a then Memory.write s.mem (physAddr s.params a) v else s.mem := by
  unfold memWrite
  split
  · rfl
  · split
    · exact writeReg_mem s _ v
    · rfl

/-- A write of one array byte changes the storage of that byte only. -/
theorem eq_physAddr_of_write_changes {s : State} {a b : Nat} {v : Byte}
    (h : Memory.read (Memory.write s.mem (physAddr s.params b) v) a ≠ Memory.read s.mem a) :
    a = physAddr s.params b := by
  by_contra hne
  exact h (Memory.read_write_other _ v (Ne.symm hne))

theorem fb_of_paint_changes {s : State} {dots : List Dot} {a : Nat}
    (h : Memory.read (paint s dots).mem a ≠ Memory.read s.mem a) : fbBase ≤ a ∧ a < fbBase + 8192 := by
  by_contra hne
  exact h (read_paint s dots hne)

theorem physAddr_map_cases (p : Params) {a : Nat} (hlo : mapBase ≤ a) (hhi : a < flagsBase) :
    (mapBase ≤ physAddr p a ∧ physAddr p a < flagsBase)
      ∨ (p.mapSheetShared = true ∧ 0x1000 ≤ physAddr p a ∧ physAddr p a < mapBase) := by
  unfold physAddr
  unfold mapBase flagsBase at *
  split
  · next hs =>
    simp at hs
    exact .inr ⟨hs.1.1, by omega, by omega⟩
  · exact .inl ⟨hlo, hhi⟩

/-- Settles O17: a transition changes an array byte only where its row may write. -/
theorem arrayWriters : Obligations.ArrayWriters := by
  intro i s t a h hne
  have hT := exec_transition h
  generalize row i = r at hT ⊢
  cases hT with
  | draw hr c dots =>
    obtain ⟨hlo, hhi⟩ := fb_of_paint_changes (s := loadColor c s) (by simpa using hne)
    exact .inl ⟨hlo, hhi, by simp at hr ⊢; omega⟩
  | line c dots =>
    obtain ⟨hlo, hhi⟩ := fb_of_paint_changes (s := loadColor c s) (dots := dots) (by simpa using hne)
    exact .inl ⟨hlo, hhi, by simp⟩
  | blit hr dots =>
    obtain ⟨hlo, hhi⟩ := fb_of_paint_changes hne
    exact .inl ⟨hlo, hhi, by simp at hr ⊢; omega⟩
  | cls v =>
    have hfb : fbBase ≤ a ∧ a < fbBase + 8192 := by
      by_contra hout
      exact hne ((Memory.read_fill s.mem fbBase 8192 v a).trans (if_neg hout))
    exact .inl ⟨hfb.1, hfb.2, by simp⟩
  | mset hlo hhi v =>
    obtain rfl := eq_physAddr_of_write_changes hne
    rcases physAddr_map_cases s.params hlo hhi with hmap | ⟨hshared, hsheet⟩
    · exact .inr (.inr (.inl ⟨hmap.1, hmap.2, by simp⟩))
    · exact .inr (.inl ⟨hsheet.2, .inr ⟨rfl, hshared, hsheet.1⟩⟩)
  | sset c hx hy n =>
    have hsheet : sheetBase ≤ a ∧ a < sheetBase + 8192 := by
      by_contra hout
      exact hne (by simpa using read_pixelPut (loadColor c s).mem n hx hy hout)
    exact .inr (.inl ⟨hsheet.2, .inl (by simp)⟩)
  | fset hn v =>
    obtain rfl := eq_physAddr_of_write_changes hne
    rw [physAddr_of_ge (by unfold flagsBase; omega)]
    exact .inr (.inr (.inr (.inl ⟨by unfold flagsBase; omega, by unfold flagsBase; omega, by simp⟩)))
  | memw b v =>
    rw [memWrite_mem] at hne
    split at hne
    · next hb =>
      obtain rfl := eq_physAddr_of_write_changes hne
      have := isArray_iff.1 (physAddr_isArray (p := s.params) hb).1
      simp; omega
    · exact absurd rfl hne
  | _ => simp [playSample_eq] at hne

/-! ### The invariant -/

/-- The invariant speaks of the parameters, the memory and the channels only. -/
theorem Inv.of_eq {s t : State} (h : Inv s) (hp : t.params = s.params) (hm : t.mem = s.mem) (hc : t.ch = s.ch) :
    Inv t where
  memWf := hm ▸ h.memWf
  memArray := by
    intro c hcell
    rw [hp]
    exact h.memArray c (hm ▸ hcell)
  channels := hc ▸ h.channels
  distinct := by
    intro a b id
    rw [hc]
    exact h.distinct a b id

/-- A change of the memory to another canonical one whose new bytes are listed at their storage keeps the invariant. -/
theorem Inv.of_mem {s t : State} (h : Inv s) (hp : t.params = s.params) (hc : t.ch = s.ch) (hwf : Memory.wf t.mem)
    (hmem : ∀ c ∈ t.mem, c ∈ s.mem ∨ (isArray c.1 = true ∧ physAddr s.params c.1 = c.1)) : Inv t where
  memWf := hwf
  memArray := by
    intro c hcell
    rw [hp]
    exact (hmem c hcell).elim (h.memArray c) id
  channels := hc ▸ h.channels
  distinct := by
    intro a b id
    rw [hc]
    exact h.distinct a b id

theorem storage_fb (p : Params) {a : Nat} (h : fbBase ≤ a ∧ a < fbBase + 8192) :
    isArray a = true ∧ physAddr p a = a := by
  unfold fbBase at h
  exact ⟨isArray_iff.2 (by omega), physAddr_of_ge (by omega)⟩

theorem storage_sheet (p : Params) {a : Nat} (h : sheetBase ≤ a ∧ a < sheetBase + 8192) :
    isArray a = true ∧ physAddr p a = a := by
  unfold sheetBase at h
  exact ⟨isArray_iff.2 (by omega), physAddr_of_lt (by omega)⟩

theorem Inv.loadColor {s : State} (h : Inv s) (c : Arg) : Inv (loadColor c s) := h.of_eq (by simp) (by simp) (by simp)

theorem Inv.paint {s : State} (h : Inv s) (dots : List Dot) : Inv (paint s dots) :=
  h.of_mem rfl rfl (paint_wf h.memWf dots) fun _ hc => (mem_paint hc).imp_right (storage_fb _)

theorem Inv.setArrayByte {s : State} (h : Inv s) {a : Nat} (ha : isArray a = true) (v : Byte) :
    Inv (setArrayByte s a v) := by
  refine h.of_mem rfl rfl (setArrayByte_wf h.memWf a v) fun c hc => ?_
  rcases Memory.mem_write hc with hca | hc
  · exact .inr (hca ▸ physAddr_isArray ha)
  · exact .inl hc

theorem Inv.sheetPut {s : State} (h : Inv s) {x y : Nat} (hx : x < 128) (hy : y < 128) (n : Nibble) :
    Inv (sheetPut s x y n) :=
  h.of_mem rfl rfl (pixelPut_wf h.memWf _ _ _ _) fun _ hc => (mem_pixelPut hc hx hy).imp_right (storage_sheet _)

theorem Inv.memWrite {s : State} (h : Inv s) (a : Nat) (v : Byte) : Inv (memWrite s a v) := by
  by_cases ha : isArray a = true
  · rw [memWrite_array ha]
    exact h.setArrayByte ha v
  · exact h.of_eq (by simp) (by simp [memWrite_mem, ha]) (by simp)

/-- A channel may take any legal state that starts no sfx. -/
theorem Inv.updateCh {s : State} (h : Inv s) (c : Fin 4) {f : Channel → Channel} (hok : ChannelOk (f s.ch[c]))
    (hsfx : (f s.ch[c]).sfx = none ∨ (f s.ch[c]).sfx = s.ch[c].sfx) : Inv (updateCh s c f) where
  memWf := h.memWf
  memArray := h.memArray
  channels := by
    intro d
    by_cases hd : d = c
    · subst hd
      rwa [updateCh_same]
    · rw [updateCh_other s f hd]
      exact h.channels d
  distinct := by
    have hold : ∀ (d : Fin 4) (id : Fin 64), (Machine.updateCh s c f).ch[d].sfx = some id → s.ch[d].sfx = some id := by
      intro d id hd
      by_cases hdc : d = c
      · subst hdc
        rw [updateCh_same] at hd
        rcases hsfx with hn | he
        · cases hn.symm.trans hd
        · exact he ▸ hd
      · rwa [updateCh_other s f hdc] at hd
    exact fun a b id ha hb => h.distinct a b id (hold a id ha) (hold b id hb)

/-- A trigger stops the id wherever else it plays, so no two channels play one id. -/
theorem Inv.triggerCh {s : State} (h : Inv s) (c : Fin 4) (id : Fin 64) {o : Int} (ho : o ≤ 31) :
    Inv (triggerCh s c id o) where
  memWf := h.memWf
  memArray := h.memArray
  channels := by
    intro d
    rw [triggerCh_get]
    split
    · exact startedCh_ok id ho
    split
    · exact (h.channels d).idle
    · exact h.channels d
  distinct := by
    have hplays : ∀ (d : Fin 4) (k : Fin 64), (Machine.triggerCh s c id o).ch[d].sfx = some k →
        (d = c ∧ k = id) ∨ (d ≠ c ∧ k ≠ id ∧ s.ch[d].sfx = some k) := by
      intro d k hd
      rw [triggerCh_get] at hd
      split at hd
      · next hdc => exact .inl ⟨hdc, (Option.some.inj hd).symm⟩
      next hdc =>
      split at hd
      · simp [Channel.idle] at hd
      · next hid => exact .inr ⟨hdc, fun hk => hid (hk ▸ hd), hd⟩
    intro a b k ha hb
    rcases hplays a k ha with ⟨rfl, rfl⟩ | ⟨-, hk, ha'⟩ <;>
      rcases hplays b _ hb with ⟨rfl, hk'⟩ | ⟨-, hk', hb'⟩
    · rfl
    · exact absurd rfl hk'
    · exact absurd hk' hk
    · exact h.distinct a b k ha' hb'

theorem Inv.playSample {s : State} (h : Inv s) {c : Fin 4} {S : Fin 64} (hS : s.ch[c].sfx = some S) :
    Inv (playSample s c S) :=
  (h.updateCh c (f := fun _ => stepChannel s c S) (stepChannel_ok (h.channels c) hS) stepChannel_sfx).of_eq rfl rfl rfl

theorem Transition.inv {s t : State} {r : Nat} (hT : Transition s r t) (h : Inv s) : Inv t := by
  cases hT with
  | draw _ c dots => exact (h.loadColor c).paint dots
  | line c dots => exact ((h.loadColor c).paint dots).of_eq rfl rfl rfl
  | blit _ dots => exact h.paint dots
  | cls v =>
    exact h.of_mem rfl rfl (Memory.fill_wf h.memWf fbBase 8192 v)
      fun _ hc => (Memory.mem_fill hc).symm.imp_right (storage_fb _)
  | mset hlo hhi v => exact h.setArrayByte (isArray_iff.2 (by unfold flagsBase at hhi; omega)) v
  | ssetColour c => exact h.loadColor c
  | sset c hx hy n => exact (h.loadColor c).sheetPut hx hy n
  | fset hn v => exact h.setArrayByte (isArray_iff.2 (by unfold flagsBase; omega)) v
  | stop c => exact h.updateCh c (h.channels c).idle (.inl rfl)
  | unloop c => exact h.updateCh c (h.channels c) (.inr rfl)
  | trigger c id ho => exact h.triggerCh c id ho
  | memw a v => exact h.memWrite a v
  | sample hS => exact h.playSample hS
  | _ => exact h.of_eq rfl rfl rfl

/-- Settles O13: every transition keeps the invariant, and the words a step consumes are not part of it. -/
theorem stepKeepsInvariant : Obligations.StepKeepsInvariant := by
  intro s t h hstep
  rcases step_cases hstep with rfl | ⟨rest, rfl | ⟨i, hi⟩⟩
  · exact h
  · exact h.of_eq rfl rfl rfl
  · exact (exec_transition hi).inv (h.of_eq rfl rfl rfl)

end Sys2Proof.Machine
end

section
/-! The register window at the memory port, address by address: what a write of each register changes. -/

namespace Sys2Proof.Machine

theorem writeReg_drawPal (s : State) {k : Nat} (h : k < 16) (v : Byte) :
    writeReg s k v = { s with drawPal := s.drawPal.set k (v.setWidth 5) h } := by
  rw [writeReg, dif_pos h]

theorem writeReg_screenPal (s : State) {k : Nat} (h : k < 16) (v : Byte) :
    writeReg s (16 + k) v = { s with screenPal := s.screenPal.set k v h } := by
  rw [writeReg, dif_neg (by omega), dif_pos (by omega)]
  simp only [Nat.add_sub_cancel_left]

/-- The read-only views CHSFX ignore a write (10_state R45). -/
theorem writeReg_chsfx (s : State) (c : Fin 4) (v : Byte) : writeReg s (0x34 + c.val) v = s := by
  fin_cases c <;> rfl

/-- The reserved register addresses: 0x5F27 and those from 0x5F38 on (10_state R34). -/
theorem readReg_reserved (s : State) {k : Nat} (h : k = 0x27 ∨ 0x38 ≤ k) : readReg s k = 0 := by
  rw [readReg, dif_neg (by omega), dif_neg (by omega), dif_neg (by omega)]
  split
  case h_20 => rfl
  all_goals omega

theorem writeReg_reserved (s : State) {k : Nat} (h : k = 0x27 ∨ 0x38 ≤ k) (v : Byte) : writeReg s k v = s := by
  rw [writeReg, dif_neg (by omega), dif_neg (by omega)]
  split
  case h_20 => rfl
  all_goals omega

/-- A register address of the memory port is an address of the window. -/
theorem memRead_regBase (s : State) {k : Nat} (h : k < 0x80) : memRead s (0x5F00 + k) = readReg s k := by
  rw [memRead_register (isRegister_iff.2 (by omega))]
  unfold regBase
  rw [Nat.add_sub_cancel_left]

theorem exec_memw_regBase (s : State) {k : Nat} (h : k < 0x80) (v : Byte) :
    exec (.memw (0x5F00 + k) v) s = .next (writeReg s k v) := by
  have hmemw : exec (.memw (0x5F00 + k) v) s = .next (memWrite s (0x5F00 + k) v) := if_pos (by omega)
  rw [hmemw, memWrite_register (isRegister_iff.2 (by omega))]
  unfold regBase
  rw [Nat.add_sub_cancel_left]

theorem exec_memw_reserved (s : State) {a : Nat} (h : a < 2 ^ 16) (ha : isArray a = false) (hr : isRegister a = false)
    (v : Byte) : exec (.memw a v) s = .next s := by
  have hmemw : exec (.memw a v) s = .next (memWrite s a v) := if_pos h
  rw [hmemw, memWrite_reserved ha hr]

theorem toNat_clipByte (x : Fin 129) : (BitVec.ofNat 8 x.val).toNat = x.val := by
  rw [BitVec.toNat_ofNat]
  omega

theorem toInt_chsfxByte (c : Channel) : (chsfxByte c).toInt = sfxInt c := by
  unfold chsfxByte sfxInt
  split
  · next S _ =>
    rw [BitVec.toInt_ofInt_eq_self (by decide) (by omega) (by omega)]
  · rfl

/-- Settles O20: each clause is the reading and the writing of one register of the window. -/
theorem registerMap : Obligations.RegisterMap := by
  intro s v
  refine ⟨fun i => ⟨?_, ?_⟩, fun i => ⟨?_, ?_⟩,
    ⟨toNat_clipByte _, toNat_clipByte _, toNat_clipByte _, toNat_clipByte _⟩,
    ⟨clipOfByte v, rfl, rfl, rfl, rfl, rfl⟩, ⟨rfl, rfl⟩, ⟨rfl, rfl⟩, ⟨rfl, rfl⟩, ⟨rfl, rfl, rfl, rfl⟩,
    ⟨rfl, rfl, rfl, rfl⟩, ⟨rfl, rfl, rfl, rfl⟩, ⟨rfl, rfl, rfl, rfl⟩, ⟨rfl, rfl, rfl, rfl⟩, ⟨rfl, rfl⟩,
    ⟨?_, rfl⟩, fun c => ⟨?_, ?_⟩, fun a ha => ?_⟩
  · rw [memRead_regBase s (by omega), readReg_drawPal s i.isLt]
    exact BitVec.setWidth_eq_append (by decide)
  · rw [exec_memw_regBase s (by omega), writeReg_drawPal s i.isLt]
    rfl
  · rw [show 0x5F10 + i.val = 0x5F00 + (16 + i.val) by omega, memRead_regBase s (by omega), readReg_screenPal s i.isLt]
    rfl
  · rw [show 0x5F10 + i.val = 0x5F00 + (16 + i.val) by omega, exec_memw_regBase s (by omega),
      writeReg_screenPal s i.isLt]
  · exact BitVec.setWidth_eq_append (show 4 ≤ 8 by decide)
  · rw [show 0x5F34 + c.val = 0x5F00 + (0x34 + c.val) by omega, memRead_regBase s (by omega), readReg_chsfx,
      toInt_chsfxByte, sfxInt]
    cases s.ch[c].sfx <;> rfl
  · rw [show 0x5F34 + c.val = 0x5F00 + (0x34 + c.val) by omega, exec_memw_regBase s (by omega), writeReg_chsfx]
  · by_cases hr : isRegister a = true
    · have hk := isRegister_iff.1 hr
      obtain ⟨k, rfl⟩ := Nat.exists_eq_add_of_le hk.1
      have hres : k = 0x27 ∨ 0x38 ≤ k := by omega
      rw [memRead_regBase s (by omega), exec_memw_regBase s (by omega)]
      exact ⟨readReg_reserved s hres, congrArg _ (writeReg_reserved s hres v)⟩
    · have hna : isArray a = false := by
        rw [Bool.eq_false_iff, ne_eq, isArray_iff]
        omega
      rw [Bool.not_eq_true] at hr
      exact ⟨memRead_reserved hna hr, exec_memw_reserved s (by omega) hna hr v⟩

end Sys2Proof.Machine
end

section
/-! What the encoder writes the decoder reads back (30_encoding R100, R101, R103, R104, R109), and what the decoder
reads is a transaction of its port. -/

namespace Sys2Proof

/-! ### The presence mask and the slots it announces -/

theorem popcountTo_succ (n : Nat) (p : Half) : popcountTo (n + 1) p = popcountTo n p + (p.getLsbD n).toNat := by
  rw [popcountTo, Nat.add_comm, Bool.toNat]
  cases p.getLsbD n <;> rfl

theorem popcountTo_eq_length_filter (n : Nat) (p : Half) :
    popcountTo n p = ((List.range n).filter (fun i => p.getLsbD i)).length := by
  induction n with
  | zero => rfl
  | succ n ih =>
    rw [popcountTo_succ, ih, List.range_succ, List.filter_append, List.length_append]
    cases h : p.getLsbD n <;> simp [h]

theorem argCount_eq_popcount (h : Word) : argCount h = Spec.popcount (Spec.maskField h) :=
  popcountTo_eq_length_filter 16 _

/-- The bits of p from bit k on tell which of the slots are present. -/
def Announces (p : Half) (k : Nat) (slots : List Arg) : Prop :=
  ∀ (j : Nat) (hj : j < slots.length), p.getLsbD (k + j) = slots[j].isSome

theorem popcountTo_of_announces {p : Half} {slots : List Arg} (h : Announces p 0 slots) :
    popcountTo slots.length p = slots.reduceOption.length := by
  induction slots using List.reverseRecOn with
  | nil => rfl
  | append_singleton slots a ih =>
    have hfront : Announces p 0 slots := fun j hj => by
      rw [h j (by rw [List.length_append]; omega), List.getElem_append_left hj]
    have hlast : p.getLsbD slots.length = a.isSome := by
      simpa using h slots.length (by simp)
    rw [List.length_append, List.length_singleton, popcountTo_succ, ih hfront, hlast, List.reduceOption_append,
      List.length_append, List.reduceOption_singleton]
    cases a <;> rfl

theorem slotsFrom_of_announces {p : Half} {k : Nat} {slots : List Arg} (h : Announces p k slots) :
    slotsFrom slots.length k p slots.reduceOption = slots := by
  induction slots generalizing k with
  | nil => rfl
  | cons a slots ih =>
    have hfirst : p.getLsbD k = a.isSome := h 0 (by simp)
    have hrest : Announces p (k + 1) slots := fun j hj => by
      rw [Nat.add_assoc, Nat.add_comm 1 j]
      exact h (j + 1) (by simpa using hj)
    rw [List.length_cons, slotsFrom, hfirst]
    cases a with
    | none => simpa using ih hrest
    | some w => simpa using ih hrest

theorem getLsbD_presenceOf_cons (a : Arg) (slots : List Arg) {k : Nat} (hk : k < 16) :
    (presenceOf (a :: slots)).getLsbD k = if k = 0 then a.isSome else (presenceOf slots).getLsbD (k - 1) := by
  have hfirst : (if a.isSome then 1 else 0 : Half).getLsbD k = (decide (k = 0) && a.isSome) := by
    cases a <;> simp [BitVec.getLsbD_one]
  rw [presenceOf, BitVec.getLsbD_or, hfirst, BitVec.getLsbD_shiftLeft]
  by_cases h0 : k = 0 <;> simp [h0, hk]

theorem getLsbD_presenceOf (slots : List Arg) {k : Nat} (hk : k < 16) :
    (presenceOf slots).getLsbD k = (slots.getD k none).isSome := by
  induction slots generalizing k with
  | nil => simp [presenceOf]
  | cons a slots ih =>
    rw [getLsbD_presenceOf_cons a slots hk]
    cases k with
    | zero => rfl
    | succ k => simpa using ih (k := k) (by omega)

/-- The sixteen slots of a packet: a command's slots, and the absent ones above them. -/
def sixteenSlots (slots : List Arg) : List Arg := slots ++ List.replicate (16 - slots.length) none

theorem length_sixteenSlots {slots : List Arg} (h : slots.length ≤ 16) : (sixteenSlots slots).length = 16 := by
  rw [sixteenSlots, List.length_append, List.length_replicate]
  omega

theorem reduceOption_sixteenSlots (slots : List Arg) : (sixteenSlots slots).reduceOption = slots.reduceOption := by
  rw [sixteenSlots, List.reduceOption_append, List.reduceOption_replicate_none, List.append_nil]

theorem presenceOf_announces {slots : List Arg} (h : slots.length ≤ 16) :
    Announces (presenceOf slots) 0 (sixteenSlots slots) := by
  intro j hj
  rw [length_sixteenSlots h] at hj
  rw [Nat.zero_add, getLsbD_presenceOf slots hj]
  simp only [sixteenSlots, List.getElem_append]
  split
  · next hlt => rw [List.getD_eq_getElem _ _ hlt]
  · next hge => simp [not_lt.1 hge]

/-! ### A command packet -/

theorem Header.op_mk (z : Byte) (p : Half) (op : Byte) : Header.op (Header.mk z p op) = op :=
  BitVec.extractLsb'_append_eq_right (a := z ++ p) (b := op)

theorem Header.presence_mk (z : Byte) (p : Half) (op : Byte) : Header.presence (Header.mk z p op) = p := by
  rw [Header.presence, Header.mk, BitVec.extractLsb'_append_eq_of_le (by decide)]
  exact BitVec.extractLsb'_append_eq_right (a := z) (b := p)

theorem Header.z_mk (z : Byte) (p : Half) (op : Byte) : Header.z (Header.mk z p op) = z := by
  rw [Header.z, Header.mk, BitVec.extractLsb'_append_eq_of_le (by decide)]
  exact BitVec.extractLsb'_append_eq_left (a := z) (b := p)

theorem argCount_mk_presenceOf {slots : List Arg} (h : slots.length ≤ 16) (z op : Byte) :
    argCount (Header.mk z (presenceOf slots) op) = slots.reduceOption.length := by
  have hcount := popcountTo_of_announces (presenceOf_announces h)
  rwa [length_sixteenSlots h, reduceOption_sixteenSlots, ← Header.presence_mk z (presenceOf slots) op] at hcount

theorem decodeCommand_encodeCommand {slots : List Arg} (h : slots.length ≤ 16) (op : Byte) (rest : List Word)
    {i : Instr} (hi : commandOf op.toNat (sixteenSlots slots) = some i) :
    decodeCommand (encodeCommand op slots ++ rest) = .instr i rest := by
  have hslots := slotsFrom_of_announces (presenceOf_announces h)
  rw [length_sixteenSlots h, reduceOption_sixteenSlots] at hslots
  simp only [encodeCommand, List.cons_append, decodeCommand, argCount_mk_presenceOf h, Header.op_mk, Header.presence_mk,
    Header.z_mk, List.take_left, List.drop_left, hslots, hi]
  simp

theorem length_slots_le (i : Instr) : i.slots.length ≤ 16 := by
  cases i <;> simp [Instr.slots]

theorem encode_of_command {i : Instr} (h : i.port = .command) : encode i = encodeCommand (i.opcode.getD 0) i.slots := by
  cases i with
  | memr a => cases h
  | memw a v => cases h
  | sample c => cases h
  | _ => rfl

theorem commandOf_opcode_slots {i : Instr} (h : i.port = .command) :
    commandOf (i.opcode.getD 0).toNat (sixteenSlots i.slots) = some i := by
  cases i with
  | memr a => cases h
  | memw a v => cases h
  | sample c => cases h
  | _ => rfl

/-! ### A word of the memory port, laid out like a header: [31:24], ADDR, DATA -/

theorem extractLsb'_24_7_mk (z : Byte) (p : Half) (op : Byte) :
    (Header.mk z p op).extractLsb' 24 7 = z.extractLsb' 0 7 := by
  rw [Header.mk, BitVec.extractLsb'_append_eq_of_le (by decide), BitVec.extractLsb'_append_eq_of_le (by decide)]

theorem getLsbD_31_mk (z : Byte) (p : Half) (op : Byte) : (Header.mk z p op).getLsbD 31 = z.getLsbD 7 := by
  rw [Header.mk, BitVec.getLsbD_append, BitVec.getLsbD_append]
  rfl

theorem decodeMemory_read (a : Half) (v : Byte) (rest : List Word) :
    decodeMemory (Header.mk 0#8 a v :: rest) = .instr (.memr a.toNat) rest := by
  have haddr : (Header.mk 0#8 a v).extractLsb' 8 16 = a := Header.presence_mk 0#8 a v
  rw [decodeMemory, extractLsb'_24_7_mk, getLsbD_31_mk, haddr]
  rfl

theorem decodeMemory_write (a : Half) (v : Byte) (rest : List Word) :
    decodeMemory (Header.mk 0x80#8 a v :: rest) = .instr (.memw a.toNat v) rest := by
  have haddr : (Header.mk 0x80#8 a v).extractLsb' 8 16 = a := Header.presence_mk 0x80#8 a v
  have hdata : (Header.mk 0x80#8 a v).extractLsb' 0 8 = v := Header.op_mk 0x80#8 a v
  rw [decodeMemory, extractLsb'_24_7_mk, getLsbD_31_mk, haddr, hdata]
  rfl

/-- The decoder reads back what the encoder wrote, and leaves what follows. -/
theorem decode_encode {i : Instr} (h : WellFormed i = true) (rest : List Word) :
    decode i.port (encode i ++ rest) = .instr i rest := by
  cases hport : i.port with
  | command =>
    rw [encode_of_command hport, decode]
    exact decodeCommand_encodeCommand (length_slots_le i) (i.opcode.getD 0) rest (commandOf_opcode_slots hport)
  | memory =>
    cases i with
    | memr a =>
      have ha : a < 2 ^ 16 := by simpa [WellFormed] using h
      have hread := decodeMemory_read (BitVec.ofNat 16 a) 0#8 rest
      rwa [BitVec.toNat_ofNat, Nat.mod_eq_of_lt ha] at hread
    | memw a v =>
      have ha : a < 2 ^ 16 := by simpa [WellFormed] using h
      have hwrite := decodeMemory_write (BitVec.ofNat 16 a) v rest
      rwa [BitVec.toNat_ofNat, Nat.mod_eq_of_lt ha] at hwrite
    | _ => cases hport
  | audio =>
    cases i with
    | sample c =>
      have hc : c < 2 ^ 8 := by simpa [WellFormed] using h
      have hch : (0#24 ++ BitVec.ofNat 8 c).extractLsb' 0 8 = BitVec.ofNat 8 c :=
        BitVec.extractLsb'_append_eq_right (a := 0#24) (b := BitVec.ofNat 8 c)
      change decodeAudio ((0#24 ++ BitVec.ofNat 8 c) :: rest) = _
      rw [decodeAudio, hch, BitVec.toNat_ofNat, Nat.mod_eq_of_lt hc]
    | _ => cases hport

/-! ### What the decoder reads -/

theorem commandOf_wellFormed {op : Nat} {a : List Arg} {i : Instr} (h : commandOf op a = some i) :
    WellFormed i = true ∧ i.port = .command := by
  unfold commandOf at h
  dsimp only at h
  split at h <;> cases h <;> exact ⟨rfl, rfl⟩

theorem decodeCommand_wellFormed {ws rest : List Word} {i : Instr} (h : decodeCommand ws = .instr i rest) :
    WellFormed i = true ∧ i.port = .command := by
  cases ws with
  | nil => cases h
  | cons hd ws =>
    rw [decodeCommand] at h
    split at h
    · cases h
    split at h
    · cases h
    split at h
    · next hi =>
      cases h
      exact commandOf_wellFormed hi
    · cases h

/-- An address is 16 bits of the word it is read from (30_encoding R103). -/
theorem decodeMemory_wellFormed {ws rest : List Word} {i : Instr} (h : decodeMemory ws = .instr i rest) :
    WellFormed i = true ∧ i.port = .memory := by
  cases ws with
  | nil => cases h
  | cons w ws =>
    have haddr := (w.extractLsb' 8 16).isLt
    rw [decodeMemory] at h
    split at h
    · cases h
    split at h <;> cases h <;> exact ⟨decide_eq_true haddr, rfl⟩

/-- A channel is 8 bits of the word it is read from (30_encoding R104). -/
theorem decodeAudio_wellFormed {ws rest : List Word} {i : Instr} (h : decodeAudio ws = .instr i rest) :
    WellFormed i = true ∧ i.port = .audio := by
  cases ws with
  | nil => cases h
  | cons w ws =>
    cases h
    exact ⟨decide_eq_true (w.extractLsb' 0 8).isLt, rfl⟩

/-- Settles O2, port by port. -/
theorem decodedIsWellFormed : Obligations.DecodedIsWellFormed := by
  intro p ws rest i h
  cases p with
  | command => exact decodeCommand_wellFormed h
  | memory => exact decodeMemory_wellFormed h
  | audio => exact decodeAudio_wellFormed h

end Sys2Proof
end

section
/-! What a SAMPLE reads, and that no transaction of the command agent but SFX and a read of CHSFX reads what a SAMPLE
writes (20_memory R82, R83). -/

namespace Sys2Proof.Machine

open Spec

/-- s with what a SAMPLE writes as u has it: the channels, the audio responses and the draw counter. -/
def State.withAudio (s u : State) : State := { s with ch := u.ch, audOut := u.audOut, draws := u.draws }

/-- An outcome with its next state's audio part as u has it. -/
def outWithAudio (u : State) : Out → Out
  | .next t => .next (t.withAudio u)
  | .fault r => .fault r
  | .refused r => .refused r

/-! ### What a SAMPLE reads -/

/-- t agrees with s on all that a SAMPLE reads, up to the four notes of the block that a Playing channel stands in. -/
structure SameSampleInputs (s t : State) : Prop where
  params : t.params = s.params
  ch : t.ch = s.ch
  distort : t.distort = s.distort
  audOut : t.audOut = s.audOut
  draws : t.draws = s.draws
  notes : ∀ (c : Fin 4) (S : Fin 64) (i : Nat), i / 4 = s.ch[c].offset.floor.toNat / 4 → noteAt t S i = noteAt s S i
  speed : ∀ S : Fin 64, sfxSpeed t S = sfxSpeed s S
  loopStart : ∀ S : Fin 64, sfxLoopStart t S = sfxLoopStart s S
  loopEnd : ∀ S : Fin 64, sfxLoopEnd t S = sfxLoopEnd s S

/-- An arpeggio stays in the block of four notes it stands in (42_audio R276). -/
theorem arpeggioNote_div_four (m : AudioReal) (fx : BitVec 3) (offset : Rat) (n speed : Nat) :
    arpeggioNote m fx offset n speed / 4 = n / 4 := by
  unfold arpeggioNote
  dsimp only
  omega

section

variable {s t : State} (h : SameSampleInputs s t)
include h

theorem effect_of_sameSampleInputs (N : Note) (c : Fin 4) (S : Fin 64) (speed : Nat) :
    effect t N s.ch[c] S s.ch[c].offset.floor.toNat speed = effect s N s.ch[c] S s.ch[c].offset.floor.toNat speed := by
  unfold effect
  simp only [h.params, h.notes c S _ (arpeggioNote_div_four _ _ _ _ _)]

theorem voiceSample_of_sameSampleInputs (c : Fin 4) (S : Fin 64) : voiceSample t c S = voiceSample s c S := by
  unfold voiceSample playSpeed
  simp only [h.params, h.ch, h.distort, h.draws, h.speed, h.notes c S _ rfl, effect_of_sameSampleInputs h]

theorem nextOffset_of_sameSampleInputs (C : Channel) (S : Fin 64) : nextOffset t C S = nextOffset s C S := by
  unfold nextOffset playSpeed
  simp only [h.params, h.speed, h.loopStart, h.loopEnd]

theorem stepChannel_of_sameSampleInputs (c : Fin 4) (S : Fin 64) : stepChannel t c S = stepChannel s c S := by
  unfold stepChannel
  simp only [h.params, h.ch, h.notes c S _ rfl, voiceSample_of_sameSampleInputs h, nextOffset_of_sameSampleInputs h]

theorem playSample_of_sameSampleInputs (c : Fin 4) (S : Fin 64) :
    playSample t c S = t.withAudio (playSample s c S) := by
  simp only [playSample_eq, State.withAudio, h.ch, h.audOut, stepChannel_of_sameSampleInputs h,
    voiceSample_of_sameSampleInputs h]

/-- A SAMPLE never stops, changes nothing but the audio part, and does the same wherever its inputs are the same. -/
theorem exec_sample_of_sameSampleInputs (c : Nat) : ∃ u, exec (.sample c) s = .next (s.withAudio u)
    ∧ exec (.sample c) t = .next (t.withAudio u) := by
  have hsilent : respondAud t 0 = t.withAudio (respondAud s 0) := by
    simp only [respondAud, State.withAudio, h.ch, h.audOut, h.draws]
  change ∃ u, execSample c s = .next (s.withAudio u) ∧ execSample c t = .next (t.withAudio u)
  unfold execSample
  rw [h.ch]
  split
  · split
    · exact ⟨respondAud s 0, rfl, congrArg _ hsilent⟩
    · exact ⟨playSample s _ _, rfl, congrArg _ (playSample_of_sameSampleInputs h _ _)⟩
  · exact ⟨respondAud s 0, rfl, congrArg _ hsilent⟩

end

/-! ### What no other transaction of the command agent reads -/

theorem exec_memr_eq_next {a : Nat} {s t : State} :
    exec (.memr a) s = .next t ↔ a < 2 ^ 16 ∧ t = respondMem s ((memRead s a).setWidth 32) := by
  change execMemr a s = .next t ↔ _
  unfold execMemr
  split
  · next ha => simp only [Host.Outcome.next.injEq, ha, true_and, eq_comm]
  · next ha => simp only [reduceCtorEq, ha, false_and]

theorem exec_memw_eq_next {a : Nat} {v : Byte} {s t : State} :
    exec (.memw a v) s = .next t ↔ a < 2 ^ 16 ∧ t = memWrite s a v := by
  change execMemw a v s = .next t ↔ _
  unfold execMemw
  split
  · next ha => simp only [Host.Outcome.next.injEq, ha, true_and, eq_comm]
  · next ha => simp only [reduceCtorEq, ha, false_and]

section

variable (s u : State)

theorem loadColor_withAudio (c : Arg) : loadColor c (s.withAudio u) = (loadColor c s).withAudio u := by
  cases c with
  | none => rfl
  | some w =>
    have hmode : (s.withAudio u).fillpMode = s.fillpMode := rfl
    unfold loadColor
    dsimp only
    rw [hmode]
    split <;> rfl

theorem execLine_withAudio (x0 y0 x1 y1 c : Arg) :
    execLine x0 y0 x1 y1 c (s.withAudio u) = outWithAudio u (execLine x0 y0 x1 y1 c s) := by
  have hstart : lineStart x0 y0 (s.withAudio u) = lineStart x0 y0 s := rfl
  unfold execLine
  rw [hstart]
  split
  · simp only [resolveColor, loadColor_withAudio]
    rfl
  · rfl

theorem execMset_withAudio (x y v : Arg) : execMset x y v (s.withAudio u) = outWithAudio u (execMset x y v s) := by
  unfold execMset
  split
  · rfl
  · dsimp only
    split <;> rfl

theorem ssetResolved_withAudio (x y c : Arg) :
    ssetResolved x y c (s.withAudio u) = (ssetResolved x y c s).withAudio u := by
  unfold ssetResolved
  simp only [resolveColor, loadColor_withAudio]
  split <;> rfl

theorem execSset_withAudio (x y c : Arg) : execSset x y c (s.withAudio u) = outWithAudio u (execSset x y c s) := by
  have hparams : (s.withAudio u).params = s.params := rfl
  unfold execSset
  rw [hparams, ssetResolved_withAudio]
  split <;> rfl

theorem execFset_withAudio (n b v : Arg) : execFset n b v (s.withAudio u) = outWithAudio u (execFset n b v s) := by
  unfold execFset
  dsimp only
  split
  · rfl
  split
  · split
    · rfl
    · split <;> rfl
  · rfl

theorem execPal_withAudio (c0 c1 p : Arg) : execPal c0 c1 p (s.withAudio u) = outWithAudio u (execPal c0 c1 p s) := by
  unfold execPal
  dsimp only
  split
  · rfl
  · split
    · rfl
    · split <;> rfl
  all_goals rfl

theorem execPalt_withAudio (c f : Arg) : execPalt c f (s.withAudio u) = outWithAudio u (execPalt c f s) := by
  cases c <;> cases f <;> rfl

/-- Of the register window only CHSFX shows the channels. -/
theorem readReg_withAudio {k : Nat} (hk : ¬(0x34 ≤ k ∧ k < 0x38)) : readReg (s.withAudio u) k = readReg s k := by
  have hch : ¬(0x34 ≤ k ∧ k - 0x34 < 4) := by omega
  simp only [readReg, dif_neg hch]
  rfl

theorem memRead_withAudio {a : Nat} (ha : ¬(0x5F34 ≤ a ∧ a < 0x5F38)) : memRead (s.withAudio u) a = memRead s a := by
  unfold memRead
  split
  · rfl
  split
  · next hr =>
    have := isRegister_iff.1 hr
    exact readReg_withAudio s u (by unfold regBase; omega)
  · rfl

/-- What waits at a port, or has been answered, is not read by the memory port. -/
theorem readReg_withQueues (inbox : List Transfer) (memOut : List Word) (k : Nat) :
    readReg { s with inbox := inbox, memOut := memOut } k = readReg s k := by
  unfold readReg
  rfl

theorem memRead_withQueues (inbox : List Transfer) (memOut : List Word) (a : Nat) :
    memRead { s with inbox := inbox, memOut := memOut } a = memRead s a := by
  unfold memRead
  rw [readReg_withQueues]
  rfl

theorem execMemr_withAudio {a : Nat} (ha : ¬(0x5F34 ≤ a ∧ a < 0x5F38)) :
    execMemr a (s.withAudio u) = outWithAudio u (execMemr a s) := by
  unfold execMemr
  rw [memRead_withAudio s u ha]
  split <;> rfl

/-- A register write neither reads nor writes the channels, the inbox, the audio responses and the draw counter. -/
theorem writeReg_with (ch : Vector Channel 4) (inbox : List Transfer) (audOut : List Word) (draws k : Nat) (v : Byte) :
    writeReg { s with ch := ch, inbox := inbox, audOut := audOut, draws := draws } k v
      = { writeReg s k v with ch := ch, inbox := inbox, audOut := audOut, draws := draws } := by
  unfold writeReg
  split
  · rfl
  split
  · rfl
  split <;> rfl

theorem memWrite_with (ch : Vector Channel 4) (inbox : List Transfer) (audOut : List Word) (draws a : Nat) (v : Byte) :
    memWrite { s with ch := ch, inbox := inbox, audOut := audOut, draws := draws } a v
      = { memWrite s a v with ch := ch, inbox := inbox, audOut := audOut, draws := draws } := by
  unfold memWrite
  rw [writeReg_with]
  split
  · rfl
  split <;> rfl

theorem memWrite_withAudio (a : Nat) (v : Byte) : memWrite (s.withAudio u) a v = (memWrite s a v).withAudio u := by
  refine (memWrite_with s u.ch s.inbox u.audOut u.draws a v).trans ?_
  rw [State.withAudio, memWrite_inbox]

theorem memWrite_withInbox (inbox : List Transfer) (a : Nat) (v : Byte) :
    memWrite { s with inbox := inbox } a v = { memWrite s a v with inbox := inbox } := by
  refine (memWrite_with s s.ch inbox s.audOut s.draws a v).trans ?_
  simp only [memWrite_ch, memWrite_audOut, memWrite_draws]

theorem execMemw_withAudio (a : Nat) (v : Byte) : execMemw a v (s.withAudio u) = outWithAudio u (execMemw a v s) := by
  unfold execMemw
  rw [memWrite_withAudio]
  split <;> rfl

/-- A command or memory transaction but SFX and a MEMR of CHSFX neither reads nor writes what a SAMPLE writes. -/
theorem exec_withAudio {i : Instr} (hport : i.port ≠ .audio) (hrow : row i ≠ 0x20)
    (hmemr : ∀ a, i = .memr a → ¬(0x5F34 ≤ a ∧ a < 0x5F38)) :
    exec i (s.withAudio u) = outWithAudio u (exec i s) := by
  cases i with
  | pset x y c => simp only [exec, execPset, resolveColor, loadColor_withAudio]; rfl
  | hline x0 x1 y c => simp only [exec, execHline, resolveColor, loadColor_withAudio]; rfl
  | vline x y0 y1 c => simp only [exec, execVline, resolveColor, loadColor_withAudio]; rfl
  | circ x y r c => simp only [exec, execCirc, resolveColor, loadColor_withAudio]; rfl
  | circfill x y r c => simp only [exec, execCircfill, resolveColor, loadColor_withAudio]; rfl
  | line x0 y0 x1 y1 c => exact execLine_withAudio s u x0 y0 x1 y1 c
  | clip x y w hh => cases hh <;> rfl
  | mset x y v => exact execMset_withAudio s u x y v
  | sset x y c => exact execSset_withAudio s u x y c
  | fset n b v => exact execFset_withAudio s u n b v
  | pal c0 c1 p => exact execPal_withAudio s u c0 c1 p
  | palt c f => exact execPalt_withAudio s u c f
  | memr a => exact execMemr_withAudio s u (hmemr a rfl)
  | memw a v => exact execMemw_withAudio s u a v
  | sfx id ch off => exact absurd rfl hrow
  | sample ch => exact absurd rfl hport
  | _ => rfl

end

/-! ### A Playing channel's note and record stand in SFXT -/

theorem row_eq_memw {i : Instr} (h : row i = 0x101) : ∃ a v, i = .memw a v := by
  cases i with
  | memw a v => exact ⟨a, v, rfl⟩
  | _ => simp [row, Instr.opcode] at h

theorem row_ne_sample {i : Instr} (h : i.port ≠ .audio) : row i ≠ 0x102 := by
  cases i with
  | sample c => exact absurd rfl h
  | _ => simp [row, Instr.opcode]

theorem writeReg_distort (s : State) {k : Nat} (h : k ≠ 0x33) (v : Byte) : (writeReg s k v).distort = s.distort := by
  unfold writeReg
  split
  · rfl
  split
  · rfl
  split
  case h_19 => exact absurd rfl h
  all_goals rfl

theorem memWrite_distort (s : State) {a : Nat} (h : a ≠ 0x5F33) (v : Byte) : (memWrite s a v).distort = s.distort := by
  unfold memWrite
  split
  · rfl
  split
  · next hr =>
    have := isRegister_iff.1 hr
    exact writeReg_distort s (by unfold regBase; omega) v
  · rfl

/-- A transaction that is no MEMW to SFXT leaves the bytes of SFXT. -/
theorem memRead_sfxt_of_exec {i : Instr} {s t : State} (h : exec i s = .next t)
    (hmemw : ∀ a v, i = .memw a v → ¬(0x4100 ≤ a ∧ a < 0x5200)) {b : Nat} (hlo : 0x4100 ≤ b) (hhi : b < 0x5200) :
    memRead t b = memRead s b := by
  have hb : isArray b = true := isArray_iff.2 (.inl hhi)
  have hbyte (p : Params) : physAddr p b = b := physAddr_of_ge (by omega)
  rw [memRead_array hb, memRead_array hb, arrayByte, arrayByte, hbyte, hbyte]
  by_contra hne
  have hrow : row i = 0x101 := by
    rcases arrayWriters i s t b h hne with ⟨_, _⟩ | ⟨_, _⟩ | ⟨_, _, _⟩ | ⟨_, _, _⟩ | ⟨-, -, hrow⟩
    · omega
    · omega
    · omega
    · omega
    · exact hrow
  obtain ⟨a, v, rfl⟩ := row_eq_memw hrow
  rw [(exec_memw_eq_next.1 h).2, memWrite_mem] at hne
  split at hne
  · have ha := eq_physAddr_of_write_changes hne
    refine hmemw a v rfl ?_
    unfold physAddr at ha
    split at ha
    · next hs =>
      simp at hs
      omega
    · omega
  · exact hne rfl

/-- Byte k of a record of the sfx table stands in SFXT (20_memory R71). -/
theorem sfxByte_congr {s t : State} (h : ∀ b, 0x4100 ≤ b → b < 0x5200 → memRead t b = memRead s b) (S : Fin 64)
    {k : Nat} (hk : k < 68) : sfxByte t S k = sfxByte s S k :=
  h _ (by unfold sfxtBase; omega) (by unfold sfxtBase; omega)

theorem noteAt_congr {s t : State} (h : ∀ b, 0x4100 ≤ b → b < 0x5200 → memRead t b = memRead s b) (S : Fin 64)
    {i : Nat} (hi : i < 32) : noteAt t S i = noteAt s S i := by
  unfold noteAt
  rw [sfxByte_congr h S (k := 2 * i + 1) (by omega), sfxByte_congr h S (k := 2 * i) (by omega)]

/-- A Playing channel stands at one of the 32 notes of its record (10_state R52). -/
theorem ChannelOk.note_lt {C : Channel} (h : ChannelOk C) : C.offset.floor.toNat < 32 := by
  obtain ⟨⟨-, hlt⟩, -⟩ := h
  have hfloor : C.offset.floor < 32 := Int.floor_lt.2 (by exact_mod_cast hlt)
  omega

theorem sameSampleInputs_of_exec {i : Instr} {s t : State} (hinv : Inv s) (hport : i.port ≠ .audio)
    (hrow : row i ≠ 0x20) (hmemw : ∀ a v, i = .memw a v → ¬(0x4100 ≤ a ∧ a < 0x5200) ∧ a ≠ 0x5F33)
    (h : exec i s = .next t) : SameSampleInputs s t := by
  obtain ⟨hp, -, -, -, hdistort, -, -, -, -, -, -, hch, -, -, haudio⟩ := registerWriters i s t h
  have hsample := row_ne_sample hport
  have hsfxt : ∀ b, 0x4100 ≤ b → b < 0x5200 → memRead t b = memRead s b := fun b =>
    memRead_sfxt_of_exec h fun a v hi => (hmemw a v hi).1
  have hrecord (S : Fin 64) {k : Nat} (hk : k < 68) : (sfxByte t S k).toNat = (sfxByte s S k).toNat :=
    congrArg BitVec.toNat (sfxByte_congr hsfxt S hk)
  refine ⟨hp, ?_, ?_, ?_, ?_, ?_, fun S => hrecord S (by decide), fun S => hrecord S (by decide),
    fun S => hrecord S (by decide)⟩
  · by_contra hne
    simpa [hrow, hsample] using hch hne
  · by_contra hne
    obtain ⟨a, v, rfl⟩ := row_eq_memw (hdistort (.inr hne))
    rw [(exec_memw_eq_next.1 h).2, memWrite_distort s (hmemw a v rfl).2] at hne
    exact hne rfl
  · by_contra hne
    exact hsample (haudio (.inl hne))
  · by_contra hne
    exact hsample (haudio (.inr hne))
  · intro c S k hk
    have := (hinv.channels c).note_lt
    exact noteAt_congr hsfxt S (by omega)

/-- Settles O60: the SAMPLE finds its inputs unchanged, and the other transaction carries over to the state whose audio
part the SAMPLE has changed. -/
theorem sampleCommutes : Obligations.SampleCommutes := by
  intro i c s s1 t hinv hport hrow hmemr hmemw hi hc
  obtain ⟨u, hs, hs1⟩ := exec_sample_of_sameSampleInputs (sameSampleInputs_of_exec hinv hport hrow hmemw hi) c
  refine ⟨s.withAudio u, hs, ?_⟩
  rw [exec_withAudio s u hport hrow hmemr, hi, ← hc, hs1]
  rfl

end Sys2Proof.Machine
end

section
/-! How a step takes the next transaction's words from the inbox (20_memory R80, R81). -/

namespace Sys2Proof.Machine

open Spec

theorem gather_whole (args : List Word) (rest : List Transfer) :
    gather args.length (transfersOn .command args ++ rest) = .whole args rest := by
  induction args with
  | nil => rfl
  | cons w args ih =>
    change gather (args.length + 1) (⟨.command, w⟩ :: (transfersOn .command args ++ rest)) = _
    rw [gather, ih, if_pos rfl]

theorem gather_waiting {n : Nat} {args : List Word} (h : args.length < n) :
    gather n (transfersOn .command args) = .waiting := by
  induction args generalizing n with
  | nil =>
    obtain ⟨m, rfl⟩ := Nat.exists_eq_add_one.2 (Nat.zero_lt_of_lt h)
    rfl
  | cons w args ih =>
    obtain ⟨m, rfl⟩ := Nat.exists_eq_add_one.2 (Nat.zero_lt_of_lt h)
    change gather (m + 1) (⟨.command, w⟩ :: transfersOn .command args) = _
    rw [gather, ih (Nat.lt_of_succ_lt_succ h), if_pos rfl]

theorem gather_other {n : Nat} {args : List Word} (h : args.length < n) {u : Transfer} (hu : u.port ≠ .command)
    (rest : List Transfer) :
    gather n (transfersOn .command args ++ u :: rest) = .other u (transfersOn .command args ++ rest) := by
  induction args generalizing n with
  | nil =>
    obtain ⟨m, rfl⟩ := Nat.exists_eq_add_one.2 (Nat.zero_lt_of_lt h)
    exact if_neg hu
  | cons w args ih =>
    obtain ⟨m, rfl⟩ := Nat.exists_eq_add_one.2 (Nat.zero_lt_of_lt h)
    change gather (m + 1) (⟨.command, w⟩ :: (transfersOn .command args ++ u :: rest)) = _
    rw [gather, ih (Nat.lt_of_succ_lt_succ h), if_pos rfl]
    rfl

theorem nextTransaction_of_encode (i : Instr) (rest : List Transfer) :
    nextTransaction (transfersOf i ++ rest) = some (i.port, encode i, rest) := by
  cases hport : i.port with
  | command =>
    rw [transfersOf, hport, encode_of_command hport]
    change nextTransaction (⟨.command, _⟩ :: (transfersOn .command i.slots.reduceOption ++ rest)) = _
    simp only [nextTransaction, argCount_mk_presenceOf (length_slots_le i), gather_whole]
    rfl
  | memory =>
    cases i with
    | memr a => rfl
    | memw a v => rfl
    | _ => cases hport
  | audio =>
    cases i with
    | sample c => rfl
    | _ => cases hport

/-- Settles O10: the words are taken whole, and the decoder reads them back. -/
theorem stepRunsDecodedInstruction : Obligations.StepRunsDecodedInstruction := by
  intro i s rest hwf hin
  have hdecode := decode_encode hwf []
  rw [List.append_nil] at hdecode
  simp only [step, hin, nextTransaction_of_encode, hdecode]

/-! ### A word of another port inside a packet -/

theorem nextTransaction_waiting {h : Word} {args : List Word} (hlen : args.length < argCount h) :
    nextTransaction (transfersOn .command (h :: args)) = none := by
  change nextTransaction (⟨.command, h⟩ :: transfersOn .command args) = none
  simp only [nextTransaction, gather_waiting hlen]

theorem nextTransaction_other {h : Word} {args : List Word} (hlen : args.length < argCount h) {u : Transfer}
    (hu : u.port ≠ .command) (rest : List Transfer) :
    nextTransaction (transfersOn .command (h :: args) ++ u :: rest)
      = some (u.port, [u.word], transfersOn .command (h :: args) ++ rest) := by
  change nextTransaction (⟨.command, h⟩ :: (transfersOn .command args ++ u :: rest)) = _
  simp only [nextTransaction, gather_other hlen hu]
  rfl

theorem nextTransaction_singleton {u : Transfer} (hu : u.port ≠ .command) :
    nextTransaction [u] = some (u.port, [u.word], []) := by
  cases hport : u.port with
  | command => exact absurd hport hu
  | memory => simp only [nextTransaction, hport]
  | audio => simp only [nextTransaction, hport]

theorem decode_word_ne_incomplete {p : Port} (hp : p ≠ .command) (w : Word) : decode p [w] ≠ .incomplete := by
  cases p with
  | command => exact absurd rfl hp
  | memory =>
    rw [decode, decodeMemory]
    split
    · exact Decoded.noConfusion
    · split <;> exact Decoded.noConfusion
  | audio => exact Decoded.noConfusion

/-- A SAMPLE reads no inbox. -/
theorem sameSampleInputs_withInbox (s : State) (inbox : List Transfer) :
    SameSampleInputs s { s with inbox := inbox } := by
  have hbyte (S : Fin 64) (k : Nat) : sfxByte { s with inbox := inbox } S k = sfxByte s S k :=
    memRead_withQueues s inbox s.memOut _
  refine ⟨rfl, rfl, rfl, rfl, rfl, fun _ S i _ => ?_, fun S => ?_, fun S => ?_, fun S => ?_⟩
  · simp only [noteAt, hbyte]
  · simp only [sfxSpeed, hbyte]
  · simp only [sfxLoopStart, hbyte]
  · simp only [sfxLoopEnd, hbyte]

/-- A memory transaction or a SAMPLE neither reads nor writes the words that wait. -/
theorem exec_withInbox {i : Instr} (hport : i.port ≠ .command) {s t : State} (h : exec i s = .next t)
    (inbox : List Transfer) : exec i { s with inbox := inbox } = .next { t with inbox := inbox } := by
  cases i with
  | memr a =>
    obtain ⟨ha, rfl⟩ := exec_memr_eq_next.1 h
    refine exec_memr_eq_next.2 ⟨ha, ?_⟩
    rw [memRead_withQueues s inbox s.memOut]
    rfl
  | memw a v =>
    obtain ⟨ha, rfl⟩ := exec_memw_eq_next.1 h
    exact exec_memw_eq_next.2 ⟨ha, (memWrite_withInbox s inbox a v).symm⟩
  | sample c =>
    obtain ⟨u, hs, hs'⟩ := exec_sample_of_sameSampleInputs (sameSampleInputs_withInbox s inbox) c
    obtain rfl := Host.Outcome.next.inj (h.symm.trans hs)
    exact hs'
  | _ => exact absurd rfl hport

/-- Settles O11: a packet that is not whole gives no transaction, and a word of another port is taken out of its
middle. -/
theorem waitingAndInterleaving : Obligations.WaitingAndInterleaving := by
  refine ⟨fun s hin => ?_, fun s h args hlen hin => ?_, fun s h args u rest hlen hu hin t ht => ?_⟩
  · simp only [step, hin, nextTransaction]
  · rw [← argCount_eq_popcount] at hlen
    simp only [step, hin, nextTransaction_waiting hlen]
  · rw [← argCount_eq_popcount] at hlen
    simp only [step, nextTransaction_singleton hu] at ht
    simp only [step, hin, nextTransaction_other hlen hu]
    cases hdecode : decode u.port [u.word] with
    | instr i tail =>
      simp only [hdecode] at ht
      have hport : i.port ≠ .command := (decodedIsWellFormed u.port [u.word] tail i hdecode).2 ▸ hu
      exact exec_withInbox hport ht _
    | ignored why tail =>
      simp only [hdecode] at ht
      cases ht
      rfl
    | incomplete => exact absurd hdecode (decode_word_ne_incomplete hu u.word)

end Sys2Proof.Machine
end

section
/-! One byte at the memory port: what a write leaves at every address of the block (20_memory R74–R76), and the
framebuffer as the display port pulls it (R77). -/

namespace Sys2Proof.Machine

open Spec

/-! ### The register window, part by part -/

/-- The bytes of the registers 0x5F20–0x5F33 in order (10_state R34). -/
def scalarBytes (s : State) : Vector Byte 20 :=
  #v[BitVec.ofNat 8 s.clip.x1.val, BitVec.ofNat 8 s.clip.y1.val, BitVec.ofNat 8 s.clip.x2.val,
    BitVec.ofNat 8 s.clip.y2.val, s.pen, s.cursorX, s.cursorY, 0, loByte s.cameraX, hiByte s.cameraX, loByte s.cameraY,
    hiByte s.cameraY, loByte s.anchorX, hiByte s.anchorX, loByte s.anchorY, hiByte s.anchorY, loByte s.fillp,
    hiByte s.fillp, fillpCtl s, s.distort.setWidth 8]

theorem readReg_scalar (s : State) {i : Nat} (hi : i < 20) : readReg s (0x20 + i) = (scalarBytes s)[i] := by
  interval_cases i <;> rfl

/-- The parts of the register window: the two palettes, the scalar registers, CHSFX and the reserved rest. -/
inductive RegPart : Nat → Prop where
  | drawPal {i : Nat} (hi : i < 16) : RegPart i
  | screenPal {i : Nat} (hi : i < 16) : RegPart (16 + i)
  | scalar {i : Nat} (hi : i < 20) : RegPart (0x20 + i)
  | chsfx (c : Fin 4) : RegPart (0x34 + c.val)
  | reserved {k : Nat} (hk : 0x38 ≤ k) : RegPart k

theorem regPart (k : Nat) : RegPart k := by
  by_cases h1 : k < 16
  · exact .drawPal h1
  by_cases h2 : k < 0x20
  · obtain ⟨i, rfl⟩ := Nat.exists_eq_add_of_le (not_lt.1 h1)
    exact .screenPal (by omega)
  by_cases h3 : k < 0x34
  · obtain ⟨i, rfl⟩ := Nat.exists_eq_add_of_le (not_lt.1 h2)
    exact .scalar (by omega)
  by_cases h4 : k < 0x38
  · obtain ⟨i, rfl⟩ := Nat.exists_eq_add_of_le (not_lt.1 h3)
    exact .chsfx ⟨i, by omega⟩
  · exact .reserved (not_lt.1 h4)

/-- A register read depends on its part of the window only. -/
theorem readReg_congr {s t : State} {k : Nat} (hdraw : k < 16 → t.drawPal = s.drawPal)
    (hscreen : 16 ≤ k → k < 0x20 → t.screenPal = s.screenPal)
    (hscalar : 0x20 ≤ k → k < 0x34 → scalarBytes t = scalarBytes s) (hch : t.ch = s.ch) :
    readReg t k = readReg s k := by
  cases regPart k with
  | drawPal hi => simp only [readReg_drawPal _ hi, hdraw hi]
  | screenPal hi => simp only [readReg_screenPal _ hi, hscreen (by omega) (by omega)]
  | scalar hi => simp only [readReg_scalar _ hi, hscalar (by omega) (by omega)]
  | chsfx c => simp only [readReg_chsfx, hch]
  | reserved hk => rw [readReg_reserved t (.inr hk), readReg_reserved s (.inr hk)]

/-! ### The register window after a write -/

/-- A register of n bits keeps the low n bits of the byte written to it. -/
theorem setWidth_setWidth_eq_and_mask (v : Byte) {n : Nat} (hn : n ≤ 8) :
    (v.setWidth n).setWidth 8 = v &&& BitVec.ofNat 8 (2 ^ n - 1) := by
  have hle : 2 ^ n ≤ 2 ^ 8 := Nat.pow_le_pow_right (by decide) hn
  apply BitVec.eq_of_toNat_eq
  rw [BitVec.toNat_setWidth, BitVec.toNat_setWidth, BitVec.toNat_and, BitVec.toNat_ofNat,
    Nat.mod_eq_of_lt (a := 2 ^ n - 1) (by omega), Nat.and_two_pow_sub_one_eq_mod, Nat.mod_eq_of_lt]
  exact (Nat.mod_lt _ (by positivity)).trans_le hle

theorem fillpCtl_of_byte (v : Byte) :
    (0#6 ++ BitVec.ofBool v[1] ++ BitVec.ofBool v[0] : Byte) = v &&& 0x03#8 := by
  revert v
  decide

/-- A CLIP field written by the memory port is clamped (10_state R36). -/
theorem ofNat_clipOfByte (v : Byte) : BitVec.ofNat 8 (clipOfByte v).val = if v.toNat ≤ 128 then v else 128#8 := by
  unfold clipOfByte
  dsimp only
  split
  · next h => rw [Nat.min_eq_left h, BitVec.ofNat_toNat, BitVec.setWidth_eq]
  · next h => rw [Nat.min_eq_right (by omega)]

/-- A write of a scalar register replaces its byte among the scalar registers' bytes; a 16-bit register keeps its other
byte (20_memory R73, R75). -/
theorem scalarBytes_writeReg (s : State) {i : Nat} (hi : i < 20) (v : Byte) :
    scalarBytes (writeReg s (0x20 + i) v) = (scalarBytes s).set i (stored (0x5F20 + i) (scalarBytes s)[i] v) := by
  interval_cases i <;>
    simp [scalarBytes, writeReg, stored, fillpCtl, fillpCtl_of_byte, ofNat_clipOfByte, loByte_withLo, hiByte_withLo,
      loByte_withHi, hiByte_withHi, setWidth_setWidth_eq_and_mask v (show 4 ≤ 8 by decide)]

theorem writeReg_scalar_drawPal (s : State) {i : Nat} (hi : i < 20) (v : Byte) :
    (writeReg s (0x20 + i) v).drawPal = s.drawPal := by
  interval_cases i <;> rfl

theorem writeReg_scalar_screenPal (s : State) {i : Nat} (hi : i < 20) (v : Byte) :
    (writeReg s (0x20 + i) v).screenPal = s.screenPal := by
  interval_cases i <;> rfl

theorem stored_drawPal {k : Nat} (hk : k < 16) (old v : Byte) : stored (0x5F00 + k) old v = v &&& 0x1F#8 := by
  rw [stored, if_neg (by omega), if_neg (by omega), if_pos (by omega)]

theorem stored_screenPal {k : Nat} (hk : k < 16) (old v : Byte) : stored (0x5F10 + k) old v = v := by
  rw [stored, if_neg (by omega), if_neg (by omega), if_neg (by omega), if_pos (by omega)]

theorem stored_chsfx (c : Fin 4) (old v : Byte) : stored (0x5F34 + c.val) old v = old := by
  fin_cases c <;> rfl

theorem stored_reserved {a : Nat} (ha : (0x5200 ≤ a ∧ a < 0x5F00) ∨ (0x5F38 ≤ a ∧ a < 0x6000) ∨ 0x8000 ≤ a)
    (old v : Byte) : stored a old v = 0 := by
  unfold stored
  rcases ha with ha | ha | ha
  · rw [if_neg (by omega), if_pos (by omega)]
  · iterate 11 rw [if_neg (by omega)]
    exact if_pos (by omega)
  · iterate 12 rw [if_neg (by omega)]
    exact if_neg (by omega)

/-- A register write is read back at its own address, but for the clamp, the RAZ/WI bits and the ignored writes, and
at no other address of the window. -/
theorem readReg_writeReg (s : State) {k : Nat} (hk : k < 0x80) (j : Nat) (v : Byte) :
    readReg (writeReg s k v) j = if k = j then stored (0x5F00 + k) (readReg s k) v else readReg s j := by
  cases regPart k with
  | drawPal hi =>
    rw [writeReg_drawPal s hi]
    by_cases hj : j < 16
    · rw [readReg_drawPal _ hj, readReg_drawPal s hj, Vector.getElem_set, stored_drawPal hi]
      split
      · exact setWidth_setWidth_eq_and_mask v (show 5 ≤ 8 by decide)
      · rfl
    · rw [if_neg (by omega)]
      exact readReg_congr (fun h => absurd h hj) (fun _ _ => rfl) (fun _ _ => rfl) rfl
  | @screenPal i hi =>
    rw [writeReg_screenPal s hi]
    by_cases hj : 16 ≤ j ∧ j < 0x20
    · obtain ⟨l, rfl⟩ := Nat.exists_eq_add_of_le hj.1
      have hl : l < 16 := by omega
      rw [readReg_screenPal _ hl, readReg_screenPal s hl, Vector.getElem_set, ← Nat.add_assoc, stored_screenPal hi]
      simp only [Nat.add_left_cancel_iff]
    · rw [if_neg (by omega)]
      exact readReg_congr (fun _ => rfl) (fun h h' => absurd ⟨h, h'⟩ hj) (fun _ _ => rfl) rfl
  | @scalar i hi =>
    by_cases hj : 0x20 ≤ j ∧ j < 0x34
    · obtain ⟨l, rfl⟩ := Nat.exists_eq_add_of_le hj.1
      have hl : l < 20 := by omega
      simp only [readReg_scalar _ hl, readReg_scalar s hi, scalarBytes_writeReg s hi, Vector.getElem_set,
        ← Nat.add_assoc, Nat.add_left_cancel_iff]
    · rw [if_neg (by omega)]
      exact readReg_congr (fun _ => writeReg_scalar_drawPal s hi v) (fun _ _ => writeReg_scalar_screenPal s hi v)
        (fun h h' => absurd ⟨h, h'⟩ hj) (writeReg_ch s _ v)
  | chsfx c =>
    rw [writeReg_chsfx, ← Nat.add_assoc, stored_chsfx]
    split
    · next h => rw [h]
    · rfl
  | reserved hr =>
    rw [writeReg_reserved s (.inr hr), stored_reserved (by omega)]
    split
    · next h => rw [← h, readReg_reserved s (.inr hr)]
    · rfl

/-! ### RAZ/WI bits -/

theorem fillpCtl_and_razBits (s : State) : fillpCtl s &&& 0xFC#8 = 0 := by
  unfold fillpCtl
  cases s.fillpMode <;> cases s.fillpTrans <;> rfl

theorem distort_and_razBits (d : BitVec 4) : d.setWidth 8 &&& 0xF0#8 = 0 := by
  revert d
  decide

theorem drawPal_and_razBits (e : BitVec 5) : e.setWidth 8 &&& 0xE0#8 = 0 := by
  revert e
  decide

theorem readReg_and_razBits (s : State) {k : Nat} (hk : k < 0x80) : readReg s k &&& razBits (0x5F00 + k) = 0 := by
  cases regPart k with
  | drawPal hi =>
    have hraz : razBits (0x5F00 + k) = 0xE0#8 := by
      rw [razBits, if_neg (by omega), if_pos (by omega)]
    rw [readReg_drawPal s hi, hraz, drawPal_and_razBits]
  | @screenPal i hi =>
    have hraz : razBits (0x5F00 + (16 + i)) = 0 := by
      rw [razBits, if_neg (by omega), if_neg (by omega), if_neg (by omega), if_neg (by omega), if_pos (by omega)]
    rw [hraz]
    exact BitVec.and_zero
  | @scalar i hi =>
    rw [readReg_scalar s hi]
    interval_cases i <;> simp [scalarBytes, razBits, fillpCtl_and_razBits, distort_and_razBits]
  | chsfx c =>
    have hraz : razBits (0x5F34 + c.val) = 0 := by fin_cases c <;> rfl
    rw [← Nat.add_assoc, hraz]
    exact BitVec.and_zero
  | reserved hr =>
    rw [readReg_reserved s (.inr hr)]
    exact BitVec.zero_and

/-! ### The address map -/

/-- Array addresses have one storage exactly when they name one byte (20_memory R71). -/
theorem physAddr_eq_iff (p : Params) (a b : Nat) : physAddr p a = physAddr p b ↔ sameByte p a b = true := by
  unfold physAddr sameByte
  cases p.mapSheetShared with
  | false => simp
  | true =>
    simp only [Bool.true_and, Bool.and_eq_true, Bool.or_eq_true, decide_eq_true_eq]
    split <;> split <;> omega

/-- Only array addresses have a second name (20_memory R71). -/
theorem sameByte_iff_of_not_array (p : Params) {a b : Nat} (h : isArray a = false ∨ isArray b = false) :
    sameByte p a b = true ↔ a = b := by
  simp only [← Bool.not_eq_true, isArray_iff] at h
  simp only [sameByte, Bool.and_eq_true, Bool.or_eq_true, decide_eq_true_eq]
  omega

/-! ### The memory port -/

theorem stored_array {a : Nat} (h : isArray a = true) (old v : Byte) : stored a old v = v := by
  unfold stored
  rcases isArray_iff.1 h with h | h
  · exact if_pos h
  · iterate 12 rw [if_neg (by omega)]
    exact if_pos h.2

theorem memRead_setArrayByte_of_not_array (s : State) (a : Nat) (v : Byte) {b : Nat} (hb : isArray b = false) :
    memRead (setArrayByte s a v) b = memRead s b := by
  have hreg (k : Nat) : readReg (setArrayByte s a v) k = readReg s k :=
    readReg_congr (fun _ => rfl) (fun _ _ => rfl) (fun _ _ => rfl) rfl
  simp only [memRead, hb, Bool.false_eq_true, if_false, hreg]

theorem memRead_writeReg_of_not_register (s : State) (k : Nat) (v : Byte) {b : Nat} (hb : isRegister b = false) :
    memRead (writeReg s k v) b = memRead s b := by
  simp only [memRead, arrayByte, hb, Bool.false_eq_true, if_false, writeReg_params, writeReg_mem]

/-- What a byte of the block reads as after a byte has been written. -/
theorem memRead_memWrite (s : State) (a b : Nat) (v : Byte) : memRead (memWrite s a v) b =
    if sameByte s.params a b = true then stored a (memRead s a) v else memRead s b := by
  by_cases ha : isArray a = true
  · rw [memWrite_array ha, stored_array ha]
    by_cases hb : isArray b = true
    · simp only [memRead_array hb, arrayByte_setArrayByte, physAddr_eq_iff]
    · have hne : a ≠ b := fun h => hb (h ▸ ha)
      rw [Bool.not_eq_true] at hb
      rw [memRead_setArrayByte_of_not_array s a v hb, if_neg]
      rwa [sameByte_iff_of_not_array s.params (.inr hb)]
  rw [Bool.not_eq_true] at ha
  simp only [sameByte_iff_of_not_array s.params (.inl ha)]
  by_cases hr : isRegister a = true
  · have hk := isRegister_iff.1 hr
    obtain ⟨k, rfl⟩ := Nat.exists_eq_add_of_le hk.1
    have hk' : k < 0x80 := by omega
    rw [memWrite_register hr, memRead_regBase s hk', regBase, Nat.add_sub_cancel_left]
    by_cases hb : isRegister b = true
    · have hj := isRegister_iff.1 hb
      obtain ⟨j, rfl⟩ := Nat.exists_eq_add_of_le hj.1
      have hj' : j < 0x80 := by omega
      simp only [memRead_regBase _ hj', readReg_writeReg s hk', Nat.add_left_cancel_iff]
    · have hne : 0x5F00 + k ≠ b := fun h => hb (h ▸ hr)
      rw [Bool.not_eq_true] at hb
      rw [if_neg hne, memRead_writeReg_of_not_register s k v hb]
  · rw [Bool.not_eq_true] at hr
    rw [memWrite_reserved ha hr, memRead_reserved ha hr, stored_reserved]
    · split
      · next h => rw [← h, memRead_reserved ha hr]
      · rfl
    · rw [← Bool.not_eq_true, isArray_iff] at ha
      rw [← Bool.not_eq_true, isRegister_iff] at hr
      omega

theorem memRead_and_razBits (s : State) (a : Nat) : memRead s a &&& razBits a = 0 := by
  by_cases ha : isArray a = true
  · rw [razBits, if_pos (isArray_iff.1 ha)]
    exact BitVec.and_zero
  by_cases hr : isRegister a = true
  · have hk := isRegister_iff.1 hr
    obtain ⟨k, rfl⟩ := Nat.exists_eq_add_of_le hk.1
    have hk' : k < 0x80 := by omega
    rw [memRead_regBase s hk', readReg_and_razBits s hk']
  · rw [Bool.not_eq_true] at ha hr
    rw [memRead_reserved ha hr]
    exact BitVec.zero_and

/-- Settles O21: a read is `memRead` and a write `memWrite`, whose effect on every byte `memRead_memWrite` says. -/
theorem memoryPort : Obligations.MemoryPort := by
  intro s a ha
  refine ⟨exec_memr_eq_next.2 ⟨ha, ?_⟩, fun b => memRead_withQueues s s.inbox _ b, memRead_and_razBits s a, fun v =>
    ⟨memWrite s a v, exec_memw_eq_next.2 ⟨ha, rfl⟩, fun b => memRead_memWrite s a b v, memWrite_params s a v,
      memWrite_ch s a v, memWrite_inbox s a v, memWrite_cmdOut s a v, memWrite_memOut s a v, memWrite_audOut s a v,
      memWrite_draws s a v⟩⟩
  rw [BitVec.ofNat_toNat]
  rfl

/-! ### The display port -/

/-- Settles O23: FB stands at its own address, where the display and the pixel operations both read it. -/
theorem displayView : Obligations.DisplayView := by
  intro s x y hx hy
  refine ⟨rfl, ?_, fun k _ => rfl⟩
  have haddr : fbBase + (64 * y + x / 2) = pixelAddr fbBase x y := (Nat.add_assoc _ _ _).symm
  have hbounds := pixelAddr_mem (base := fbBase) hx hy
  have harray : isArray (pixelAddr fbBase x y) = true := (storage_fb s.params hbounds).1
  have hphys : physAddr s.params (pixelAddr fbBase x y) = pixelAddr fbBase x y := (storage_fb s.params hbounds).2
  have hbyte : displayByte s (64 * y + x / 2) = Memory.read s.mem (pixelAddr fbBase x y) := by
    rw [displayByte, haddr, memRead_array harray, arrayByte, hphys]
  rw [hbyte]
  rfl

end Sys2Proof.Machine
end

section
/-! A command packet word by word (30_encoding R100, R101, R108, R109): which slots its words are read into, and what a
whole packet decodes to. -/

namespace Sys2Proof

open Spec

/-! ### The slots of a packet -/

/-- The words of the present slots below slot i stand before the word of slot i (30_encoding R100). -/
theorem slotValue_eq (p : Half) (args : List Word) (i : Nat) :
    slotValue p args i = if p.getLsbD i then args[popcountTo i p]? else none := by
  rw [slotValue, popcountTo_eq_length_filter]

/-- From slot k on, the decoder reads the words that the slots below k have left. -/
theorem slotsFrom_drop (n k : Nat) (p : Half) (args : List Word) :
    slotsFrom n k p (args.drop (popcountTo k p)) = (List.range' k n).map (slotValue p args) := by
  induction n generalizing k with
  | zero => rfl
  | succ n ih =>
    have hrest := ih (k + 1)
    rw [popcountTo_succ] at hrest
    rw [slotsFrom, List.range'_succ, List.map_cons, ← hrest, slotValue_eq]
    cases p.getLsbD k with
    | false => rfl
    | true => simp only [if_true, List.head?_drop, List.tail_drop, Bool.toNat_true]

theorem slotsFrom_sixteen (p : Half) (args : List Word) :
    slotsFrom 16 0 p args = (List.range 16).map (slotValue p args) := by
  rw [List.range_eq_range']
  exact slotsFrom_drop 16 0 p args

/-! ### The rows of the opcode table -/

/-- Every row of the opcode table is a command with the row's number of slots, and no other OP is a command
(30_encoding R109). -/
theorem commandOf_cases (op : Nat) (a : List Arg) :
    (slotCounts.lookup op = none ∧ commandOf op a = none)
      ∨ ∃ n i, slotCounts.lookup op = some n ∧ commandOf op a = some i ∧ i.opcode.map BitVec.toNat = some op
        ∧ i.slots = (List.range n).map (fun k => a.getD k none) := by
  unfold commandOf
  dsimp only
  split
  case h_24 =>
    refine .inl ⟨List.lookup_eq_none_iff.2 ?_, rfl⟩
    simp_all [slotCounts]
  all_goals exact .inr ⟨_, _, rfl, rfl, rfl, rfl⟩

theorem commandOf_eq_none {op : Nat} (h : slotCounts.lookup op = none) (a : List Arg) : commandOf op a = none := by
  rcases commandOf_cases op a with ⟨-, hnone⟩ | ⟨n, i, hn, -⟩
  · exact hnone
  · cases h.symm.trans hn

theorem commandOf_eq_some {op n : Nat} (h : slotCounts.lookup op = some n) (a : List Arg) :
    ∃ i, commandOf op a = some i ∧ i.opcode.map BitVec.toNat = some op
      ∧ i.slots = (List.range n).map (fun k => a.getD k none) := by
  rcases commandOf_cases op a with ⟨hnone, -⟩ | ⟨m, i, hm, hi⟩
  · cases h.symm.trans hnone
  · obtain rfl := Option.some.inj (h.symm.trans hm)
    exact ⟨i, hi⟩

/-- A command is given by its opcode and its slots. -/
theorem command_ext {i j : Instr} (hi : i.port = .command) (hj : j.port = .command)
    (hop : i.opcode.map BitVec.toNat = j.opcode.map BitVec.toNat) (hslots : i.slots = j.slots) : i = j := by
  have hop' : i.opcode = j.opcode := Option.map_injective BitVec.toNat_injective hop
  have hcommand := commandOf_opcode_slots hi
  rw [hop', hslots, commandOf_opcode_slots hj] at hcommand
  exact (Option.some.inj hcommand).symm

/-! ### What a packet decodes to -/

/-- The command that a header's OP and the words after it stand for, whatever the header's Z. -/
def packetCommand (h : Word) (args : List Word) : Option Instr :=
  commandOf (opField h) (slotsFrom 16 0 (maskField h) args)

theorem zField_eq_zero_iff (h : Word) : zField h = 0 ↔ Header.z h = 0 :=
  (BitVec.toNat_eq (x := Header.z h) (y := 0)).symm

theorem decode_incomplete {h : Word} {args : List Word} (hlen : args.length < popcount (maskField h)) :
    decode .command (h :: args) = .incomplete := by
  rw [← argCount_eq_popcount] at hlen
  simp only [decode, decodeCommand, hlen, if_true]

section

variable {h : Word} {args : List Word} (hlen : args.length = popcount (maskField h)) (tail : List Word)
include hlen

theorem decode_packet (hz : zField h = 0) {i : Instr} (hi : packetCommand h args = some i) :
    decode .command (h :: (args ++ tail)) = .instr i tail := by
  rw [zField_eq_zero_iff] at hz
  rw [← argCount_eq_popcount] at hlen
  change commandOf (Header.op h).toNat (slotsFrom 16 0 (Header.presence h) args) = _ at hi
  simp [decode, decodeCommand, ← hlen, hz, hi]

theorem decode_reserved (hres : zField h ≠ 0 ∨ packetCommand h args = none) :
    ∃ why, decode .command (h :: (args ++ tail)) = .ignored why tail := by
  rw [ne_eq, zField_eq_zero_iff] at hres
  rw [← argCount_eq_popcount] at hlen
  by_cases hz : Header.z h = 0
  · have hnone := hres.resolve_left (not_not.2 hz)
    change commandOf (Header.op h).toNat (slotsFrom 16 0 (Header.presence h) args) = _ at hnone
    exact ⟨.reservedOpcode, by simp [decode, decodeCommand, ← hlen, hz, hnone]⟩
  · exact ⟨.nonzeroZ, by simp only [decode, decodeCommand, List.length_append, ← hlen,
      Nat.not_lt.2 (Nat.le_add_right _ _), if_false, if_pos hz, List.drop_left]⟩

end

/-- Settles O1, which is `decode_encode`. -/
theorem encodeDecodeRoundTrip : Obligations.EncodeDecodeRoundTrip := fun _ rest h => decode_encode h rest

/-- Settles O3: a whole packet is a command of the table, or is ignored for its Z or its OP, and its words are counted
by P alone. -/
theorem packetLength : Obligations.PacketLength := by
  refine fun h args tail => ⟨decode_incomplete, fun hlen => ?_⟩
  by_cases hres : zField h ≠ 0 ∨ packetCommand h args = none
  · exact .inr (decode_reserved hlen tail hres)
  · obtain ⟨hz, hsome⟩ := not_or.1 hres
    obtain ⟨i, hi⟩ := Option.ne_none_iff_exists'.1 hsome
    exact .inl ⟨i, decode_packet hlen tail (not_not.1 hz) hi⟩

/-- Settles O4: the command of the header's row takes the first n of the packet's sixteen slots. -/
theorem commandFields : Obligations.CommandFields := by
  intro h args tail n hz hlookup hlen
  obtain ⟨i, hi, hop, hslots⟩ := commandOf_eq_some hlookup (slotsFrom 16 0 (maskField h) args)
  have hn : n ≤ 16 := by simpa [hslots] using length_slots_le i
  refine ⟨i, decode_packet hlen tail hz hi, hop, ?_⟩
  rw [hslots, slotsFrom_sixteen]
  refine List.map_congr_left fun k hk => ?_
  have hk16 : k < 16 := (List.mem_range.1 hk).trans_le hn
  simp [List.getD, hk16]

/-- Settles O8: each list of words decodes by computation. -/
theorem writtenWordsDecode : Obligations.WrittenWordsDecode := ⟨rfl, rfl, rfl, rfl, rfl⟩

end Sys2Proof
end

section
/-! A step on the words of each port: a packet, a memory word and an audio word (30_encoding R103, R104, R108). -/

namespace Sys2Proof.Machine

open Spec

theorem step_of_instr {s : State} {p : Port} {ws tail : List Word} {rest : List Transfer} {i : Instr}
    (hnext : nextTransaction s.inbox = some (p, ws, rest)) (hdecode : decode p ws = .instr i tail) :
    step s = exec i { s with inbox := rest } := by
  simp only [step, hnext, hdecode]

theorem step_of_ignored {s : State} {p : Port} {ws tail : List Word} {rest : List Transfer} {why : Ignored}
    (hnext : nextTransaction s.inbox = some (p, ws, rest)) (hdecode : decode p ws = .ignored why tail) :
    step s = .next { s with inbox := rest } := by
  simp only [step, hnext, hdecode]

/-! ### Packets -/

theorem nextTransaction_packet {h : Word} {args : List Word} (hlen : args.length = popcount (maskField h))
    {inbox rest : List Transfer} (hin : inbox = transfersOn .command (h :: args) ++ rest) :
    nextTransaction inbox = some (.command, h :: args, rest) := by
  rw [← argCount_eq_popcount] at hlen
  rw [hin]
  change nextTransaction (⟨.command, h⟩ :: (transfersOn .command args ++ rest)) = _
  simp only [nextTransaction, ← hlen, gather_whole]

/-- Settles O5: a reserved packet decodes to no command, and packets with one OP and one row's slots to one command. -/
theorem reservedPacketsAreIgnored : Obligations.ReservedPacketsAreIgnored := by
  refine ⟨fun s h args rest hlen hin hres => ?_,
    fun s h h' args args' rest n hlen hlen' hz hz' hop hlookup hslots => ?_⟩
  · obtain ⟨why, hdecode⟩ := decode_reserved hlen [] (hres.imp_right fun hnone => commandOf_eq_none hnone _)
    rw [List.append_nil] at hdecode
    exact step_of_ignored (nextTransaction_packet hlen hin) hdecode
  · obtain ⟨i, hdecode, hiop, hislots⟩ := commandFields h args [] n hz hlookup hlen
    obtain ⟨j, hdecode', hjop, hjslots⟩ := commandFields h' args' [] n hz' (by rw [← hop, hlookup]) hlen'
    have hsame : i = j := by
      refine command_ext (decodedIsWellFormed _ _ _ _ hdecode).2 (decodedIsWellFormed _ _ _ _ hdecode').2
        (by rw [hiop, hjop, hop]) ?_
      rw [hislots, hjslots]
      exact List.map_congr_left fun k hk => hslots k (List.mem_range.1 hk)
    rw [List.append_nil] at hdecode hdecode'
    rw [step_of_instr (nextTransaction_packet hlen rfl) hdecode,
      step_of_instr (nextTransaction_packet hlen' rfl) hdecode', hsame]

/-! ### Words of the memory port -/

/-- A field of a word, as the spec's bit range [lo + len - 1 : lo] reads it. -/
theorem toNat_extractLsb' {n : Nat} (w : BitVec n) (lo len : Nat) :
    (w.extractLsb' lo len).toNat = w.toNat / 2 ^ lo % 2 ^ len := by
  rw [BitVec.extractLsb'_toNat, Nat.shiftRight_eq_div_pow]

theorem extractLsb'_eq_zero_iff {n : Nat} (w : BitVec n) (lo len : Nat) :
    w.extractLsb' lo len = 0 ↔ w.toNat / 2 ^ lo % 2 ^ len = 0 := by
  rw [← toNat_extractLsb', BitVec.toNat_eq, BitVec.ofNat_eq_ofNat, BitVec.toNat_ofNat, Nat.zero_mod]

theorem getLsbD_31_iff (w : Word) : w.getLsbD 31 = true ↔ w.toNat / 2 ^ 31 = 1 := by
  have hw : w.toNat < 2 ^ 32 := w.isLt
  rw [BitVec.getLsbD, Nat.testBit_eq_decide_div_mod_eq, decide_eq_true_iff]
  omega

/-- The layout of 30_encoding R103 in numbers. -/
theorem decodeMemory_word (w : Word) (tail : List Word) : decodeMemory (w :: tail) =
    if w.toNat / 2 ^ 24 % 2 ^ 7 ≠ 0 then .ignored .reservedMemBits tail
    else if w.toNat / 2 ^ 31 = 1 then .instr (.memw (w.toNat / 2 ^ 8 % 2 ^ 16) (BitVec.ofNat 8 w.toNat)) tail
    else .instr (.memr (w.toNat / 2 ^ 8 % 2 ^ 16)) tail := by
  have hdata : w.extractLsb' 0 8 = BitVec.ofNat 8 w.toNat := by
    rw [BitVec.ofNat_toNat, BitVec.setWidth_eq_extractLsb' (by decide)]
  simp only [decodeMemory, ne_eq, extractLsb'_eq_zero_iff, getLsbD_31_iff, toNat_extractLsb', hdata]

/-- Settles O6: the word is ignored, a MEMW or a MEMR, as `decodeMemory_word` says. -/
theorem memoryWord : Obligations.MemoryWord := by
  intro s w rest hin
  have hnext : nextTransaction s.inbox = some (.memory, [w], rest) := by rw [hin]; rfl
  have haddr : w.toNat / 2 ^ 8 % 2 ^ 16 < 2 ^ 16 := Nat.mod_lt _ (by decide)
  have hdecode := decodeMemory_word w []
  split
  · next hres =>
    rw [if_pos hres] at hdecode
    exact step_of_ignored hnext hdecode
  next hres =>
  rw [if_neg hres] at hdecode
  split
  · next hwrite =>
    rw [if_pos hwrite] at hdecode
    rw [step_of_instr hnext hdecode]
    exact exec_memw_eq_next.2 ⟨haddr, rfl⟩
  · next hread =>
    rw [if_neg hread] at hdecode
    rw [step_of_instr hnext hdecode]
    refine exec_memr_eq_next.2 ⟨haddr, ?_⟩
    rw [memRead_withQueues s rest s.memOut, BitVec.ofNat_toNat]
    rfl

/-! ### Words of the audio port -/

/-- A SAMPLE never stops and answers with one sign-extended int16 (42_audio R284). -/
theorem exec_sample_answers (c : Nat) (s : State) :
    ∃ t v, exec (.sample c) s = .next t ∧ t.audOut = s.audOut ++ [sampleWord v] := by
  change ∃ t v, execSample c s = .next t ∧ _
  unfold execSample
  split
  · split
    · exact ⟨_, 0, rfl, rfl⟩
    · exact ⟨_, _, rfl, rfl⟩
  · exact ⟨_, 0, rfl, rfl⟩

theorem extractLsb'_sampleWord (v : Int) : (sampleWord v).extractLsb' 0 16 = BitVec.ofInt 16 v := by
  rw [sampleWord, BitVec.signExtend_eq_append_of_le (by decide)]
  exact BitVec.extractLsb'_append_eq_right

/-- Settles O7: the word is a SAMPLE of its low byte, and the answer the sign extension of an int16. -/
theorem audioWord : Obligations.AudioWord := by
  intro s w rest hin
  have hnext : nextTransaction s.inbox = some (.audio, [w], rest) := by rw [hin]; rfl
  have hdecode : decode .audio [w] = .instr (.sample (w.toNat % 2 ^ 8)) [] := by
    rw [decode, decodeAudio, toNat_extractLsb', Nat.pow_zero, Nat.div_one]
  obtain ⟨t, v, hexec, hout⟩ := exec_sample_answers (w.toNat % 2 ^ 8) { s with inbox := rest }
  refine ⟨t, sampleWord v, ?_, hexec, hout, ?_⟩
  · rw [step_of_instr hnext hdecode, hexec]
  · rw [extractLsb'_sampleWord]
    rfl

end Sys2Proof.Machine
end

section
/-! The values that argument words and result words stand for (30_encoding R105, R111), and how many result words each
command places (R102, R109). -/

namespace Sys2Proof.Machine

open Spec

/-! ### Arguments and results -/

/-- The floor of the 16.16 number of a word. -/
theorem floor_word (w : Word) : ⌊(w.toInt : ℚ) / 65536⌋ = w.toInt / 65536 :=
  Rat.floor_intCast_div_natCast w.toInt 65536

theorem int16_eq_ediv (w : Word) : int16 w = w.toInt / 65536 := by
  have hw : w.toNat < 2 ^ 32 := w.isLt
  rw [int16, BitVec.toInt_eq_toNat_cond, BitVec.toInt_eq_toNat_cond w, toNat_extractLsb']
  split <;> split <;> omega

theorem toNat_byteOf (w : Word) : ((byteOf w).toNat : Int) = w.toInt / 65536 % 256 := by
  rw [byteOf, toNat_extractLsb', BitVec.toInt_eq_toNat_cond]
  split <;> omega

theorem toNat_nibOf (w : Word) : ((nibOf w).toNat : Int) = w.toInt / 65536 % 16 := by
  rw [nibOf, toNat_extractLsb', BitVec.toInt_eq_toNat_cond]
  split <;> omega

theorem resultInt_eq_shiftLeft (v : Int) : resultInt v = BitVec.ofInt 32 v <<< 16 := by
  rw [resultInt, BitVec.ofInt_mul, BitVec.shiftLeft_eq_mul_twoPow]
  rfl

theorem int16_resultInt {v : Int} (hlo : -32768 ≤ v) (hhi : v ≤ 32767) : int16 (resultInt v) = v := by
  rw [int16_eq_ediv, resultInt, BitVec.toInt_ofInt_eq_self (by decide) (by omega) (by omega),
    Int.mul_ediv_cancel v (by decide)]

/-- Settles O9: every conversion reads the quotient of the word by 65536, and an encoded int16 is that quotient. -/
theorem argumentAndResultWords : Obligations.ArgumentAndResultWords := by
  refine ⟨fun w => ?_, fun v hlo hhi => ?_, resultInt_eq_shiftLeft, rfl, rfl⟩
  · rw [floor_word]
    exact ⟨int16_eq_ediv w, rfl, decide_eq_true_iff, toNat_byteOf w, toNat_nibOf w⟩
  · rw [← resultInt_eq_shiftLeft]
    exact int16_resultInt hlo hhi

/-! ### How many results a command places -/

/-- A transaction of a row that does not respond on the command port leaves its queue. -/
theorem cmdOut_eq_of_row {i : Instr} {s t : State} (h : exec i s = .next t)
    (hrow : row i ∉ [0x02, 0x0A, 0x13, 0x15, 0x17, 0x1A]) : t.cmdOut = s.cmdOut := by
  obtain ⟨-, -, -, -, -, -, -, -, -, -, -, -, hout, -, -⟩ := registerWriters i s t h
  by_contra hne
  exact hrow (hout hne)

/-- Settles O18: the six rows that respond, each with the words it places, and the others, which leave the queue. -/
theorem resultCounts : Obligations.ResultCounts := by
  intro i s t h
  cases i with
  | pget x y => cases h; exact ⟨_, rfl, rfl⟩
  | camera x y => cases h; exact ⟨_, rfl, rfl⟩
  | mget x y => cases h; exact ⟨_, rfl, rfl⟩
  | sget x y => cases h; exact ⟨_, rfl, rfl⟩
  | fget n b => cases h; exact ⟨_, rfl, rfl⟩
  | palt c f =>
    cases c with
    | none => cases f <;> cases h <;> exact ⟨[], (List.append_nil _).symm, rfl⟩
    | some a =>
      cases f with
      | none => cases h; exact ⟨_, rfl, rfl⟩
      | some b => cases h; exact ⟨[], (List.append_nil _).symm, rfl⟩
  | _ => exact ⟨[], by rw [cmdOut_eq_of_row h (by simp [row, Instr.opcode]), List.append_nil], rfl⟩

/-- Settles O19: `execNop` is the identity. -/
theorem nopDoesNothing : Obligations.NopDoesNothing := fun _ => rfl

end Sys2Proof.Machine
end

section
/-! What the colour, pixel and span rules draw (40_rasterizer R140–R147, R150–R153): a rule's dots are described by their
one colour value and the set of pixels they stand on (`Covers`), and `paint` draws exactly that set. -/

namespace Sys2Proof.Machine

open Spec

/-! ### Arguments -/

theorem int16_argWord (a : Arg) : int16 (argWord a) = intArg a 0 := by
  cases a <;> rfl

theorem half16_argWord (a : Arg) : half16 (argWord a) = BitVec.ofInt 16 (intArg a 0) := by
  rw [← int16_argWord]
  exact (BitVec.ofInt_toInt (x := half16 (argWord a))).symm

@[simp] theorem devx_loadColor (c : Arg) (s : State) (u : Int) : devx (loadColor c s) u = devx s u := by
  simp [devx]

@[simp] theorem devy_loadColor (c : Arg) (s : State) (u : Int) : devy (loadColor c s) u = devy s u := by
  simp [devy]

theorem devx_bounds (s : State) (u : Int) : -32768 ≤ devx s u ∧ devx s u ≤ 32767 := by
  obtain ⟨hlo, hhi, -⟩ := wrap16_spec (u - s.cameraX.toInt)
  exact ⟨hlo, hhi⟩

theorem devy_bounds (s : State) (u : Int) : -32768 ≤ devy s u ∧ devy s u ≤ 32767 := by
  obtain ⟨hlo, hhi, -⟩ := wrap16_spec (u - s.cameraY.toInt)
  exact ⟨hlo, hhi⟩

theorem wrap16_emod (v : Int) : wrap16 v % 65536 = v % 65536 := by
  have := wrap16_spec v
  omega

/-! ### Colours -/

theorem loadColor_some {s : State} {w : Word} : loadColor (some w) s =
    if w.getLsbD 28 = true ∧ s.fillpMode = true then
      { s with pen := w.extractLsb' 16 8, fillp := w.extractLsb' 0 16, fillpTrans := w.getLsbD 24 }
    else { s with pen := w.extractLsb' 16 8 } := by
  simp only [loadColor, colourPatFlag, colourPen, colourPattern, colourPatTrans, Bool.and_eq_true]

theorem penBits_eq (s : State) : penBits s = {
    stipple := s.fillp
    transparent := s.fillpTrans
    primary := (s.drawPal[s.pen.toNat % 16]).extractLsb' 0 4
    secondary := (s.drawPal[s.pen.toNat / 16 % 16]).extractLsb' 0 4 } := by
  have hlo : (s.pen.extractLsb' 0 4).toNat = s.pen.toNat % 16 := by
    rw [toNat_extractLsb', Nat.pow_zero, Nat.div_one]
    rfl
  have hhi : (s.pen.extractLsb' 4 4).toNat = s.pen.toNat / 16 % 16 := toNat_extractLsb' _ _ _
  simp only [penBits, entryColor, palIndex, Fin.getElem_fin, hlo, hhi]

/-- Settles O24: the writes are those of `loadColor_some`, and the colours those of `penBits_eq`. -/
theorem resolveColor_spec : Obligations.ResolveColor :=
  ⟨fun _ => rfl, fun _ _ h => loadColor_some.trans (if_neg h), fun _ _ h1 h2 => loadColor_some.trans (if_pos ⟨h1, h2⟩),
    fun s _ => ⟨rfl, rfl, penBits_eq s⟩⟩

/-! ### One pixel -/

theorem inside_iff_inClip (s : State) (x y : Int) : s.clip.inside x y = true ↔ InClip s x y := Clip.inside_iff

theorem sbit_eq_stippleBit (o : StippleOrder) (st : Half) (x y : Int) : sbit o st x y = stippleBit o st x y := by
  cases o <;> simp [sbit, stippleBit, mod4_eq_emod]

/-- The model's colour of a dot is the rule's (40_rasterizer R142). -/
theorem dotColor_getD (s : State) (cb : ColorBits) (x y : Nat) :
    (dotColor (drawEnv s) ⟨x, y, cb⟩).getD (fbGet s x y) = drawn s cb x y := by
  simp only [dotColor, drawn, drawEnv, ← inside_iff_inClip, sbit_eq_stippleBit]
  cases s.clip.inside x y with
  | false => rfl
  | true =>
    cases stippleBit s.params.stippleOrder cb.stipple x y with
    | false => rfl
    | true => cases cb.transparent <;> rfl

theorem drawn_of_not_inClip {s : State} {x y : Nat} (h : ¬InClip s x y) (cb : ColorBits) :
    drawn s cb x y = fbGet s x y := if_neg h

theorem fbGet_loadColor (c : Arg) (s : State) (x y : Nat) : fbGet (loadColor c s) x y = fbGet s x y := by
  simp [fbGet]

theorem inClip_loadColor (c : Arg) (s : State) (x y : Int) : InClip (loadColor c s) x y ↔ InClip s x y := by
  simp [InClip]

/-! ### Dots of one colour value -/

/-- The dots are exactly those of colour bits cb on the pixels of P, in whatever order and number. -/
def Covers (dots : List Dot) (cb : ColorBits) (P : Int → Int → Prop) : Prop :=
  ∀ d : Dot, d ∈ dots ↔ d.cb = cb ∧ P d.x d.y

theorem Covers.append {ds es : List Dot} {cb : ColorBits} {P Q : Int → Int → Prop} (hd : Covers ds cb P)
    (he : Covers es cb Q) : Covers (ds ++ es) cb (fun x y => P x y ∨ Q x y) := by
  intro d
  rw [List.mem_append, hd d, he d, ← and_or_left]

theorem Covers.flatMap {α : Type} {l : List α} {f : α → List Dot} {cb : ColorBits} {P : α → Int → Int → Prop}
    (h : ∀ a, Covers (f a) cb (P a)) : Covers (l.flatMap f) cb (fun x y => ∃ a ∈ l, P a x y) := by
  intro d
  simp only [List.mem_flatMap, h _ d]
  tauto

theorem Covers.congr {dots : List Dot} {cb : ColorBits} {P Q : Int → Int → Prop} (h : Covers dots cb P)
    (hPQ : ∀ x y, P x y ↔ Q x y) : Covers dots cb Q := fun d => by rw [h d, hPQ]

theorem covers_singleton (px py : Int) (cb : ColorBits) : Covers [⟨px, py, cb⟩] cb (fun x y => x = px ∧ y = py) := by
  rintro ⟨x, y, cb'⟩
  simp only [List.mem_singleton, Dot.mk.injEq]
  tauto

/-- The dots of a list of points. -/
theorem covers_map_points {α : Type} (l : List α) (fx fy : α → Int) (cb : ColorBits) :
    Covers (l.map fun a => ⟨fx a, fy a, cb⟩) cb (fun x y => ∃ a ∈ l, fx a = x ∧ fy a = y) := by
  rintro ⟨x, y, cb'⟩
  simp only [List.mem_map, Dot.mk.injEq]
  constructor
  · rintro ⟨a, ha, hx, hy, rfl⟩
    exact ⟨rfl, a, ha, hx, hy⟩
  · rintro ⟨rfl, a, ha, hx, hy⟩
    exact ⟨a, ha, hx, hy, rfl⟩

/-- One dot in each column of a list, at the row f gives. -/
theorem covers_map_columns (l : List Int) (f : Int → Int) (cb : ColorBits) :
    Covers (l.map fun x => ⟨x, f x, cb⟩) cb (fun x y => x ∈ l ∧ y = f x) := by
  refine (covers_map_points l id f cb).congr fun x y => ⟨?_, ?_⟩
  · rintro ⟨_, hx, rfl, rfl⟩
    exact ⟨hx, rfl⟩
  · rintro ⟨hx, rfl⟩
    exact ⟨x, hx, rfl, rfl⟩

/-- One dot in each row of a list, at the column f gives. -/
theorem covers_map_rows (l : List Int) (f : Int → Int) (cb : ColorBits) :
    Covers (l.map fun y => ⟨f y, y, cb⟩) cb (fun x y => y ∈ l ∧ x = f y) := by
  refine (covers_map_points l f id cb).congr fun x y => ⟨?_, ?_⟩
  · rintro ⟨_, hy, rfl, rfl⟩
    exact ⟨hy, rfl⟩
  · rintro ⟨hy, rfl⟩
    exact ⟨y, hy, rfl, rfl⟩

theorem mem_rangeIncl_iff_between (a b x : Int) : x ∈ rangeIncl (min a b) (max a b) ↔ Between a b x := mem_rangeIncl

theorem covers_hlineDots (x0 x1 y0 : Int) (cb : ColorBits) :
    Covers (hlineDots x0 x1 y0 cb) cb (fun x y => Between x0 x1 x ∧ y = y0) :=
  (covers_map_columns _ (fun _ => y0) cb).congr fun x _ => by rw [mem_rangeIncl_iff_between]

theorem covers_vlineDots (x0 y0 y1 : Int) (cb : ColorBits) :
    Covers (vlineDots x0 y0 y1 cb) cb (fun x y => x = x0 ∧ Between y0 y1 y) :=
  (covers_map_rows _ (fun _ => x0) cb).congr fun _ y => by rw [mem_rangeIncl_iff_between, and_comm]

theorem onlyFb_paint (s : State) (dots : List Dot) : OnlyFb s (paint s dots) :=
  ⟨rfl, fun _ ha => read_paint s dots ha⟩

/-- Painting dots of one colour value does `setPixel` at exactly their pixels. -/
theorem Covers.plots {dots : List Dot} {cb : ColorBits} {P : Int → Int → Prop} (h : Covers dots cb P) (s : State) :
    Plots s (paint s dots) cb P := by
  refine ⟨onlyFb_paint s dots, fun x y hx _ => ?_⟩
  have hcb : ∀ d ∈ dots, d.cb = cb := fun d hd => ((h d).1 hd).1
  have hP : (∃ d ∈ dots, d.x = x ∧ d.y = y) ↔ P x y := by
    constructor
    · rintro ⟨d, hd, hdx, hdy⟩
      exact hdx ▸ hdy ▸ ((h d).1 hd).2
    · exact fun hp => ⟨⟨x, y, cb⟩, (h _).2 ⟨rfl, hp⟩, rfl, rfl⟩
  rw [fbGet_paint_uniform s dots cb hcb hx, dotColor_getD]
  exact ⟨fun hp => if_pos (hP.2 hp), fun hp => if_neg (mt hP.1 hp)⟩

/-- A command that paints the dots of its resolved colour draws their pixels. -/
theorem Covers.draws {i : Instr} {c : Arg} {s : State} {dots : List Dot} {P : Int → Int → Prop}
    (h : Covers dots (penBits (loadColor c s)) P) (hexec : exec i s = .next (paint (loadColor c s) dots)) :
    Draws i c s P := ⟨_, hexec, h.plots _⟩

theorem draws_congr {i : Instr} {c : Arg} {s : State} {P Q : Int → Int → Prop} (hPQ : ∀ x y, P x y ↔ Q x y) :
    Draws i c s P ↔ Draws i c s Q := by
  rw [show P = Q from funext fun x => funext fun y => propext (hPQ x y)]

/-- Settles O25: one dot covers one pixel. -/
theorem setPixel_spec : Obligations.SetPixel := fun s cb px py => (covers_singleton px py cb).plots s

/-! ### PSET, PGET and the spans -/

theorem exec_pset (ax ay c : Arg) (s : State) : exec (.pset ax ay c) s = .next (paint (loadColor c s)
    [⟨devx s (intArg ax 0), devy s (intArg ay 0), penBits (loadColor c s)⟩]) := by
  simp only [exec, execPset, resolveColor, int16_argWord, devx_loadColor, devy_loadColor]

/-- Settles O26: the pixel is the one of PSET's dot, and a device coordinate is a `wrap16`. -/
theorem psetDrawsPixel : Obligations.PsetDrawsPixel := by
  refine ⟨fun s ax ay c => (covers_singleton _ _ _).draws (exec_pset ax ay c s), fun s u =>
    ⟨⟨devx_bounds s u, wrap16_emod _⟩, devy_bounds s u, wrap16_emod _⟩, fun v => ⟨?_, wrap16_emod v⟩⟩
  obtain ⟨hlo, hhi, -⟩ := wrap16_spec v
  exact ⟨hlo, hhi⟩

theorem resultInt_natCast (n : Nat) : resultInt n = intWord n := by
  rw [resultInt, intWord, ← BitVec.ofInt_natCast]
  push_cast
  rfl

theorem getPixel_of_inClip {s : State} {x y : Int} (h : InClip s x y) : getPixel s x y = fbGet s x.toNat y.toNat :=
  if_pos ((inside_iff_inClip s x y).2 h)

theorem getPixel_of_not_inClip {s : State} {x y : Int} (h : ¬InClip s x y) : getPixel s x y = 0 :=
  if_neg (mt (inside_iff_inClip s x y).1 h)

theorem exec_pget (ax ay : Arg) (s : State) : exec (.pget ax ay) s =
    .next (respond s [intWord (getPixel s (devx s (intArg ax 0)) (devy s (intArg ay 0))).toNat]) := by
  simp only [exec, execPget, int16_argWord, resultInt_natCast]

/-- Settles O27: the nibble is the one `getPixel` reads. -/
theorem pgetAnswersPixel : Obligations.PgetAnswersPixel := by
  intro s ax ay
  rw [exec_pget]
  by_cases h : InClip s (devx s (intArg ax 0)) (devy s (intArg ay 0))
  · rw [getPixel_of_inClip h, if_pos h]
    rfl
  · rw [getPixel_of_not_inClip h, if_neg h]
    rfl

theorem exec_hline (ax0 ax1 ay c : Arg) (s : State) : exec (.hline ax0 ax1 ay c) s = .next (paint (loadColor c s)
    (hlineDots (devx s (intArg ax0 0)) (devx s (intArg ax1 0)) (devy s (intArg ay 0)) (penBits (loadColor c s)))) := by
  simp only [exec, execHline, resolveColor, int16_argWord, devx_loadColor, devy_loadColor]

theorem exec_vline (ax ay0 ay1 c : Arg) (s : State) : exec (.vline ax ay0 ay1 c) s = .next (paint (loadColor c s)
    (vlineDots (devx s (intArg ax 0)) (devy s (intArg ay0 0)) (devy s (intArg ay1 0)) (penBits (loadColor c s)))) := by
  simp only [exec, execVline, resolveColor, int16_argWord, devx_loadColor, devy_loadColor]

/-- Settles O28: the dots of a span cover it. -/
theorem spansDrawn : Obligations.SpansDrawn :=
  ⟨fun s ax0 ax1 ay c => (covers_hlineDots _ _ _ _).draws (exec_hline ax0 ax1 ay c s),
    fun s ax ay0 ay1 c => (covers_vlineDots _ _ _ _).draws (exec_vline ax ay0 ay1 c s)⟩

/-! ### Whole bytes of a span -/

theorem stippleBit_zero (o : StippleOrder) (x y : Int) : stippleBit o 0 x y = false := by
  simp [stippleBit]

/-- With no stipple bit set, a pixel inside the clip rectangle takes the primary colour. -/
theorem drawn_of_no_stipple {s : State} {cb : ColorBits} (h : cb.stipple = 0) {x y : Nat} (hin : InClip s x y) :
    drawn s cb x y = cb.primary := by
  rw [drawn, if_pos hin, h, stippleBit_zero]
  rfl

/-- A byte is its two nibbles. -/
theorem eq_nibbles (b : Byte) : b = b.extractLsb' 4 4 ++ b.extractLsb' 0 4 := by
  rw [BitVec.extractLsb'_append_extractLsb'_eq_extractLsb' (by decide), BitVec.extractLsb'_eq_self]

theorem memRead_fb (s : State) {a : Nat} (h : fbBase ≤ a ∧ a < fbBase + 8192) : memRead s a = Memory.read s.mem a := by
  obtain ⟨harray, hphys⟩ := storage_fb s.params h
  rw [memRead_array harray, arrayByte, hphys]

/-- Byte k of framebuffer row y holds pixel 2k in its low and pixel 2k + 1 in its high nibble (20_memory R72). -/
theorem memRead_fb_row (s : State) {k y : Nat} (hk : k < 64) (hy : y < 128) :
    memRead s (0x6000 + 64 * y + k) = fbGet s (2 * k + 1) y ++ fbGet s (2 * k) y := by
  have hbounds : fbBase ≤ 0x6000 + 64 * y + k ∧ 0x6000 + 64 * y + k < fbBase + 8192 := by unfold fbBase; omega
  have heven : pixelAddr fbBase (2 * k) y = 0x6000 + 64 * y + k := by unfold pixelAddr fbBase; omega
  have hodd : pixelAddr fbBase (2 * k + 1) y = 0x6000 + 64 * y + k := by unfold pixelAddr fbBase; omega
  rw [memRead_fb s hbounds, fbGet, fbGet, pixelGet, pixelGet, heven, hodd]
  generalize Memory.read s.mem _ = b
  rw [nibbleAt, if_neg (by omega), nibbleAt, if_pos (by omega), ← eq_nibbles]

theorem fbGet_even (s : State) {k y : Nat} (hk : k < 64) (hy : y < 128) :
    fbGet s (2 * k) y = (memRead s (0x6000 + 64 * y + k)).extractLsb' 0 4 := by
  rw [memRead_fb_row s hk hy, lo_nibble]

theorem fbGet_odd (s : State) {k y : Nat} (hk : k < 64) (hy : y < 128) :
    fbGet s (2 * k + 1) y = (memRead s (0x6000 + 64 * y + k)).extractLsb' 4 4 := by
  rw [memRead_fb_row s hk hy, hi_nibble]

/-- A pixel of the row of an HLINE with no stipple bit set. -/
theorem fbGet_hline_of_no_stipple {s t : State} {ax0 ax1 ay c : Arg} {x y : Nat} (hfill : (loadColor c s).fillp = 0)
    (hx : x < 128) (hy : y < 128) (hrow : devy s (intArg ay 0) = y) (h : exec (.hline ax0 ax1 ay c) s = .next t) :
    (InClip s x y ∧ Between (devx s (intArg ax0 0)) (devx s (intArg ax1 0)) x →
      fbGet t x y = (penBits (loadColor c s)).primary)
    ∧ (¬(InClip s x y ∧ Between (devx s (intArg ax0 0)) (devx s (intArg ax1 0)) x) → fbGet t x y = fbGet s x y) := by
  obtain ⟨t', hexec, -, hpix⟩ := spansDrawn.1 s ax0 ax1 ay c
  obtain rfl : t' = t := Host.Outcome.next.inj (hexec.symm.trans h)
  obtain ⟨hon, hoff⟩ := hpix x y hx hy
  refine ⟨fun ⟨hin, hbet⟩ => ?_, fun hout => ?_⟩
  · rw [hon ⟨hbet, hrow.symm⟩, drawn_of_no_stipple hfill ((inClip_loadColor c s x y).2 hin)]
  · by_cases hbet : Between (devx s (intArg ax0 0)) (devx s (intArg ax1 0)) x
    · have hclip : ¬InClip (loadColor c s) x y := fun hin => hout ⟨(inClip_loadColor c s x y).1 hin, hbet⟩
      rw [hon ⟨hbet, hrow.symm⟩, drawn_of_not_inClip hclip, fbGet_loadColor]
    · rw [hoff fun hp => hbet hp.1, fbGet_loadColor]

/-- Settles O29: each byte is its two pixels, and each pixel is the primary colour or stays. -/
theorem spanFastPath : Obligations.SpanFastPath := by
  intro s t ax0 ax1 ay c k y hfill hk hy hrow h
  obtain ⟨hlo, hlo'⟩ := fbGet_hline_of_no_stipple (x := 2 * k) hfill (by omega) hy hrow h
  obtain ⟨hhi, hhi'⟩ := fbGet_hline_of_no_stipple (x := 2 * k + 1) hfill (by omega) hy hrow h
  push_cast at hlo hlo' hhi hhi'
  dsimp only
  rw [memRead_fb_row t hk hy, ← fbGet_even s hk hy, ← fbGet_odd s hk hy, memRead_fb_row s hk hy]
  refine ⟨fun ⟨he, ho⟩ => ?_, fun ⟨he, ho⟩ => ?_, fun ⟨he, ho⟩ => ?_, fun ⟨he, ho⟩ => ?_⟩
  · rw [hlo he, hhi ho]
  · rw [hlo he, hhi' ho]
  · rw [hlo' he, hhi ho]
  · rw [hlo' he, hhi' ho]

end Sys2Proof.Machine
end

section
/-! What LINE draws (40_rasterizer R160–R162): the dots of `rasterLine` cover `OnLine`, whose pixels do not depend on the
order of the ends or of the axes, and are one for each step of the major axis. -/

namespace Sys2Proof.Machine

open Spec

/-! ### Nearest integers -/

theorem floor_add_half_eq_iff (q : Rat) (n : Int) : (q + 1 / 2).floor = n ↔ -(1 / 2) ≤ q - n ∧ q - n < 1 / 2 := by
  refine (Int.floor_eq_iff (a := q + 1 / 2)).trans ?_
  constructor <;> rintro ⟨h1, h2⟩ <;> constructor <;> linarith

theorem nearest_halfUp_iff (q : Rat) (n : Int) :
    Nearest .halfUp q n ↔ -(1 / 2) ≤ q - n ∧ q - n < 1 / 2 := by
  simp only [Nearest, reduceCtorEq, if_false, abs_lt]
  constructor
  · rintro (⟨h1, h2⟩ | ⟨h1, h2⟩)
    · exact ⟨h1.le, h2⟩
    · rw [abs_of_neg (by linarith)] at h1
      constructor <;> linarith
  · rintro ⟨h1, h2⟩
    rcases h1.eq_or_lt with h1 | h1
    · exact .inr ⟨by rw [← h1]; norm_num, by linarith⟩
    · exact .inl ⟨h1, h2⟩

/-- On the side of q ≥ 0, away from zero is upward. -/
theorem nearest_awayFromZero_iff {q : Rat} (hq : 0 ≤ q) (n : Int) :
    Nearest .awayFromZero q n ↔ Nearest .halfUp q n := by
  simp only [Nearest, reduceCtorEq, if_false, if_true, abs_of_nonneg hq]
  refine or_congr_right (and_congr_right fun htie => ?_)
  constructor
  · intro hlt
    rcases lt_abs.1 hlt with h | h
    · exact h
    · exfalso
      have hneg : (n : Rat) < 0 := by linarith
      have hle : n ≤ -1 := Int.le_sub_one_of_lt (by exact_mod_cast hneg)
      have hle' : (n : Rat) ≤ -1 := by exact_mod_cast hle
      rw [abs_of_pos (by linarith)] at htie
      linarith
  · exact fun hlt => hlt.trans_le (le_abs_self _)

theorem nearest_awayFromZero_neg (q : Rat) (n : Int) : Nearest .awayFromZero (-q) (-n) ↔ Nearest .awayFromZero q n := by
  simp only [Nearest, if_true, Int.cast_neg, abs_neg, neg_sub_neg, abs_sub_comm (n : Rat) q]

/-- `roundTie` is the nearest integer (00_scope R10, R12). -/
theorem nearest_iff_eq_roundTie (tie : LineTie) (q : Rat) (n : Int) : Nearest tie q n ↔ n = roundTie tie q := by
  cases tie with
  | halfUp => rw [nearest_halfUp_iff, ← floor_add_half_eq_iff, roundTie, eq_comm]
  | awayFromZero =>
    by_cases hq : 0 ≤ q
    · rw [nearest_awayFromZero_iff hq, nearest_halfUp_iff, ← floor_add_half_eq_iff, roundTie, if_pos hq, eq_comm]
    · rw [← nearest_awayFromZero_neg, nearest_awayFromZero_iff (by linarith), nearest_halfUp_iff,
        ← floor_add_half_eq_iff, roundTie, if_neg hq]
      omega

theorem nearest_intCast_iff (tie : LineTie) (m n : Int) : Nearest tie m n ↔ n = m := by
  have hself : Nearest tie m m := .inl (by norm_num)
  rw [nearest_iff_eq_roundTie] at hself ⊢
  rw [← hself]

/-! ### The pixels of a line -/

theorem between_comm (a b x : Int) : Between a b x ↔ Between b a x := by
  rw [Between, Between, min_comm, max_comm]

theorem between_left (a b : Int) : Between a b a := ⟨min_le_left _ _, le_max_left _ _⟩

/-- The coordinate at v of the line through (v0, u0) and (v1, u1). -/
def interpolate (u0 u1 v0 v1 v : Int) : Rat := (u0 : Rat) + (u1 - u0) * (v - v0) / (v1 - v0)

theorem onLine_of_point (tie : LineTie) {x0 y0 x1 y1 : Int} (h : x0 = x1 ∧ y0 = y1) (x y : Int) :
    OnLine tie x0 y0 x1 y1 x y ↔ x = x0 ∧ y = y0 := by rw [OnLine, if_pos h]

theorem onLine_of_wide (tie : LineTie) {x0 y0 x1 y1 : Int} (h : |y1 - y0| < |x1 - x0|) (x y : Int) :
    OnLine tie x0 y0 x1 y1 x y ↔ Between x0 x1 x ∧ Nearest tie (interpolate y0 y1 x0 x1 x) y := by
  have hne : ¬(x0 = x1 ∧ y0 = y1) := by
    rintro ⟨rfl, rfl⟩
    simp at h
  rw [OnLine, if_neg hne, if_pos h, interpolate]

theorem onLine_of_tall (tie : LineTie) {x0 y0 x1 y1 : Int} (hne : ¬(x0 = x1 ∧ y0 = y1)) (h : |x1 - x0| ≤ |y1 - y0|)
    (x y : Int) : OnLine tie x0 y0 x1 y1 x y ↔ Between y0 y1 y ∧ Nearest tie (interpolate x0 x1 y0 y1 y) x := by
  rw [OnLine, if_neg hne, if_neg (not_lt.2 h), interpolate]

theorem ne_of_tall {x0 y0 x1 y1 : Int} (hne : ¬(x0 = x1 ∧ y0 = y1)) (h : |x1 - x0| ≤ |y1 - y0|) : y0 ≠ y1 := by
  rintro rfl
  rw [sub_self, abs_zero, abs_nonpos_iff] at h
  exact hne ⟨by omega, rfl⟩

/-- The line is read from its other end. -/
theorem interpolate_swap (u0 u1 : Int) {v0 v1 : Int} (h : v0 ≠ v1) (v : Int) :
    interpolate u0 u1 v0 v1 v = interpolate u1 u0 v1 v0 v := by
  have h1 : (v1 : Rat) - v0 ≠ 0 := sub_ne_zero.2 (by exact_mod_cast h.symm)
  have h2 : (v0 : Rat) - v1 ≠ 0 := sub_ne_zero.2 (by exact_mod_cast h)
  unfold interpolate
  field_simp
  ring

theorem interpolate_left (u0 u1 v0 v1 : Int) : interpolate u0 u1 v0 v1 v0 = u0 := by simp [interpolate]

/-- The pixels do not depend on which end is given first (40_rasterizer R162). -/
theorem onLine_reverse (tie : LineTie) (x0 y0 x1 y1 x y : Int) :
    OnLine tie x0 y0 x1 y1 x y ↔ OnLine tie x1 y1 x0 y0 x y := by
  by_cases hpt : x0 = x1 ∧ y0 = y1
  · obtain ⟨rfl, rfl⟩ := hpt
    rfl
  have hpt' : ¬(x1 = x0 ∧ y1 = y0) := by omega
  rcases lt_or_ge |y1 - y0| |x1 - x0| with h | h
  · have hx : x0 ≠ x1 := by
      rintro rfl
      rw [sub_self, abs_zero] at h
      exact not_lt.2 (abs_nonneg _) h
    rw [onLine_of_wide tie h, onLine_of_wide tie (by rwa [abs_sub_comm y0, abs_sub_comm x0]), between_comm,
      interpolate_swap _ _ hx]
  · rw [onLine_of_tall tie hpt h, onLine_of_tall tie hpt' (by rwa [abs_sub_comm y0, abs_sub_comm x0]), between_comm,
      interpolate_swap _ _ (ne_of_tall hpt h)]

theorem onLine_start (tie : LineTie) (x0 y0 x1 y1 : Int) : OnLine tie x0 y0 x1 y1 x0 y0 := by
  by_cases hpt : x0 = x1 ∧ y0 = y1
  · exact (onLine_of_point tie hpt _ _).2 ⟨rfl, rfl⟩
  rcases lt_or_ge |y1 - y0| |x1 - x0| with h | h
  · rw [onLine_of_wide tie h, interpolate_left, nearest_intCast_iff]
    exact ⟨between_left _ _, rfl⟩
  · rw [onLine_of_tall tie hpt h, interpolate_left, nearest_intCast_iff]
    exact ⟨between_left _ _, rfl⟩

theorem onLine_end (tie : LineTie) (x0 y0 x1 y1 : Int) : OnLine tie x0 y0 x1 y1 x1 y1 :=
  (onLine_reverse tie x0 y0 x1 y1 x1 y1).2 (onLine_start tie x1 y1 x0 y0)

/-- A diagonal passes through pixels only: one coordinate is the other, shifted or mirrored. -/
theorem onLine_of_diagonal (tie : LineTie) {x0 y0 x1 y1 e : Int} (he : e = 1 ∨ e = -1) (hx : x1 - x0 = e * (y1 - y0))
    (x y : Int) : OnLine tie x0 y0 x1 y1 x y ↔ Between y0 y1 y ∧ x = x0 + e * (y - y0) := by
  by_cases hpt : x0 = x1 ∧ y0 = y1
  · obtain ⟨rfl, rfl⟩ := hpt
    rw [onLine_of_point tie ⟨rfl, rfl⟩, Between, min_self, max_self]
    rcases he with rfl | rfl <;> omega
  have habs : |x1 - x0| = |y1 - y0| := by rcases he with rfl | rfl <;> simp [hx, abs_sub_comm]
  have hy : (y1 : Rat) - y0 ≠ 0 := sub_ne_zero.2 (by exact_mod_cast (ne_of_tall hpt habs.le).symm)
  have hxq : (x1 : Rat) - x0 = e * (y1 - y0) := by exact_mod_cast hx
  have hq : interpolate x0 x1 y0 y1 y = ((x0 + e * (y - y0) : Int) : Rat) := by
    rw [interpolate, hxq]
    field_simp
    push_cast
    ring
  rw [onLine_of_tall tie hpt habs.le, hq, nearest_intCast_iff]

/-- The axes can change places: only a diagonal is stepped along the other axis then, and its pixels are the same
(40_rasterizer R162). -/
theorem onLine_transpose (tie : LineTie) (x0 y0 x1 y1 x y : Int) :
    OnLine tie x0 y0 x1 y1 x y ↔ OnLine tie y0 x0 y1 x1 y x := by
  by_cases hpt : x0 = x1 ∧ y0 = y1
  · rw [onLine_of_point tie hpt, onLine_of_point tie hpt.symm, and_comm]
  have hpt' : ¬(y0 = y1 ∧ x0 = x1) := fun h => hpt h.symm
  rcases lt_trichotomy |y1 - y0| |x1 - x0| with h | h | h
  · rw [onLine_of_wide tie h, onLine_of_tall tie hpt' h.le]
  · obtain ⟨e, he, hx⟩ : ∃ e : Int, (e = 1 ∨ e = -1) ∧ x1 - x0 = e * (y1 - y0) := by
      rcases abs_eq_abs.1 h with h | h
      · exact ⟨1, .inl rfl, by omega⟩
      · exact ⟨-1, .inr rfl, by omega⟩
    have hy : y1 - y0 = e * (x1 - x0) := by rcases he with rfl | rfl <;> omega
    rw [onLine_of_diagonal tie he hx, onLine_of_diagonal tie he hy, Between, Between]
    rcases he with rfl | rfl <;> omega
  · rw [onLine_of_tall tie hpt h.le, onLine_of_wide tie h]

/-- One pixel for each step along the y axis, when that axis is not the shorter one. -/
theorem existsUnique_onLine_row (tie : LineTie) {x0 y0 x1 y1 : Int} (h : |x1 - x0| ≤ |y1 - y0|) {y : Int}
    (hy : Between y0 y1 y) : ∃! x, OnLine tie x0 y0 x1 y1 x y := by
  by_cases hpt : x0 = x1 ∧ y0 = y1
  · obtain ⟨rfl, rfl⟩ := hpt
    have hy0 : y = y0 := by rw [Between, min_self, max_self] at hy; omega
    simp only [onLine_of_point tie ⟨rfl, rfl⟩, hy0, and_true, existsUnique_eq]
  · simp only [onLine_of_tall tie hpt h, hy, true_and, nearest_iff_eq_roundTie, existsUnique_eq]

theorem existsUnique_onLine_column (tie : LineTie) {x0 y0 x1 y1 : Int} (h : |y1 - y0| ≤ |x1 - x0|) {x : Int}
    (hx : Between x0 x1 x) : ∃! y, OnLine tie x0 y0 x1 y1 x y := by
  simp only [onLine_transpose tie x0 y0]
  exact existsUnique_onLine_row tie h hx

/-! ### The dots of a line -/

theorem covers_lineDots (tie : LineTie) (x0 y0 x1 y1 : Int) (cb : ColorBits) :
    Covers (lineDots tie x0 y0 x1 y1 cb) cb (OnLine tie x0 y0 x1 y1) := by
  unfold lineDots
  split
  · next hpt => exact (covers_singleton _ _ _).congr fun x y => (onLine_of_point tie hpt x y).symm
  next hpt =>
  split
  · next h =>
    have hwide : |y1 - y0| < |x1 - x0| := by simpa only [Int.abs_eq_natAbs, Int.ofNat_lt] using h
    exact (covers_map_columns _ _ cb).congr fun x y => by
      rw [onLine_of_wide tie hwide, mem_rangeIncl_iff_between, nearest_iff_eq_roundTie, interpolate]
  · next h =>
    have htall : |x1 - x0| ≤ |y1 - y0| := by simpa only [Int.abs_eq_natAbs, Int.ofNat_le, not_lt] using h
    exact (covers_map_rows _ _ cb).congr fun x y => by
      rw [onLine_of_tall tie hpt htall, mem_rangeIncl_iff_between, nearest_iff_eq_roundTie, interpolate]

/-! ### LINE -/

/-- The state LINE leaves from the start point (X0, Y0) to the end point of the words ex, ey. -/
def lineDrawn (c : Arg) (s : State) (X0 Y0 : Int) (ex ey : Word) : State :=
  { paint (loadColor c s) (lineDots s.params.lineTie (devx s X0) (devy s Y0) (devx s (intArg (some ex) 0))
      (devy s (intArg (some ey) 0)) (penBits (loadColor c s))) with
    anchorX := ex.extractLsb' 16 16, anchorY := ey.extractLsb' 16 16 }

theorem exec_line_of_start {ax0 ay0 c : Arg} {s : State} {X0 Y0 : Int} (h : lineStart ax0 ay0 s = some (X0, Y0))
    (ex ey : Word) : exec (.line ax0 ay0 (some ex) (some ey) c) s = .next (lineDrawn c s X0 Y0 ex ey) := by
  simp only [exec, execLine, h, resolveColor, devx_loadColor, devy_loadColor, loadColor_params]
  rfl

theorem exec_line_incomplete {ax0 ay0 ax1 ay1 : Arg} {s : State}
    (h : ax1 = none ∨ ay1 = none ∨ lineStart ax0 ay0 s = none) (c : Arg) :
    exec (.line ax0 ay0 ax1 ay1 c) s = .next s := by
  change execLine ax0 ay0 ax1 ay1 c s = _
  unfold execLine
  split
  · next hstart => simp [hstart] at h
  · rfl

theorem plots_lineDrawn (c : Arg) (s : State) (X0 Y0 : Int) (ex ey : Word) :
    Plots (loadColor c s) { lineDrawn c s X0 Y0 ex ey with anchorX := s.anchorX, anchorY := s.anchorY }
      (penBits (loadColor c s)) (OnLine s.params.lineTie (devx s X0) (devy s Y0) (devx s (intArg (some ex) 0))
        (devy s (intArg (some ey) 0))) := by
  have h := (covers_lineDots s.params.lineTie (devx s X0) (devy s Y0) (devx s (intArg (some ex) 0))
    (devy s (intArg (some ey) 0)) (penBits (loadColor c s))).plots (loadColor c s)
  rw [← loadColor_anchorX c s, ← loadColor_anchorY c s]
  exact h

/-- Settles O30: the start point is the explicit one or the anchor, and each other set of slots is incomplete. -/
theorem lineDrawsAndMovesAnchor : Obligations.LineDrawsAndMovesAnchor := by
  refine fun s ax0 ay0 ax1 ay1 c => ⟨?_, fun h => exec_line_incomplete ?_ c⟩
  · rintro ex ey X0 Y0 rfl rfl hstart
    refine ⟨_, exec_line_of_start ?_ ex ey, rfl, rfl, plots_lineDrawn c s X0 Y0 ex ey⟩
    rcases hstart with ⟨hx, hy, rfl, rfl⟩ | ⟨rfl, rfl, rfl, rfl⟩
    · obtain ⟨wx, rfl⟩ := Option.ne_none_iff_exists'.1 hx
      obtain ⟨wy, rfl⟩ := Option.ne_none_iff_exists'.1 hy
      rfl
    · rfl
  · refine h.imp_right (Or.imp_right fun hone => ?_)
    cases ax0 <;> cases ay0 <;> simp [lineStart] at hone ⊢

/-- What an explicit LINE leaves in each pixel. -/
theorem fbGet_line {s t : State} {x0 y0 x1 y1 : Word} {c : Arg}
    (h : exec (.line (some x0) (some y0) (some x1) (some y1) c) s = .next t) {x y : Nat} (hx : x < 128) (hy : y < 128) :
    (OnLine s.params.lineTie (devx s (intArg (some x0) 0)) (devy s (intArg (some y0) 0)) (devx s (intArg (some x1) 0))
        (devy s (intArg (some y1) 0)) x y → fbGet t x y = drawn (loadColor c s) (penBits (loadColor c s)) x y)
    ∧ (¬OnLine s.params.lineTie (devx s (intArg (some x0) 0)) (devy s (intArg (some y0) 0))
        (devx s (intArg (some x1) 0)) (devy s (intArg (some y1) 0)) x y → fbGet t x y = fbGet s x y) := by
  obtain rfl : lineDrawn c s (int16 x0) (int16 y0) x1 y1 = t :=
    Host.Outcome.next.inj ((exec_line_of_start rfl x1 y1).symm.trans h)
  rw [← fbGet_loadColor c s]
  exact (plots_lineDrawn c s (int16 x0) (int16 y0) x1 y1).2 x y hx hy

/-- Settles O31: what LINE leaves in a pixel is said by `OnLine`, which is symmetric in the ends and in the axes. -/
theorem lineConsequences : Obligations.LineConsequences := by
  refine ⟨fun s t u x0 y0 x1 y1 c ht hu x y hx hy => ?_, ?_, fun tie x0 y0 x1 y1 _ => onLine_transpose tie x0 y0 x1 y1⟩
  · obtain ⟨hton, htoff⟩ := fbGet_line ht hx hy
    obtain ⟨huon, huoff⟩ := fbGet_line hu hx hy
    rw [onLine_reverse] at huon huoff
    by_cases hon : OnLine s.params.lineTie (devx s (intArg (some x0) 0)) (devy s (intArg (some y0) 0))
        (devx s (intArg (some x1) 0)) (devy s (intArg (some y1) 0)) x y
    · rw [hton hon, huon hon]
    · rw [htoff hon, huoff hon]
  · intro s t x0 y0 x1 y1 c h X0 Y0 X1 Y1 plotted kept
    have hplotted {x y : Int} (hon : OnLine s.params.lineTie X0 Y0 X1 Y1 x y) : plotted x y := by
      rintro i j hi hj rfl rfl
      exact (fbGet_line h hi hj).1 hon
    have hkept {x y : Int} (hoff : ¬OnLine s.params.lineTie X0 Y0 X1 Y1 x y) : kept x y := by
      rintro i j hi hj rfl rfl
      exact (fbGet_line h hi hj).2 hoff
    refine ⟨⟨hplotted (onLine_start _ _ _ _ _), hplotted (onLine_end _ _ _ _ _)⟩, fun hwide x hx => ?_,
      fun htall y hy => ?_⟩
    · obtain ⟨y, hon, huniq⟩ := existsUnique_onLine_column s.params.lineTie hwide hx
      exact ⟨y, ⟨hon, hplotted hon, fun y' hne => hkept (mt (huniq y') hne)⟩, fun y' hy' => huniq y' hy'.1⟩
    · obtain ⟨x, hon, huniq⟩ := existsUnique_onLine_row s.params.lineTie htall hy
      exact ⟨x, ⟨hon, hplotted hon, fun x' hne => hkept (mt (huniq x') hne)⟩, fun x' hx' => huniq x' hx'.1⟩

end Sys2Proof.Machine
end

section
/-! What CIRC and CIRCFILL draw (40_rasterizer R163–R167): the model's loop runs its body with the steps of `CircStep`, and
the dots of its bodies cover the outline and the disc. -/

namespace Sys2Proof.Machine

open Spec

/-! ### The loop -/

theorem circState_succ (r : Int) (k : Nat) : circState r (k + 1) =
    if 2 * ((circState r k).2 + 1 + 2 * ((k : Int) + 1) - (circState r k).1) > r + 1 then
      ((circState r k).1 - 1,
        (circState r k).2 + 1 + 2 * ((k : Int) + 1) + 1 - 2 * ((circState r k).1 - 1))
    else ((circState r k).1, (circState r k).2 + 1 + 2 * ((k : Int) + 1)) := rfl

theorem circState_fst_le (r : Int) (k : Nat) : (circState r k).1 ≤ r := by
  induction k with
  | zero => exact le_rfl
  | succ k ih =>
    rw [circState_succ]
    split
    · exact (sub_one_lt _).le.trans ih
    · exact ih

/-- One turn of the model's loop at dy = k is one step of `circState`. -/
theorem circleLoop_succ (r : Int) (fuel k : Nat) :
    circleLoop r (fuel + 1) (circState r k).1 k (circState r k).2 =
      if (k : Int) ≤ (circState r k).1 then
        ((circState r k).1, (k : Int))
          :: circleLoop r fuel (circState r (k + 1)).1 ((k + 1 : Nat) : Int) (circState r (k + 1)).2
      else [] := by
  rw [circleLoop, circState_succ]
  push_cast
  split
  · split <;> rfl
  · rfl

/-- From dy = k on, with fuel to reach dy = r + 1, the loop runs until dx < dy. -/
theorem circleLoop_eq (r : Int) (fuel k : Nat) (hfuel : r < k + fuel) :
    ∃ n, circleLoop r fuel (circState r k).1 k (circState r k).2
        = (List.range' k n).map (fun (j : Nat) => ((circState r j).1, (j : Int)))
      ∧ (∀ j : Nat, k ≤ j → j < k + n → (j : Int) ≤ (circState r j).1)
      ∧ (circState r (k + n)).1 < ((k + n : Nat) : Int) := by
  induction fuel generalizing k with
  | zero =>
    refine ⟨0, rfl, fun j h1 h2 => absurd h2 (not_lt.2 h1), ?_⟩
    have := circState_fst_le r k
    simp only [Nat.add_zero]
    omega
  | succ fuel ih =>
    rw [circleLoop_succ]
    by_cases hk : (k : Int) ≤ (circState r k).1
    · obtain ⟨n, hloop, hruns, hend⟩ := ih (k + 1) (by push_cast at hfuel ⊢; omega)
      rw [if_pos hk, hloop]
      have hsucc : k + 1 + n = k + (n + 1) := by omega
      rw [hsucc] at hruns hend
      refine ⟨n + 1, by rw [List.range'_succ, List.map_cons], fun j h1 h2 => ?_, hend⟩
      rcases Nat.eq_or_lt_of_le h1 with rfl | h1
      · exact hk
      · exact hruns j h1 h2
    · exact ⟨0, if_neg hk, fun j h1 h2 => absurd h2 (not_lt.2 h1), not_le.1 hk⟩

/-- Settles O32: the loop from dy = 0, whose fuel reaches dy = r + 1. -/
theorem circleSteps_spec : Obligations.CircleSteps := by
  intro r
  obtain ⟨n, hloop, hruns, hend⟩ := circleLoop_eq r (r + 1).toNat 0 (by omega)
  rw [Nat.zero_add] at hruns hend
  exact ⟨n, hloop.trans (by rw [List.range_eq_range']), fun k hk => hruns k (Nat.zero_le k) hk, hend⟩

theorem mem_circleSteps (r : Int) (d : Int × Int) : d ∈ circleSteps r ↔ CircStep r d.1 d.2 := by
  obtain ⟨n, hsteps, hruns, hend⟩ := circleSteps_spec r
  rw [hsteps, List.mem_map]
  constructor
  · rintro ⟨k, hk, rfl⟩
    exact ⟨k, rfl, rfl, fun j hj => hruns j (hj.trans_lt (List.mem_range.1 hk))⟩
  · rintro ⟨k, hdy, hdx, hall⟩
    have hk : k < n := by
      by_contra hle
      exact absurd (hall n (not_lt.1 hle)) (not_le.2 hend)
    exact ⟨k, List.mem_range.2 hk, Prod.ext hdx.symm hdy.symm⟩

/-! ### The bodies -/

theorem covers_outlineDots (X Y : Int) (cb : ColorBits) (dx dy : Int) : Covers (outlineDots X Y cb dx dy) cb (fun x y =>
    ((x = wrap16 (X + dx) ∨ x = wrap16 (X - dx)) ∧ (y = wrap16 (Y + dy) ∨ y = wrap16 (Y - dy)))
    ∨ ((x = wrap16 (X + dy) ∨ x = wrap16 (X - dy)) ∧ (y = wrap16 (Y + dx) ∨ y = wrap16 (Y - dx)))) := by
  refine (covers_map_points _ (fun p : Int × Int => wrap16 p.1) (fun p => wrap16 p.2) cb).congr fun x y => ?_
  simp only [List.mem_cons, List.not_mem_nil, or_false, exists_eq_or_imp, exists_eq_left, eq_comm (b := x),
    eq_comm (b := y)]
  tauto

theorem covers_fillDots (X Y : Int) (cb : ColorBits) (dx dy : Int) : Covers (fillDots X Y cb dx dy) cb (fun x y =>
    (Between (wrap16 (X - dx)) (wrap16 (X + dx)) x ∧ (y = wrap16 (Y - dy) ∨ y = wrap16 (Y + dy)))
    ∨ ((x = wrap16 (X - dy) ∨ x = wrap16 (X + dy)) ∧ Between (wrap16 (Y - dx)) (wrap16 (Y + dx)) y)) :=
  ((((covers_hlineDots _ _ _ cb).append (covers_hlineDots _ _ _ cb)).append (covers_vlineDots _ _ _ cb)).append
    (covers_vlineDots _ _ _ cb)).congr fun x y => by tauto

/-- The bodies of a whole loop cover what its steps cover. -/
theorem covers_circleSteps {body : Int → Int → List Dot} {cb : ColorBits} {P : Int → Int → Int → Int → Prop}
    (h : ∀ dx dy, Covers (body dx dy) cb (P dx dy)) (r : Int) :
    Covers ((circleSteps r).flatMap fun d => body d.1 d.2) cb (fun x y => ∃ dx dy, CircStep r dx dy ∧ P dx dy x y) :=
  (Covers.flatMap fun d : Int × Int => h d.1 d.2).congr fun x y => by simp only [mem_circleSteps, Prod.exists]

/-! ### CIRC and CIRCFILL -/

theorem exec_circ (ax ay ar c : Arg) (s : State) : exec (.circ ax ay ar c) s = .next (paint (loadColor c s)
    ((circleSteps (intArg ar 0)).flatMap fun d => outlineDots (devx s (intArg ax 0)) (devy s (intArg ay 0))
      (penBits (loadColor c s)) d.1 d.2)) := by
  simp only [exec, execCirc, resolveColor, int16_argWord, devx_loadColor, devy_loadColor]

theorem exec_circfill (ax ay ar c : Arg) (s : State) : exec (.circfill ax ay ar c) s = .next (paint (loadColor c s)
    ((circleSteps (intArg ar 0)).flatMap fun d => fillDots (devx s (intArg ax 0)) (devy s (intArg ay 0))
      (penBits (loadColor c s)) d.1 d.2)) := by
  simp only [exec, execCircfill, resolveColor, int16_argWord, devx_loadColor, devy_loadColor]

/-- Settles O33: the outline bodies of the loop cover the circle. -/
theorem circDrawsOutline : Obligations.CircDrawsOutline := fun s ax ay ar c =>
  (covers_circleSteps (covers_outlineDots _ _ _) _).draws (exec_circ ax ay ar c s)

/-- Settles O34: the fill bodies of the loop cover the disc. -/
theorem circfillDrawsDisc : Obligations.CircfillDrawsDisc := fun s ax ay ar c =>
  (covers_circleSteps (covers_fillDots _ _ _) _).draws (exec_circfill ax ay ar c s)

/-! ### Small circles -/

theorem not_circStep_of_neg {r : Int} (h : r < 0) (dx dy : Int) : ¬CircStep r dx dy := by
  rintro ⟨k, -, -, hall⟩
  exact absurd (hall 0 (Nat.zero_le k)) (not_le.2 h)

/-- Where the second turn already has dx < dy, the loop has one turn. -/
theorem circStep_of_one_turn {r : Int} (h0 : 0 ≤ r) (h1 : (circState r 1).1 < 1) (dx dy : Int) :
    CircStep r dx dy ↔ dx = r ∧ dy = 0 := by
  constructor
  · rintro ⟨k, rfl, rfl, hall⟩
    obtain rfl : k = 0 := by
      by_contra hk
      exact absurd (hall 1 (Nat.one_le_iff_ne_zero.2 hk)) (not_le.2 h1)
    exact ⟨rfl, rfl⟩
  · rintro ⟨rfl, rfl⟩
    refine ⟨0, rfl, rfl, fun j hj => ?_⟩
    obtain rfl := Nat.le_zero.1 hj
    exact h0

theorem circStep_zero (dx dy : Int) : CircStep 0 dx dy ↔ dx = 0 ∧ dy = 0 :=
  circStep_of_one_turn le_rfl (by decide) dx dy

theorem circStep_one (dx dy : Int) : CircStep 1 dx dy ↔ dx = 1 ∧ dy = 0 :=
  circStep_of_one_turn (by decide) (by decide) dx dy

section

variable {r : Int} (hturn : ∀ dx dy, CircStep r dx dy ↔ dx = r ∧ dy = 0)
include hturn

theorem onCircle_of_one_turn (X Y x y : Int) : OnCircle X Y r x y ↔
    ((x = wrap16 (X + r) ∨ x = wrap16 (X - r)) ∧ y = wrap16 Y)
    ∨ (x = wrap16 X ∧ (y = wrap16 (Y + r) ∨ y = wrap16 (Y - r))) := by
  simp only [OnCircle, hturn, and_assoc, exists_and_left, exists_eq_left, add_zero, sub_zero, or_self]

theorem inDisc_of_one_turn (X Y x y : Int) : InDisc X Y r x y ↔
    (Between (wrap16 (X - r)) (wrap16 (X + r)) x ∧ y = wrap16 Y)
    ∨ (x = wrap16 X ∧ Between (wrap16 (Y - r)) (wrap16 (Y + r)) y) := by
  simp only [InDisc, hturn, and_assoc, exists_and_left, exists_eq_left, add_zero, sub_zero, or_self]

end

/-- Where no coordinate wraps, the circle of radius 0 is its centre. -/
theorem onCircle_zero {X Y : Int} (hX : wrap16 X = X) (hY : wrap16 Y = Y) (x y : Int) :
    OnCircle X Y 0 x y ↔ x = X ∧ y = Y := by
  rw [onCircle_of_one_turn circStep_zero, add_zero, sub_zero, add_zero, sub_zero, hX, hY]
  tauto

theorem inDisc_zero {X Y : Int} (hX : wrap16 X = X) (hY : wrap16 Y = Y) (x y : Int) :
    InDisc X Y 0 x y ↔ x = X ∧ y = Y := by
  rw [inDisc_of_one_turn circStep_zero, add_zero, sub_zero, add_zero, sub_zero, hX, hY, Between, Between]
  omega

theorem wrap16_near {v : Int} (h1 : -32768 < v) (h2 : v < 32767) :
    wrap16 v = v ∧ wrap16 (v + 1) = v + 1 ∧ wrap16 (v - 1) = v - 1 :=
  ⟨wrap16_of_int16 (by omega) (by omega), wrap16_of_int16 (by omega) (by omega),
    wrap16_of_int16 (by omega) (by omega)⟩

/-- Settles O35: the loop has no turn for r < 0 and one turn for r = 0 and r = 1. -/
theorem smallCircles : Obligations.SmallCircles := by
  intro s ax ay ar c X Y cross
  have hcirc := circDrawsOutline s ax ay ar c
  have hdisc := circfillDrawsDisc s ax ay ar c
  refine ⟨fun hr => ?_, fun hr => ?_, fun hr hX0 hX1 hY0 hY1 => ?_⟩
  · have hnone := not_circStep_of_neg hr
    exact ⟨(draws_congr fun x y => by simp only [OnCircle, hnone, false_and, exists_false]).1 hcirc,
      (draws_congr fun x y => by simp only [InDisc, hnone, false_and, exists_false]).1 hdisc⟩
  · rw [hr] at hcirc hdisc
    obtain ⟨hX0, hX1⟩ := devx_bounds s (intArg ax 0)
    obtain ⟨hY0, hY1⟩ := devy_bounds s (intArg ay 0)
    have hX := wrap16_of_int16 hX0 hX1
    have hY := wrap16_of_int16 hY0 hY1
    exact ⟨(draws_congr (onCircle_zero hX hY)).1 hcirc, (draws_congr (inDisc_zero hX hY)).1 hdisc⟩
  · rw [hr] at hcirc hdisc
    obtain ⟨hX, hXr, hXl⟩ : wrap16 X = X ∧ _ := wrap16_near hX0 hX1
    obtain ⟨hY, hYr, hYl⟩ : wrap16 Y = Y ∧ _ := wrap16_near hY0 hY1
    refine ⟨(draws_congr fun x y => ?_).1 hcirc, (draws_congr fun x y => ?_).1 hdisc⟩
    · rw [onCircle_of_one_turn circStep_one, hX, hXr, hXl, hY, hYr, hYl]
      tauto
    · rw [inDisc_of_one_turn circStep_one, hX, hXr, hXl, hY, hYr, hYl, Between, Between]
      omega

end Sys2Proof.Machine
end

section
/-! The commands that set the drawing state, CLIP, CLS and CAMERA (40_rasterizer R170–R173), and what no drawing command
does outside the clip rectangle (R142). -/

namespace Sys2Proof.Machine

open Spec

/-! ### CLIP -/

theorem clipOfInt_val (v : Int) : ((clipOfInt v).val : Int) = min (max v 0) 128 := by
  change ((min (max v 0) 128).toNat : Int) = _
  omega

theorem exec_clip_some (ax ay aw : Arg) (hw : Word) (s : State) : exec (.clip ax ay aw (some hw)) s = .next { s with
    clip := ⟨clipOfInt (intArg ax 0), clipOfInt (intArg ay 0), clipOfInt (intArg ax 0 + intArg aw 0),
      clipOfInt (intArg ay 0 + intArg (some hw) 0)⟩ } := by
  simp only [exec, execClip, int16_argWord]
  rfl

/-- Settles O36: each edge is a `clipOfInt`, or that of the full rectangle. -/
theorem clipCommand : Obligations.ClipCommand := by
  intro s ax ay aw ah
  cases ah with
  | none => exact ⟨_, rfl, rfl, fun _ => ⟨rfl, rfl, rfl, rfl⟩, fun h => absurd rfl h⟩
  | some hw =>
    exact ⟨_, exec_clip_some ax ay aw hw s, rfl, nofun,
      fun _ => ⟨clipOfInt_val _, clipOfInt_val _, clipOfInt_val _, clipOfInt_val _⟩⟩

/-! ### CLS -/

theorem toNat_append_self (n : Nibble) : (n ++ n : Byte).toNat = n.toNat * 0x11 := by
  revert n
  decide

/-- Settles O37: one fill of the framebuffer's addresses. -/
theorem clsFillsAndRestores : Obligations.ClsFillsAndRestores := by
  refine fun s c => ⟨_, rfl, rfl, fun a hlo hhi => ?_, fun a hout => (Memory.read_fill _ _ _ _ _).trans (if_neg hout)⟩
  rw [memRead_fb _ ⟨hlo, hhi⟩]
  change (Memory.read (Memory.fill s.mem fbBase 8192 (nibOf (argWord c) ++ nibOf (argWord c))) a).toNat = _
  rw [Memory.read_fill, if_pos ⟨hlo, hhi⟩, toNat_append_self, nibOf, toNat_extractLsb']
  rfl

/-! ### CAMERA -/

/-- Settles O38: the registers take the integer parts, and the answer is made of the old ones. -/
theorem cameraSwapsOffset : Obligations.CameraSwapsOffset := by
  intro s ax ay
  rw [← half16_argWord, ← half16_argWord]
  rfl

/-! ### Outside the clip rectangle -/

theorem hit_of_not_inClip {s : State} {x y : Int} (h : ¬InClip s x y) (d : Dot) : hit (drawEnv s) x y d = none := by
  unfold hit
  split
  · next hxy =>
    obtain ⟨rfl, rfl⟩ := hxy
    cases hn : dotColor (drawEnv s) d with
    | none => rfl
    | some n => exact absurd ((inside_iff_inClip s d.x d.y).1 (dotColor_inside hn)) h
  · rfl

/-- No dot changes a pixel outside the clip rectangle (40_rasterizer R142). -/
theorem fbGet_paint_of_not_inClip {s : State} {x y : Nat} (hx : x < 128) (h : ¬InClip s x y) (dots : List Dot) :
    fbGet (paint s dots) x y = fbGet s x y := by
  have hnone : dots.filterMap (hit (drawEnv s) x y) = [] :=
    List.filterMap_eq_nil_iff.2 fun d _ => hit_of_not_inClip h d
  rw [fbGet_paint s dots hx, hnone]
  rfl

theorem fbGet_paint_loadColor {s : State} {x y : Nat} (hx : x < 128) (h : ¬InClip s x y) (c : Arg) (dots : List Dot) :
    fbGet (paint (loadColor c s) dots) x y = fbGet s x y := by
  rw [fbGet_paint_of_not_inClip hx (mt (inClip_loadColor c s x y).1 h), fbGet_loadColor]

/-- A transaction of a row that writes no framebuffer byte changes no pixel. -/
theorem fbGet_of_row {i : Instr} {s t : State} {x y : Nat} (hx : x < 128) (hy : y < 128) (h : exec i s = .next t)
    (hrow : row i ∉ [0x01, 0x03, 0x04, 0x05, 0x06, 0x07, 0x09, 0x10, 0x11, 0x12, 0x101]) : fbGet t x y = fbGet s x y := by
  obtain ⟨hlo, hhi⟩ := pixelAddr_mem (base := fbBase) hx hy
  have hbyte : Memory.read t.mem (pixelAddr fbBase x y) = Memory.read s.mem (pixelAddr fbBase x y) := by
    by_contra hne
    rcases arrayWriters i s t _ h hne with ⟨-, -, hfb⟩ | hrest
    · exact hrow hfb
    · unfold fbBase at hlo hrest
      omega
  rw [fbGet, fbGet, pixelGet, pixelGet, hbyte]

/-- Settles O39: a drawing command or a blit paints, which keeps to the clip rectangle, and every other row but those of
CLS and MEMW writes no framebuffer byte. -/
theorem outsideClipUnchanged : Obligations.OutsideClipUnchanged := by
  intro i s t x y hx hy hclip h hcls hmemw
  have hkeep := fbGet_of_row hx hy h
  have hT := exec_transition h
  generalize row i = r at hT hcls hmemw hkeep
  cases hT with
  | unchanged => rfl
  | draw _ c dots => exact fbGet_paint_loadColor hx hclip c dots
  | line c dots => exact fbGet_paint_loadColor hx hclip c dots
  | blit _ dots => exact fbGet_paint_of_not_inClip hx hclip dots
  | answer => rfl
  | cls => exact absurd rfl hcls
  | memw => exact absurd rfl hmemw
  | _ => exact hkeep (by decide)

end Sys2Proof.Machine
end

section
/-! The values the commands of 41_sprite_map read: argument words, and the bytes of the sheet, the map and the flags at the
addresses of the memory port (20_memory R71, R72). -/

namespace Sys2Proof.Machine

open Spec

/-! ### Arguments -/

theorem byteOf_argWord (a : Arg) : byteOf (argWord a) = BitVec.ofInt 8 (intArg a 0) := by
  apply BitVec.eq_of_toInt_eq
  rw [BitVec.toInt_ofInt, ← int16_argWord, int16_eq_ediv, BitVec.toInt_eq_toNat_bmod, toNat_byteOf]
  exact Int.emod_bmod _ 256

theorem toNat_byteOf_argWord (a : Arg) : ((byteOf (argWord a)).toNat : Int) = intArg a 0 % 256 := by
  rw [toNat_byteOf, ← int16_eq_ediv, int16_argWord]

theorem nibOf_argWord (a : Arg) : nibOf (argWord a) = BitVec.ofInt 4 (intArg a 0) := by
  apply BitVec.eq_of_toInt_eq
  rw [BitVec.toInt_ofInt, ← int16_argWord, int16_eq_ediv, BitVec.toInt_eq_toNat_bmod, toNat_nibOf]
  exact Int.emod_bmod _ 16

theorem int16D_eq_intArg (a : Arg) (d : Int) : int16D a d = intArg a d := by
  cases a <;> rfl

theorem intArg_intWord {n : Nat} (h : n < 32768) (d : Int) : intArg (some (intWord n)) d = n := by
  rw [← resultInt_natCast]
  exact int16_resultInt (by omega) (by omega)

/-! ### Arrays -/

theorem isArray_mapAddr {x y : Nat} (hx : x < 128) (hy : y < 64) : isArray (mapAddr x y) = true := by
  obtain ⟨-, hhi⟩ := mapAddr_bounds hx hy
  exact isArray_iff.2 (.inl (hhi.trans (by decide)))

theorem isArray_flags {n : Nat} (hn : n < 256) : isArray (flagsBase + n) = true :=
  isArray_iff.2 (.inl (by unfold flagsBase; omega))

theorem mapGet_eq_memRead (s : State) {x y : Nat} (hx : x < 128) (hy : y < 64) :
    mapGet s x y = memRead s (0x2000 + 128 * y + x) := (memRead_array (isArray_mapAddr hx hy)).symm

theorem flagsGet_eq_memRead (s : State) {n : Nat} (hn : n < 256) : flagsGet s n = memRead s (0x4000 + n) :=
  (memRead_array (isArray_flags hn)).symm

theorem sheetNibble_eq_sheetGet (s : State) {x y : Nat} (hx : x < 128) (hy : y < 128) :
    sheetNibble s x y = sheetGet s x y := by
  have haddr : pixelAddr sheetBase x y = 64 * y + x / 2 := by unfold pixelAddr sheetBase; omega
  have hbounds := pixelAddr_mem (base := sheetBase) hx hy
  obtain ⟨harray, hphys⟩ := storage_sheet s.params hbounds
  rw [sheetGet, pixelGet, haddr, sheetNibble, ← haddr, memRead_array harray, arrayByte, hphys]
  rfl

end Sys2Proof.Machine
end

section
/-! The blits SPR, SSPR and MAP (41_sprite_map R200–R206): each paints a block of pixels, whose colours a function of the
pixel's column and row gives, and a block paints the last colour written to each pixel. -/

namespace Sys2Proof.Machine

open Spec

/-! ### The cells of a block -/

/-- The columns and rows of a block in the order of the loops: rows outside, columns inside (41_sprite_map R200). -/
def blockCells (W H : Int) : List (Int × Int) := (upTo H).flatMap fun j => (upTo W).map fun i => (i, j)

/-- Cell c comes before cell d in the order of the loops. -/
def CellBefore (c d : Int × Int) : Prop := c.2 < d.2 ∨ (c.2 = d.2 ∧ c.1 < d.1)

theorem mem_blockCells {W H i j : Int} : (i, j) ∈ blockCells W H ↔ (0 ≤ i ∧ i < W) ∧ 0 ≤ j ∧ j < H := by
  simp only [blockCells, List.mem_flatMap, List.mem_map, mem_upTo, Prod.mk.injEq]
  constructor
  · rintro ⟨j', hj, i', hi, rfl, rfl⟩
    exact ⟨hi, hj⟩
  · rintro ⟨hi, hj⟩
    exact ⟨j, hj, i, hi, rfl, rfl⟩

theorem blockCells_sorted (W H : Int) : (blockCells W H).Pairwise CellBefore := by
  refine List.pairwise_flatMap.2 ⟨fun j _ => ?_, (rangeIncl_sorted _ _).imp fun hjj c hc d hd => ?_⟩
  · exact List.pairwise_map.2 ((rangeIncl_sorted _ _).imp fun hii => .inr ⟨rfl, hii⟩)
  · obtain ⟨i, -, rfl⟩ := List.mem_map.1 hc
    obtain ⟨i', -, rfl⟩ := List.mem_map.1 hd
    exact .inl hjj

/-- In a sorted list the last result is that of an element after which nothing has a result. -/
theorem getLast?_filterMap_of_sorted {α β : Type} {R : α → α → Prop} {l : List α} (hl : l.Pairwise R)
    {f : α → Option β} {a : α} {b : β} (ha : a ∈ l) (hb : f a = some b) (hlast : ∀ c ∈ l, R a c → f c = none) :
    (l.filterMap f).getLast? = some b := by
  obtain ⟨before, after, rfl⟩ := List.append_of_mem ha
  obtain ⟨-, hafter, -⟩ := List.pairwise_append.1 hl
  have hnone : after.filterMap f = [] := List.filterMap_eq_nil_iff.2 fun c hc =>
    hlast c (by simp [hc]) ((List.pairwise_cons.1 hafter).1 c hc)
  simp [hb, hnone]

/-! ### A block of dots -/

/-- The dot of a block's cell, where `src` gives it a colour. -/
def cellDot (X Y : Int) (src : Int → Int → Option Nibble) (c : Int × Int) : Option Dot :=
  (src c.1 c.2).map fun n => ⟨wrap16 (X + c.1), wrap16 (Y + c.2), solid n⟩

/-- The dots of a block with its top left corner at (X, Y). -/
def blockDots (X Y W H : Int) (src : Int → Int → Option Nibble) : List Dot :=
  (blockCells W H).filterMap (cellDot X Y src)

/-- The two loops of a blit run over the cells of its block. -/
theorem flatMap_filterMap_eq_blockDots (X Y W H : Int) (src : Int → Int → Option Nibble) :
    ((upTo H).flatMap fun j => (upTo W).filterMap fun i => cellDot X Y src (i, j)) = blockDots X Y W H src := by
  simp only [blockDots, blockCells, List.filterMap_flatMap, List.filterMap_map, Function.comp_def]

/-- Inside the clip rectangle a dot of a solid colour writes that colour (40_rasterizer R142, R144). -/
theorem dotColor_solid {s : State} {x y : Int} (h : InClip s x y) (n : Nibble) :
    dotColor (drawEnv s) ⟨x, y, solid n⟩ = some n := by
  have hin : (drawEnv s).clip.inside x y = true := (inside_iff_inClip s x y).2 h
  simp only [dotColor, hin, solid, ite_self, sbit_eq_stippleBit, stippleBit_zero, Bool.not_true, Bool.false_eq_true,
    if_false]

section

variable {s : State} {x y : Int} (h : InClip s x y) {X Y W H : Int} {src : Int → Int → Option Nibble}
include h

/-- What a cell writes at a pixel inside the clip rectangle. -/
theorem hit_cellDot_eq_some_iff (c : Int × Int) (n : Nibble) :
    (cellDot X Y src c).bind (hit (drawEnv s) x y) = some n ↔
      (wrap16 (X + c.1) = x ∧ wrap16 (Y + c.2) = y) ∧ src c.1 c.2 = some n := by
  cases hsrc : src c.1 c.2 with
  | none => simp [cellDot, hsrc]
  | some m =>
    simp only [cellDot, hsrc, Option.map_some, Option.bind_some, hit]
    split
    · next hxy => rw [hxy.1, hxy.2, dotColor_solid h]; simp
    · next hxy => simp [hxy]

/-- The last dot of a block that writes at a pixel is that of its last hit. -/
theorem getLast?_hits_of_lastHit {i j : Int} {n : Nibble} (hlast : LastHit X Y W H src x y i j n) :
    ((blockDots X Y W H src).filterMap (hit (drawEnv s) x y)).getLast? = some n := by
  obtain ⟨⟨hi, hj, hxy, hn⟩, hmax⟩ := hlast
  rw [blockDots, List.filterMap_filterMap]
  refine getLast?_filterMap_of_sorted (blockCells_sorted W H) (mem_blockCells.2 ⟨hi, hj⟩)
    ((hit_cellDot_eq_some_iff h (i, j) n).2 ⟨hxy, hn⟩) ?_
  rintro ⟨i', j'⟩ hcell hbefore
  obtain ⟨hi', hj'⟩ := mem_blockCells.1 hcell
  refine Option.eq_none_iff_forall_ne_some.2 fun n' hn' => ?_
  obtain ⟨hxy', hsrc'⟩ := (hit_cellDot_eq_some_iff h (i', j') n').1 hn'
  have horder := hmax i' j' n' ⟨hi', hj', hxy', hsrc'⟩
  unfold CellBefore at hbefore
  omega

theorem hits_eq_nil_of_no_hit (hno : ¬∃ i j n, Hit X Y W H src x y i j n) :
    (blockDots X Y W H src).filterMap (hit (drawEnv s) x y) = [] := by
  rw [blockDots, List.filterMap_filterMap]
  refine List.filterMap_eq_nil_iff.2 fun c hcell => Option.eq_none_iff_forall_ne_some.2 fun n hn => ?_
  obtain ⟨hi, hj⟩ := mem_blockCells.1 hcell
  obtain ⟨hxy, hsrc⟩ := (hit_cellDot_eq_some_iff h c n).1 hn
  exact hno ⟨c.1, c.2, n, hi, hj, hxy, hsrc⟩

end

/-- Painting a block leaves in each pixel the last colour written to it. -/
theorem blits_blockDots (s : State) (X Y W H : Int) (src : Int → Int → Option Nibble) :
    Blits s (paint s (blockDots X Y W H src)) X Y W H src := by
  refine ⟨onlyFb_paint s _, fun x y hx _ => ⟨fun hin i j n hlast => ?_, fun hout => ?_⟩⟩
  · rw [fbGet_paint s _ hx, getLast?_hits_of_lastHit hin hlast]
    rfl
  · by_cases hin : InClip s x y
    · rw [fbGet_paint s _ hx, hits_eq_nil_of_no_hit hin (hout.resolve_left (not_not.2 hin))]
      rfl
    · exact fbGet_paint_of_not_inClip hx hin _

/-! ### The colours of the sheet -/

theorem blitDot_eq_map_lookup (s : State) (x y : Int) (n : Nibble) :
    blitDot s x y n = (lookup s n).map fun c => ⟨wrap16 x, wrap16 y, solid c⟩ := by
  rw [lookup, apply_ite (Option.map _)]
  rfl

theorem sheetSrc_eq_sheetAt (s : State) (x y : Int) : sheetSrc s x y = sheetAt s x y := by
  unfold sheetSrc sheetAt
  by_cases h : (0 ≤ x ∧ x < 128) ∧ 0 ≤ y ∧ y < 128
  · rw [if_pos h, if_pos (by omega), sheetNibble_eq_sheetGet s (by omega) (by omega)]
  · rw [if_neg h, if_neg (by omega)]

theorem flip_eq_mirror (f : Arg) (n i : Int) : flip (boolOf (argWord f)) n i = mirror f n i := by
  exact if_congr decide_eq_true_iff rfl rfl

/-! ### SPR -/

theorem truncQ_div_65536 (a : Int) : truncQ ((a : ℚ) / 65536) = a.tdiv 65536 := by
  have hfloor (b : Int) : ((b : ℚ) / 65536).floor = b / 65536 := Rat.floor_intCast_div_natCast b 65536
  have hsign : 0 ≤ (a : ℚ) / 65536 ↔ 0 ≤ a := by
    rw [le_div_iff₀ (by norm_num), zero_mul, Int.cast_nonneg_iff]
  unfold truncQ
  split
  · next h => rw [hfloor, Int.tdiv_eq_ediv_of_nonneg (hsign.1 h)]
  · next h =>
    have hneg : 0 ≤ -a := by rw [hsign] at h; omega
    rw [← neg_div, ← Int.cast_neg, hfloor, ← Int.tdiv_eq_ediv_of_nonneg hneg, Int.neg_tdiv, neg_neg]

theorem cels8_eq_sprSize (a : Arg) : cels8 a = sprSize a := by
  cases a with
  | none => rfl
  | some w =>
    have hfix : fix w * 8 = ((w.toInt * 8 : Int) : ℚ) / 65536 := by
      rw [fix]; push_cast; ring
    rw [cels8, hfix, truncQ_div_65536, sprSize]

/-- The colour SPR draws at column i, row j of its block, mirrored as a whole (41_sprite_map R200). -/
def sprColor (s : State) (an aw ah fx fy : Arg) (i j : Int) : Option Nibble :=
  lookup s (sheetAt s (8 * (intArg an 0 % 256 % 16) + mirror fx (sprSize aw) i)
    (8 * (intArg an 0 % 256 / 16) + mirror fy (sprSize ah) j))

theorem exec_spr (an ax ay aw ah fx fy : Arg) (s : State) : exec (.spr an ax ay aw ah fx fy) s =
    .next (paint s (blockDots (devx s (intArg ax 0)) (devy s (intArg ay 0)) (sprSize aw) (sprSize ah)
      (sprColor s an aw ah fx fy))) := by
  rw [← flatMap_filterMap_eq_blockDots]
  simp only [exec, execSpr, sprDots, blitDot_eq_map_lookup, sheetSrc_eq_sheetAt, flip_eq_mirror, cels8_eq_sprSize,
    int16_argWord, Int.natCast_emod, Int.natCast_ediv, toNat_byteOf_argWord]
  rfl

/-- Settles O40: SPR paints the block of `sprColor`. -/
theorem sprDrawsCels : Obligations.SprDrawsCels := fun s an ax ay aw ah fx fy =>
  ⟨_, exec_spr an ax ay aw ah fx fy s, blits_blockDots s _ _ _ _ _⟩

/-! ### SSPR -/

/-- The colour SSPR draws at column i, row j of a destination of dw × dh pixels (41_sprite_map R203). -/
def ssprColor (s : State) (asx asy asw ash fx fy : Arg) (dw dh i j : Int) : Option Nibble :=
  lookup s (sheetAt s (intArg asx 0 + (intArg asw 0 * mirror fx dw i).tdiv dw)
    (intArg asy 0 + (intArg ash 0 * mirror fy dh j).tdiv dh))

theorem exec_sspr (asx asy asw ash adx ady adw adh fx fy : Arg) (s : State) :
    exec (.sspr asx asy asw ash adx ady adw adh fx fy) s =
      .next (paint s (blockDots (devx s (intArg adx 0)) (devy s (intArg ady 0)) (intArg adw (intArg asw 0))
        (intArg adh (intArg ash 0))
        (ssprColor s asx asy asw ash fx fy (intArg adw (intArg asw 0)) (intArg adh (intArg ash 0))))) := by
  rw [← flatMap_filterMap_eq_blockDots]
  simp only [exec, execSspr, ssprDots, blitDot_eq_map_lookup, sheetSrc_eq_sheetAt, flip_eq_mirror, int16D_eq_intArg,
    int16_argWord, tdiv]
  rfl

/-- Settles O41: SSPR paints the block of `ssprColor`. -/
theorem ssprResamplesSheet : Obligations.SsprResamplesSheet := fun s asx asy asw ash adx ady adw adh fx fy =>
  ⟨_, exec_sspr asx asy asw ash adx ady adw adh fx fy s, blits_blockDots s _ _ _ _ _⟩

/-- Settles O43: at the source's own size the quotients of SSPR are the columns and rows of SPR. -/
theorem ssprDrawsSpr : Obligations.SsprDrawsSpr := by
  intro s n ax ay fx fy hn
  have hcolor (i j : Int) : ssprColor s (some (intWord (8 * (n % 16)))) (some (intWord (8 * (n / 16))))
      (some (intWord 8)) (some (intWord 8)) fx fy 8 8 i j = sprColor s (some (intWord n)) none none fx fy i j := by
    have hmod : ((8 * (n % 16) : Nat) : Int) = 8 * ((n : Int) % 256 % 16) := by omega
    have hdiv : ((8 * (n / 16) : Nat) : Int) = 8 * ((n : Int) % 256 / 16) := by omega
    have h8 : intArg (some (intWord 8)) 0 = 8 := intArg_intWord (by decide) 0
    rw [ssprColor, sprColor, h8, intArg_intWord (by omega), intArg_intWord (by omega), intArg_intWord (by omega), hmod,
      hdiv, Int.mul_tdiv_cancel_left _ (by decide), Int.mul_tdiv_cancel_left _ (by decide)]
    rfl
  rw [exec_sspr, exec_spr, ← funext fun i => funext (hcolor i)]
  rfl

/-! ### MAP -/

theorem mapDot_eq_cellDot (s : State) (cx cy X Y : Int) (m : Byte) (px py : Int) :
    mapDot s cx cy X Y m px py = cellDot X Y (tileColor s cx cy m) (px, py) := by
  unfold mapDot cellDot tileColor fdiv
  dsimp only
  by_cases hon : (0 ≤ cx + px / 8 ∧ cx + px / 8 < 128) ∧ 0 ≤ cy + py / 8 ∧ cy + py / 8 < 64
  · rw [if_pos hon, if_pos (by omega)]
    simp only [mapGet_eq_memRead s (x := (cx + px / 8).toNat) (y := (cy + py / 8).toNat) (by omega) (by omega)]
    generalize memRead s (0x2000 + 128 * (cy + py / 8).toNat + (cx + px / 8).toNat) = idx
    have hidx : idx.toNat < 256 := idx.isLt
    have hzero : idx ≠ 0 ↔ idx.toNat ≠ 0 := BitVec.toNat_ne
    simp only [flagsGet_eq_memRead s hidx, Bool.and_eq_true, decide_eq_true_eq, hzero]
    split
    · rw [← sheetNibble_eq_sheetGet s (by omega) (by omega), blitDot_eq_map_lookup]
    · rfl
  · rw [if_neg hon, if_neg (by omega)]
    rfl

theorem exec_map (acx acy adx ady acw ach alayer : Arg) (s : State) : exec (.map acx acy adx ady acw ach alayer) s =
    .next (paint s (blockDots (devx s (intArg adx 0)) (devy s (intArg ady 0)) (8 * intArg acw 128) (8 * intArg ach 32)
      (tileColor s (intArg acx 0) (intArg acy 0) (BitVec.ofInt 8 (intArg alayer 0))))) := by
  rw [← flatMap_filterMap_eq_blockDots]
  simp only [exec, execMap, mapDots, mapDot_eq_cellDot, int16D_eq_intArg, int16_argWord, byteOf_argWord]

/-- Settles O42: MAP paints the block of `tileColor`. -/
theorem mapCommand : Obligations.MapCommand := fun s acx acy adx ady acw ach alayer =>
  ⟨_, exec_map acx acy adx ady acw ach alayer s, blits_blockDots s _ _ _ _ _⟩

/-! ### The layer filter -/

theorem layerPass_allBits_iff {f m : Byte} (hm : m ≠ 0) :
    layerPass .allBits f m = true ↔ ∀ k, k < 8 → m.getLsbD k = true → f.getLsbD k = true := by
  rw [layerPass, if_neg hm]
  simp [BitVec.eq_of_getLsbD_eq_iff]

theorem layerPass_anyBit_iff {f m : Byte} (hm : m ≠ 0) :
    layerPass .anyBit f m = true ↔ ∃ k, k < 8 ∧ m.getLsbD k = true ∧ f.getLsbD k = true := by
  rw [layerPass, if_neg hm]
  simp [BitVec.eq_of_getLsbD_eq_iff, and_comm]

theorem getLsbD_one_shiftLeft {b : Nat} (hb : b < 8) (k : Nat) : (1#8 <<< b).getLsbD k = decide (b = k) := by
  rw [← BitVec.twoPow_eq, BitVec.getLsbD_twoPow, decide_eq_true hb, Bool.true_and]

/-- Settles O44: on the mask of bit k both readings say that bit k of the flags is set. -/
theorem layerFilter : Obligations.LayerFilter := by
  refine ⟨fun _ _ => rfl, fun f m => layerPass_allBits_iff, fun f m => layerPass_anyBit_iff, fun f k hk => ?_⟩
  have hm : 1#8 <<< k ≠ 0 := fun h => by simpa [h] using getLsbD_one_shiftLeft hk k
  rw [Bool.eq_iff_iff, layerPass_allBits_iff hm, layerPass_anyBit_iff hm]
  simp only [getLsbD_one_shiftLeft hk, decide_eq_true_eq]
  exact ⟨fun h => ⟨k, hk, rfl, h k hk rfl⟩, fun ⟨_, _, hj, hf⟩ _ _ hi => hi ▸ hj ▸ hf⟩

end Sys2Proof.Machine
end

section
/-! The accessors MGET, MSET, SGET, SSET, FGET and FSET (41_sprite_map R210–R215), said of the bytes the memory port
reads. -/

namespace Sys2Proof.Machine

open Spec

/-! ### Reads -/

theorem exec_mget (ax ay : Arg) (s : State) : exec (.mget ax ay) s = .next (respond s
    [if (0 ≤ intArg ax 0 ∧ intArg ax 0 < 128) ∧ (0 ≤ intArg ay 0 ∧ intArg ay 0 < 64) then
      intWord (memRead s (0x2000 + 128 * (intArg ay 0).toNat + (intArg ax 0).toNat)).toNat else 0]) := by
  simp only [exec, execMget, int16_argWord, onMap_iff]
  by_cases h : (0 ≤ intArg ax 0 ∧ intArg ax 0 < 128) ∧ (0 ≤ intArg ay 0 ∧ intArg ay 0 < 64)
  · rw [if_pos h, if_pos h, mapGet_eq_memRead s (by omega) (by omega), resultInt_natCast]
  · rw [if_neg h, if_neg h]

theorem exec_sget (ax ay : Arg) (s : State) : exec (.sget ax ay) s = .next (respond s
    [if (0 ≤ intArg ax 0 ∧ intArg ax 0 < 128) ∧ (0 ≤ intArg ay 0 ∧ intArg ay 0 < 128) then
      intWord (sheetNibble s (intArg ax 0).toNat (intArg ay 0).toNat).toNat else 0]) := by
  simp only [exec, execSget, int16_argWord, onSheet_iff]
  by_cases h : (0 ≤ intArg ax 0 ∧ intArg ax 0 < 128) ∧ (0 ≤ intArg ay 0 ∧ intArg ay 0 < 128)
  · rw [if_pos h, if_pos h, sheetNibble_eq_sheetGet s (by omega) (by omega), resultInt_natCast]
  · rw [if_neg h, if_neg h]

theorem fgetResult_eq (an ab : Arg) (s : State) : fgetResult an ab s =
    if 0 ≤ intArg an 0 ∧ intArg an 0 < 256 then
      (if ab = none then intWord (memRead s (0x4000 + (intArg an 0).toNat)).toNat
      else if 0 ≤ intArg ab 0 ∧ intArg ab 0 ≤ 7 then
        boolWord ((memRead s (0x4000 + (intArg an 0).toNat)).getLsbD (intArg ab 0).toNat) else 0)
    else 0 := by
  simp only [fgetResult, int16_argWord]
  split
  · rw [flagsGet_eq_memRead s (by omega)]
    cases ab with
    | none => exact resultInt_natCast _
    | some b => rfl
  · rfl

/-- Settles O45: each answer is the byte, the nibble or the bit at the place the arguments name. -/
theorem accessorReads : Obligations.AccessorReads := by
  refine fun s ax ay => ⟨exec_mget ax ay s, exec_sget ax ay s, ?_⟩
  rw [exec, execFget, fgetResult_eq]
  rfl

/-! ### MSET -/

/-- What the memory port reads after an array byte has been written. -/
theorem memRead_setArrayByte (s : State) {a : Nat} (ha : isArray a = true) (b : Nat) (v : Byte) :
    memRead (setArrayByte s a v) b = if sameByte s.params a b = true then v else memRead s b := by
  rw [← memWrite_array ha, memRead_memWrite, stored_array ha]

theorem exec_mset_some (ax ay : Arg) (w : Word) (s : State) : exec (.mset ax ay (some w)) s =
    if onMap (intArg ax 0) (intArg ay 0) then
      .next (setArrayByte s (mapAddr (intArg ax 0).toNat (intArg ay 0).toNat) (BitVec.ofInt 8 (intArg (some w) 0)))
    else .next s := by
  simp only [exec, execMset, int16_argWord, ← byteOf_argWord]
  rfl

/-- Settles O46: MSET writes the array byte of its cell. -/
theorem msetStoresCell : Obligations.MsetStoresCell := by
  intro s ax ay av
  cases av with
  | none => exact ⟨fun _ => rfl, fun _ _ h => absurd rfl h⟩
  | some w =>
    rw [exec_mset_some]
    refine ⟨fun hout => if_neg ?_, fun x y _ hx hy hx128 hy64 => ?_⟩
    · rw [onMap_iff]
      exact hout.resolve_left nofun
    · rw [hx, hy, if_pos (onMap_iff.2 (by omega)), Int.toNat_natCast, Int.toNat_natCast]
      exact ⟨_, rfl, rfl, fun b => memRead_setArrayByte s (isArray_mapAddr hx128 hy64) b _⟩

/-! ### SSET -/

theorem sheetNibble_sheetPut (s : State) {x y x' y' : Nat} (n : Nibble) (hx : x < 128) (hx' : x' < 128)
    (hy' : y' < 128) : sheetNibble (sheetPut s x y n) x' y' = if x = x' ∧ y = y' then n else sheetNibble s x' y' := by
  rw [sheetNibble_eq_sheetGet _ hx' hy', sheetNibble_eq_sheetGet s hx' hy']
  exact pixelGet_pixelPut s.mem n hx hx'

theorem sheetNibble_loadColor (c : Arg) (s : State) {x y : Nat} (hx : x < 128) (hy : y < 128) :
    sheetNibble (loadColor c s) x y = sheetNibble s x y := by
  simp only [sheetNibble_eq_sheetGet _ hx hy, sheetGet, loadColor_mem]

theorem ssetResolved_eq (ax ay c : Arg) (s : State) : ssetResolved ax ay c s =
    if onSheet (intArg ax 0) (intArg ay 0) then
      sheetPut (loadColor c s) (intArg ax 0).toNat (intArg ay 0).toNat (penBits (loadColor c s)).primary
    else loadColor c s := by
  simp only [ssetResolved, resolveColor, int16_argWord]

/-- Settles O47: the colour is loaded, and on the sheet one pixel is put. -/
theorem ssetStoresColour : Obligations.SsetStoresColour := by
  intro s ax ay c
  refine ⟨fun hstores => ⟨_, execSset_stores hstores ax ay, ?_⟩, ?_⟩
  · rw [ssetResolved_eq]
    split
    · next hon =>
      rw [onSheet_iff] at hon
      refine ⟨rfl, fun a ha => ?_, fun x y hx hy => ?_⟩
      · rw [← loadColor_mem c s]
        exact read_pixelPut _ _ (by omega) (by omega) (by unfold sheetBase; omega)
      · rw [sheetNibble_sheetPut _ _ (by omega) hx hy, sheetNibble_loadColor c s hx hy]
        exact if_congr (by omega) rfl rfl
    · next hoff =>
      rw [onSheet_iff] at hoff
      refine ⟨rfl, fun a _ => by rw [loadColor_mem], fun x y hx hy => ?_⟩
      rw [sheetNibble_loadColor c s hx hy, if_neg (by omega)]
  · rintro rfl hno
    exact execSset_noChange hno ax ay

/-! ### FSET -/

theorem memRead_flagsPut (s : State) {n : Nat} (hn : n < 256) (v : Byte) (b : Nat) :
    memRead (flagsPut s n v) b = if b = 0x4000 + n then v else memRead s b := by
  have hsame : sameByte s.params (flagsBase + n) b = true ↔ b = 0x4000 + n := by
    unfold flagsBase
    simp only [sameByte, Bool.or_eq_true, Bool.and_eq_true, decide_eq_true_eq]
    omega
  rw [flagsPut, memRead_setArrayByte s (isArray_flags hn)]
  exact if_congr hsame rfl rfl

theorem getLsbD_withFlagBit (f : Byte) {b : Nat} (hb : b < 8) (v : Bool) {k : Nat} (hk : k < 8) :
    (withFlagBit f b v).getLsbD k = if b = k then v else f.getLsbD k := by
  cases v with
  | true =>
    simp only [withFlagBit, if_true, BitVec.getLsbD_or, getLsbD_one_shiftLeft hb]
    by_cases h : b = k <;> simp [h]
  | false =>
    simp only [withFlagBit, Bool.false_eq_true, if_false, BitVec.getLsbD_and, BitVec.getLsbD_not,
      getLsbD_one_shiftLeft hb]
    by_cases h : b = k <;> simp [h, hk]

theorem exec_fset_byte (an : Arg) (w : Word) (s : State) : exec (.fset an none (some w)) s =
    if 0 ≤ intArg an 0 ∧ intArg an 0 < 256 then
      .next (flagsPut s (intArg an 0).toNat (BitVec.ofInt 8 (intArg (some w) 0)))
    else .next s := by
  simp only [exec, execFset, int16_argWord, ← byteOf_argWord]
  rfl

theorem exec_fset_bit (an : Arg) (b w : Word) (s : State) : exec (.fset an (some b) (some w)) s =
    if (0 ≤ intArg an 0 ∧ intArg an 0 < 256) ∧ 0 ≤ intArg (some b) 0 ∧ intArg (some b) 0 ≤ 7 then
      .next (flagsPut s (intArg an 0).toNat
        (withFlagBit (flagsGet s (intArg an 0).toNat) (intArg (some b) 0).toNat (decide (w ≠ 0))))
    else .next s := by
  rw [ite_and]
  simp only [exec, execFset, int16_argWord]
  rfl

/-- Settles O48: the flags byte is put, whole or with one bit replaced. -/
theorem fsetStoresFlags : Obligations.FsetStoresFlags := by
  intro s an ab av
  cases av with
  | none => exact ⟨fun _ => by cases ab <;> rfl, fun _ h => absurd rfl h⟩
  | some w =>
    cases ab with
    | none =>
      rw [exec_fset_byte]
      refine ⟨fun hout => if_neg ?_, fun n _ hn hn256 _ => ?_⟩
      · simpa using hout
      · rw [hn, if_pos (by omega), Int.toNat_natCast]
        exact ⟨_, rfl, rfl, fun b hb => (memRead_flagsPut s hn256 _ b).trans (if_neg hb),
          fun _ => (memRead_flagsPut s hn256 _ _).trans (if_pos rfl), fun h => absurd rfl h⟩
    | some b =>
      rw [exec_fset_bit]
      refine ⟨fun hout => if_neg ?_, fun n _ hn hn256 hbit => ?_⟩
      · rintro ⟨hin, hbit⟩
        exact hout.elim nofun fun h => h.elim (absurd hin) fun h => h.2 hbit
      · have hbit := hbit nofun
        rw [hn, if_pos (by omega), Int.toNat_natCast, flagsGet_eq_memRead s hn256]
        refine ⟨_, rfl, rfl, fun b hb => (memRead_flagsPut s hn256 _ b).trans (if_neg hb), nofun, fun _ k hk => ?_⟩
        rw [memRead_flagsPut s hn256, if_pos rfl, getLsbD_withFlagBit _ (by omega) _ hk]
        exact if_congr (by omega) rfl rfl

end Sys2Proof.Machine
end

section
/-! The palette commands PAL and PALT (41_sprite_map R220, R221). -/

namespace Sys2Proof.Machine

open Spec

theorem palIndex_nibOf {a : Arg} {i : Fin 16} (h : intArg a 0 % 16 = (i.val : Int)) :
    palIndex (nibOf (argWord a)) = i := by
  have hnib := toNat_nibOf (argWord a)
  rw [← int16_eq_ediv, int16_argWord, h] at hnib
  exact Fin.ext (Int.ofNat.inj hnib)

theorem mkEntry_entryTrans (e : BitVec 5) (n : Nibble) : mkEntry (entryTrans e) n = e.extractLsb' 4 1 ++ n := by
  have htrans : BitVec.ofBool (entryTrans e) = e.extractLsb' 4 1 := by
    revert e
    decide
  rw [mkEntry, htrans]

/-! ### PAL -/

theorem identityDrawPal_get (i : Fin 16) : identityDrawPal[i] = if i = 0 then 0x10#5 else BitVec.ofNat 5 i.val := by
  revert i
  decide

theorem identityScreenPal_get (i : Fin 16) : identityScreenPal[i] = BitVec.ofNat 8 i.val := Vector.getElem_ofFn i.isLt

theorem identityDrawPal_eq_reset : identityDrawPal = State.reset.drawPal := by
  decide

theorem identityScreenPal_eq_reset : identityScreenPal = State.reset.screenPal := by
  decide

theorem exec_pal_some (a b : Word) (ap : Arg) (s : State) {i : Fin 16} (hi : intArg (some a) 0 % 16 = (i.val : Int)) :
    exec (.pal (some a) (some b) ap) s =
      if intArg ap 0 = 0 then .next (setColor s i (BitVec.ofInt 4 (intArg (some b) 0)))
      else if intArg ap 0 = 1 then
        .next { s with screenPal := s.screenPal.set i.val (BitVec.ofInt 8 (intArg (some b) 0)) i.isLt }
      else .next s := by
  rw [← int16_argWord ap, ← nibOf_argWord, ← byteOf_argWord, ← palIndex_nibOf hi]
  rfl

/-- Settles O49, by which of the two indices are present. -/
theorem palRemapsOrResets : Obligations.PalRemapsOrResets := by
  intro s a0 a1 ap
  match a0, a1 with
  | none, none =>
    exact ⟨fun _ _ => ⟨_, rfl, rfl, fun i => ⟨identityDrawPal_get i, identityScreenPal_get i⟩,
      identityDrawPal_eq_reset, identityScreenPal_eq_reset⟩, fun h => by simp at h, fun _ h => absurd rfl h⟩
  | none, some b => exact ⟨nofun, fun _ => rfl, fun _ h => absurd rfl h⟩
  | some a, none => exact ⟨nofun, fun _ => rfl, fun _ _ h => absurd rfl h⟩
  | some a, some b =>
    refine ⟨nofun, fun h => by simp at h, fun i _ _ hi => ?_⟩
    rw [exec_pal_some a b ap s hi]
    refine ⟨fun h0 => ?_, fun h1 => ?_, fun h0 h1 => ?_⟩
    · rw [if_pos h0, setColor, mkEntry_entryTrans]
    · rw [h1, if_neg (by decide), if_pos rfl]
    · rw [if_neg h0, if_neg h1]

/-! ### PALT -/

/-- Settles O50, by which of the index and the flag are present. -/
theorem paltTransparency : Obligations.PaltTransparency := by
  intro s ac af
  match ac, af with
  | none, none =>
    refine ⟨fun _ _ => ⟨_, rfl, rfl, fun i => ?_⟩, fun _ h => absurd rfl h, fun _ h => absurd rfl h⟩
    simp only [Fin.getElem_fin, Vector.getElem_ofFn]
    exact ⟨(entryTrans_mkEntry _ _).trans (decide_eq_decide.2 Fin.val_eq_zero_iff), entryColor_mkEntry _ _⟩
  | none, some b => exact ⟨nofun, fun _ _ => rfl, fun _ h => absurd rfl h⟩
  | some a, none =>
    refine ⟨nofun, nofun, fun i _ hi => ⟨fun _ => ?_, fun h => absurd rfl h⟩⟩
    rw [← palIndex_nibOf hi]
    rfl
  | some a, some b =>
    refine ⟨nofun, nofun, fun i _ hi => ⟨nofun, fun _ => ?_⟩⟩
    rw [← palIndex_nibOf hi]
    rfl

end Sys2Proof.Machine
end

section
/-! The sfx trigger SFX and its choice of a channel (42_audio R290, R291). -/

namespace Sys2Proof.Machine

open Spec

/-! ### The lowest channel with a property -/

theorem lowestCh_eq_none {P : Fin 4 → Prop} [DecidablePred P] (h : ∀ d, ¬P d) : lowestCh (fun c => P c) = none :=
  List.find?_eq_none.2 fun d _ => by simp [h d]

theorem exists_lowestCh {P : Fin 4 → Prop} [DecidablePred P] (h : ∃ d, P d) :
    ∃ c, lowestCh (fun c => P c) = some c ∧ P c ∧ ∀ d, P d → c ≤ d := by
  obtain ⟨e, he⟩ := h
  have hall : ∀ d, d ∈ channels := by decide
  obtain ⟨c, hc⟩ := Option.isSome_iff_exists.1 ((List.find?_isSome (p := fun c => P c)).2 ⟨e, hall e, decide_eq_true he⟩)
  obtain ⟨hPc, before, after, hsplit, hbefore⟩ := List.find?_eq_some_iff_append.1 hc
  refine ⟨c, hc, of_decide_eq_true hPc, fun d hd => ?_⟩
  have hsorted : (before ++ c :: after).Pairwise (· < ·) := hsplit ▸ (by decide : channels.Pairwise (· < ·))
  rcases List.mem_append.1 (hsplit ▸ hall d) with hmem | hmem
  · exact absurd (decide_eq_true hd) (by simpa using hbefore d hmem)
  rcases List.mem_cons.1 hmem with rfl | hmem
  · exact le_rfl
  · exact (List.rel_of_pairwise_cons (List.pairwise_append.1 hsorted).2.1 hmem).le

/-! ### The automatic channel -/

theorem minSfx_le (s : State) (d : Fin 4) : minSfx s ≤ sfxInt s.ch[d] := by
  unfold minSfx
  fin_cases d <;> simp

theorem exists_sfxInt_eq_minSfx (s : State) : ∃ c : Fin 4, sfxInt s.ch[c] = minSfx s := by
  unfold minSfx
  rcases min_choice (min (sfxInt s.ch[0]) (sfxInt s.ch[1])) (min (sfxInt s.ch[2]) (sfxInt s.ch[3])) with h | h
  · rw [h]
    exact (min_choice _ _).elim (fun h => ⟨0, h.symm⟩) (fun h => ⟨1, h.symm⟩)
  · rw [h]
    exact (min_choice _ _).elim (fun h => ⟨2, h.symm⟩) (fun h => ⟨3, h.symm⟩)

theorem sfxInt_of_plays {C : Channel} {T : Fin 64} (h : C.sfx = some T) : sfxInt C = T.val := by
  simp [sfxInt, h]

theorem pickChannel_of_plays {s : State} {S : Fin 64} (h : ∃ c : Fin 4, s.ch[c].sfx = some S) :
    s.ch[pickChannel s S].sfx = some S := by
  obtain ⟨c, hc, hplays, -⟩ := exists_lowestCh h
  obtain rfl : c = pickChannel s S := by simp only [pickChannel, hc]
  exact hplays

theorem pickChannel_of_idle {s : State} {S : Fin 64} (hno : ∀ c : Fin 4, s.ch[c].sfx ≠ some S)
    (h : ∃ c : Fin 4, s.ch[c].sfx = none) :
    s.ch[pickChannel s S].sfx = none ∧ ∀ d : Fin 4, s.ch[d].sfx = none → pickChannel s S ≤ d := by
  obtain ⟨c, hc, hlow⟩ := exists_lowestCh h
  obtain rfl : c = pickChannel s S := by simp only [pickChannel, lowestCh_eq_none hno, hc]
  exact hlow

theorem pickChannel_of_busy {s : State} {S : Fin 64} (hno : ∀ c : Fin 4, s.ch[c].sfx ≠ some S)
    (hbusy : ∀ c : Fin 4, s.ch[c].sfx ≠ none) :
    sfxInt s.ch[pickChannel s S] = minSfx s ∧ ∀ d : Fin 4, sfxInt s.ch[d] = minSfx s → pickChannel s S ≤ d := by
  obtain ⟨c, hc, hlow⟩ := exists_lowestCh (exists_sfxInt_eq_minSfx s)
  obtain rfl : c = pickChannel s S := by
    simp only [pickChannel, lowestCh_eq_none hno, lowestCh_eq_none hbusy, hc, Option.getD_some]
  exact hlow

/-- Settles O52, by the three searches of `pickChannel` in their order; the least id is the minimum of `sfxInt`. -/
theorem pickChannel_spec : Obligations.PickChannel := by
  refine fun s S => ⟨pickChannel_of_plays, pickChannel_of_idle, fun hno => ?_⟩
  obtain ⟨hmin, hlow⟩ := pickChannel_of_busy (fun c => (hno c).1) (fun c => (hno c).2)
  obtain ⟨T, hT⟩ := Option.ne_none_iff_exists'.1 (hno (pickChannel s S)).2
  rw [sfxInt_of_plays hT] at hmin
  refine ⟨T, hT, fun d U hU => ⟨?_, ?_⟩⟩
  · have hle := minSfx_le s d
    rw [← hmin, sfxInt_of_plays hU] at hle
    exact_mod_cast hle
  · rintro rfl
    exact hlow d (by rw [sfxInt_of_plays hU, hmin])

/-! ### SFX -/

theorem sfxArgsValid_iff {id chn off : Int} : sfxArgsValid id chn off = true ↔
    (-2 ≤ id ∧ id ≤ 63) ∧ (-1 ≤ chn ∧ chn ≤ 3) ∧ (0 ≤ off ∧ off ≤ 31) := by
  simp only [sfxArgsValid, Bool.and_eq_true, decide_eq_true_eq]
  tauto

@[simp] theorem chOf_val (c : Fin 4) : chOf (c.val : Int) = c := by simp [chOf]

@[simp] theorem idOf_val (S : Fin 64) : idOf (S.val : Int) = S := by simp [idOf]

theorem updateCh_get (s : State) (c d : Fin 4) (f : Channel → Channel) :
    (updateCh s c f).ch[d] = if d = c then f s.ch[d] else s.ch[d] := by
  split
  · next h => rw [h, updateCh_same]
  · next h => rw [updateCh_other s f h]

theorem exec_sfx_invalid {aid ach aoff : Arg} (s : State)
    (h : sfxArgsValid (intArg aid 0) (intArg ach (-1)) (intArg aoff 0) = false) : exec (.sfx aid ach aoff) s = .next s := by
  simp [exec, execSfx, int16_argWord, int16D_eq_intArg, h]

theorem exec_sfx_valid {aid ach aoff : Arg} (s : State)
    (h : sfxArgsValid (intArg aid 0) (intArg ach (-1)) (intArg aoff 0) = true) : exec (.sfx aid ach aoff) s = .next (
      if intArg aid 0 = -1 then
        if intArg ach (-1) = -1 then s else updateCh s (chOf (intArg ach (-1))) Channel.idle
      else if intArg aid 0 = -2 then
        if intArg ach (-1) = -1 then s else updateCh s (chOf (intArg ach (-1))) (fun C => { C with loop := false })
      else triggerCh s (if intArg ach (-1) = -1 then pickChannel s (idOf (intArg aid 0)) else chOf (intArg ach (-1)))
        (idOf (intArg aid 0)) (intArg aoff 0)) := by
  simp only [exec, execSfx, int16_argWord, int16D_eq_intArg, h, Bool.not_true, Bool.false_eq_true, if_false]
  split_ifs <;> rfl

/-- Settles O51, by the arguments' ranges and the sign of the id. -/
theorem sfxTriggersChannel : Obligations.SfxTriggersChannel := by
  intro s aid ach aoff
  have hvalid := @sfxArgsValid_iff (intArg aid 0) (intArg ach (-1)) (intArg aoff 0)
  refine ⟨fun h => exec_sfx_invalid s (Bool.eq_false_iff.2 (hvalid.not.2 h)), fun hid hchn => ?_,
    fun c h0 h31 => ⟨fun hid hchn => ?_, fun hid hchn => ?_, fun S hid hchn => ?_⟩⟩
  · by_cases h : sfxArgsValid (intArg aid 0) (intArg ach (-1)) (intArg aoff 0) = true
    · have hcases : intArg aid 0 = -1 ∨ intArg aid 0 = -2 := by
        have := hvalid.1 h
        omega
      rw [exec_sfx_valid s h]
      rcases hcases with hid | hid <;> simp [hid, hchn]
    · exact exec_sfx_invalid s (Bool.eq_false_iff.2 h)
  · rw [exec_sfx_valid s (hvalid.2 (by omega)), if_pos hid, if_neg (by omega), hchn, chOf_val]
    exact ⟨_, rfl, rfl, fun d => updateCh_get s c d _⟩
  · rw [exec_sfx_valid s (hvalid.2 (by omega)), if_neg (by omega), if_pos hid, if_neg (by omega), hchn, chOf_val]
    exact ⟨_, rfl, rfl, fun d => updateCh_get s c d _⟩
  · have hc : (if intArg ach (-1) = -1 then pickChannel s S else chOf (intArg ach (-1))) = c := by
      rcases hchn with hchn | ⟨hchn, rfl⟩
      · rw [if_neg (by omega), hchn, chOf_val]
      · rw [if_pos hchn]
    rw [exec_sfx_valid s (hvalid.2 (by omega)), if_neg (by omega), if_neg (by omega), hid, idOf_val, hc]
    refine ⟨_, rfl, rfl, fun d => ?_⟩
    rw [triggerCh_get, startedCh, max_eq_right h0]
    rfl

end Sys2Proof.Machine
end

section
/-! One sample of a channel (42_audio R280–R286): what SAMPLE answers and what it leaves in the channel. -/

namespace Sys2Proof.Machine

open Spec

/-! ### Silence -/

theorem exec_sample_of_silent {s : State} {c : Nat} (h : ∀ hc : c < 4, (s.ch[c]).sfx = none) :
    exec (.sample c) s = .next (respondAud s 0) := by
  change execSample c s = _
  unfold execSample
  split
  · next hc => rw [h hc]
  · rfl

/-- Settles O53: neither kind of channel reaches `playSample`. -/
theorem sampleSilence : Obligations.SampleSilence := fun _ _ h => exec_sample_of_silent h

/-! ### A Playing channel -/

theorem exec_sample_of_playing {s : State} {c : Fin 4} {S : Fin 64} (h : s.ch[c].sfx = some S) :
    exec (.sample c.val) s = .next (playSample s c S) := by
  change execSample c.val s = _
  unfold execSample
  rw [dif_pos c.isLt]
  split
  · next hn => cases hn.symm.trans h
  · next hS => rw [Option.some.inj (hS.symm.trans h)]

theorem noteAt_eq_noteWord (s : State) (S : Fin 64) (i : Nat) : noteAt s S i = noteOf (noteWord s S i) := rfl

section

variable {s : State} {c : Fin 4} {S : Fin 64}

theorem voiceSample_of_silent_note (h : (noteAt s S ⌊s.ch[c].offset⌋.toNat).vol = 0) :
    voiceSample s c S = (s.ch[c].phase, 0, s.draws) := if_pos h

theorem voiceSample_of_sounding_note (h : (noteAt s S ⌊s.ch[c].offset⌋.toNat).vol ≠ 0) :
    voiceSample s c S =
      let m := s.params.audioReal
      let n := ⌊s.ch[c].offset⌋.toNat
      let v := effect s (noteAt s S n) s.ch[c] S n (playSpeed s S)
      let ph := nextPhase m s.ch[c].phase v.freq
      let r := toSample m s.draws (Fmt.mulQ m v.vol (wave m (noteAt s S n).inst ph))
      (ph, if s.distort.getLsbD c.val then bitcrush r.1 else r.1, r.2) := if_neg h

theorem stepChannel_of_end (h : 32 ≤ nextOffset s s.ch[c] S) :
    stepChannel s c S = { s.ch[c] with sfx := none, offset := 0, phase := (voiceSample s c S).1 } := by
  unfold stepChannel
  dsimp only
  rw [if_pos h, if_neg fun hc => h.not_gt hc.2]
  rfl

theorem stepChannel_of_lt (h : nextOffset s s.ch[c] S < 32) :
    stepChannel s c S =
      if ⌊nextOffset s s.ch[c] S⌋ = ⌊s.ch[c].offset⌋ then
        { s.ch[c] with offset := nextOffset s s.ch[c] S, phase := (voiceSample s c S).1 }
      else { s.ch[c] with
        offset := nextOffset s s.ch[c] S, phase := (voiceSample s c S).1
        prevKey := (noteAt s S ⌊s.ch[c].offset⌋.toNat).key
        prevVol := volOf s.params.audioReal (noteAt s S ⌊s.ch[c].offset⌋.toNat).vol } := by
  unfold stepChannel
  dsimp only
  rw [if_neg h.not_ge]
  by_cases hn : ⌊nextOffset s s.ch[c] S⌋ = ⌊s.ch[c].offset⌋
  · rw [if_pos hn, if_neg fun hc => hc.1 hn]
  · rw [if_neg hn, if_pos ⟨hn, h⟩]
    rfl

theorem stepChannel_phase : (stepChannel s c S).phase = (voiceSample s c S).1 := by
  rcases le_or_gt 32 (nextOffset s s.ch[c] S) with h | h
  · rw [stepChannel_of_end h]
  · rw [stepChannel_of_lt h]
    split <;> rfl

theorem stepChannel_loop : (stepChannel s c S).loop = s.ch[c].loop := by
  rcases le_or_gt 32 (nextOffset s s.ch[c] S) with h | h
  · rw [stepChannel_of_end h]
  · rw [stepChannel_of_lt h]
    split <;> rfl

theorem playSample_same : (playSample s c S).ch[c] = stepChannel s c S :=
  updateCh_same s c fun _ => stepChannel s c S

theorem playSample_other {d : Fin 4} (h : d ≠ c) : (playSample s c S).ch[d] = s.ch[d] :=
  updateCh_other s (fun _ => stepChannel s c S) h

theorem playSample_audOut : (playSample s c S).audOut = s.audOut ++ [sampleWord (voiceSample s c S).2.1] := rfl

theorem playSample_draws : (playSample s c S).draws = (voiceSample s c S).2.2 := rfl

end

/-- Settles O54: the response is `voiceSample`'s, by the note's volume; the channel is `stepChannel`'s, by the end of the sfx
and the change of note. -/
theorem samplePlaying : Obligations.SamplePlaying := by
  intro s c S hS
  refine ⟨playSample s c S, exec_sample_of_playing hS, rfl, fun d hd => playSample_other hd, ?_, ?_⟩
  · rw [playSample_same, stepChannel_loop]
  rw [playSample_same, stepChannel_phase, playSample_audOut, playSample_draws]
  refine ⟨noteAt_eq_noteWord .., fun hvol => ?_, fun hvol => ?_, fun hn hlt => ?_, fun h => ?_, fun hend => ?_, fun hlt => ?_⟩
  · rw [voiceSample_of_silent_note hvol]
    exact ⟨rfl, rfl, rfl⟩
  · rw [voiceSample_of_sounding_note hvol]
    exact ⟨rfl, rfl, rfl⟩
  · rw [stepChannel_of_lt hlt, if_neg hn]
    exact ⟨rfl, rfl⟩
  · rcases le_or_gt 32 (nextOffset s s.ch[c] S) with hend | hlt
    · rw [stepChannel_of_end hend]
      exact ⟨rfl, rfl⟩
    · rw [stepChannel_of_lt hlt, if_pos (h.resolve_right hlt.not_ge)]
      exact ⟨rfl, rfl⟩
  · rw [stepChannel_of_end hend]
    exact ⟨rfl, rfl⟩
  · rw [stepChannel_of_lt hlt]
    split <;> exact ⟨hS, rfl⟩

/-! ### The offset advance -/

theorem fmodrQ_lt (a : Rat) {b : Rat} (hb : 0 < b) : fmodrQ a b < b := by
  have h := mul_lt_mul_of_pos_left (Int.lt_floor_add_one (a / b)) hb
  rw [mul_div_cancel₀ a hb.ne'] at h
  unfold fmodrQ
  rw [Surd.rat_floor_eq]
  linarith

theorem nextOffset_exact {s : State} (hm : s.params.audioReal = .exactReals) (C : Channel) (S : Fin 64) :
    nextOffset s C S =
      let next : Rat := C.offset + 1 / (183 * (max 1 (speedByte s S) : Nat))
      let ls := loopStart s S
      let le := loopEnd s S
      if C.loop = true ∧ ls < le ∧ (le : Rat) ≤ next then ls + fmodrQ (next - ls) ((le : Rat) - ls) else next := by
  unfold nextOffset
  simp only [hm, Fmt.rndQ_exact, Bool.and_eq_true, decide_eq_true_eq, and_assoc]
  rfl

theorem add_fmodrQ_sub (l q b : Rat) : l + fmodrQ (q - l) b = q - ⌊(q - l) / b⌋ * b := by
  rw [fmodrQ, Surd.rat_floor_eq]
  ring

/-- Settles O55: the wrap takes a whole number of loop lengths away. -/
theorem offsetAdvance : Obligations.OffsetAdvance := by
  intro s C S hm
  rw [nextOffset_exact hm]
  refine ⟨fun hloop hlt hle => ?_, fun h => if_neg h⟩
  have hb : (0 : Rat) < (loopEnd s S : Rat) - loopStart s S := sub_pos.2 (by exact_mod_cast hlt)
  rw [if_pos ⟨hloop, hlt, hle⟩]
  refine ⟨_, add_fmodrQ_sub _ _ _, le_add_of_nonneg_right (fmodrQ_nonneg _ hb), ?_⟩
  exact lt_sub_iff_add_lt'.1 (fmodrQ_lt _ hb)

end Sys2Proof.Machine
end

section
/-! The waveforms as real numbers, under exact reals (42_audio R260–R268), and their bound (R269). -/

namespace Sys2Proof.Machine

open Spec Fmt

/-! ### The formulas -/

section

variable {t : Surd} (ht : Surd.wf t)
include ht

theorem toReal_waveTriangle : Surd.toReal (waveTriangle .exactReals t) = 0.354 * (|4 * Surd.toReal t - 2| - 1) := by
  simp only [waveTriangle, toReal_mulQ_exact, toReal_subQ_exact,
    toReal_abs_exact (subQ_wf _ (mulQ_wf _ _ ht) _)]
  norm_num

theorem toReal_waveTiltedSaw : Surd.toReal (waveTiltedSaw .exactReals t) =
    if Surd.toReal t < 0.9 then 0.406 * (2 * Surd.toReal t / 0.9 - 1)
    else 0.406 * (2 * (1 - Surd.toReal t) / 0.1 - 1) := by
  unfold waveTiltedSaw
  rw [apply_ite Surd.toReal]
  refine if_congr ((ltQ_exact ht _).trans (by norm_num)) ?_ ?_
  · simp only [toReal_mulQ_exact, toReal_subQ_exact, toReal_divQ_exact]
    norm_num
  · simp only [toReal_mulQ_exact, toReal_subQ_exact, toReal_divQ_exact, toReal_rsubQ_exact]
    norm_num

theorem toReal_waveSaw : Surd.toReal (waveSaw .exactReals t) =
    0.653 * (if Surd.toReal t < 0.5 then Surd.toReal t else Surd.toReal t - 1) := by
  rw [waveSaw, toReal_mulQ_exact, apply_ite Surd.toReal, toReal_subQ_exact]
  congr 1
  · norm_num
  · exact if_congr ((ltQ_exact ht _).trans (by norm_num)) rfl (by norm_num)

/-- The square and the pulse: a quarter below the break q, minus a quarter from there on. -/
theorem toReal_quarter_wave (q : Rat) : Surd.toReal (Surd.ofRat (if ltQ .exactReals t q then 1 / 4 else -1 / 4)) =
    if Surd.toReal t < q then 0.25 else -0.25 := by
  rw [Surd.toReal_ofRat, apply_ite (Rat.cast (K := ℝ))]
  exact if_congr (ltQ_exact ht q) (by norm_num) (by norm_num)

theorem toReal_waveOrgan : Surd.toReal (waveOrgan .exactReals t) =
    if Surd.toReal t < 0.5 then 0.111 * (3 - |24 * Surd.toReal t - 6|)
    else 0.111 * (1 - |16 * Surd.toReal t - 12|) := by
  unfold waveOrgan
  rw [apply_ite Surd.toReal]
  have habs (a b : Rat) := toReal_abs_exact (subQ_wf .exactReals (mulQ_wf .exactReals a ht) b)
  refine if_congr ((ltQ_exact ht _).trans (by norm_num)) ?_ ?_
  all_goals
    simp only [toReal_mulQ_exact, toReal_rsubQ_exact, habs, toReal_subQ_exact]
    norm_num

end

theorem toReal_waveNoise (ph : Surd) : Surd.toReal (waveNoise .exactReals ph) =
    0.4 * ∑ j ∈ Finset.range 6, 0.75 ^ j * ((noise1d (Surd.scale (7 / 4 * (9 / 4) ^ j) ph) : Rat) : ℝ) := by
  have hoctave (j : Nat) : Surd.toReal (noiseOctave .exactReals ph j) =
      0.75 ^ j * ((noise1d (Surd.scale (7 / 4 * (9 / 4) ^ j) ph) : Rat) : ℝ) := by
    simp only [noiseOctave, toReal_mulQ_exact, Surd.toReal_ofRat, rndQ_exact]
    norm_num
    rfl
  simp only [waveNoise, List.range, List.range.loop, List.foldl, toReal_mulQ_exact, toReal_add_exact, hoctave,
    Finset.sum_range_succ, Finset.sum_range_zero, Surd.toReal_nil]
  norm_num

theorem toReal_wavePhaser {ph : Surd} (hph : Surd.wf ph) :
    Surd.toReal (wavePhaser .exactReals ph) = waveReal 7 (Surd.toReal ph) := by
  have ht := frac_wf .exactReals hph
  have hsub := frac_wf .exactReals (divQ_wf .exactReals hph 128)
  have hk := subQ_wf .exactReals (mulQ_wf .exactReals 2 hsub) 1
  have hmix := add_wf .exactReals ht (mulQ_wf .exactReals (1 / 2) (abs_wf .exactReals hk))
  have hu := subQ_wf .exactReals (mulQ_wf .exactReals 4 (frac_wf .exactReals hmix)) 2
  have ht4 := subQ_wf .exactReals (mulQ_wf .exactReals 8 ht) 4
  simp only [wavePhaser, toReal_mulQ_exact, toReal_sub_exact, toReal_subQ_exact, toReal_divQ_exact, toReal_add_exact,
    toReal_abs_exact hu, toReal_abs_exact ht4, toReal_abs_exact hk, toReal_frac_exact hmix, toReal_frac_exact hph,
    toReal_frac_exact (divQ_wf .exactReals hph 128), waveReal]
  norm_num

theorem instrument_cases {inst : BitVec 3} (h : inst ≠ 6#3) :
    inst = 0#3 ∨ inst = 1#3 ∨ inst = 2#3 ∨ inst = 3#3 ∨ inst = 4#3 ∨ inst = 5#3 ∨ inst = 7#3 := by
  revert inst
  decide

/-- Every instrument but the noise computes the spec's formula of the phase. -/
theorem toReal_wave {inst : BitVec 3} (hinst : inst ≠ 6#3) {ph : Surd} (hph : Surd.wf ph) :
    Surd.toReal (wave .exactReals inst ph) = waveReal inst.toNat (Surd.toReal ph) := by
  have ht := frac_wf .exactReals hph
  have hfract := toReal_frac_exact hph
  rcases instrument_cases hinst with rfl | rfl | rfl | rfl | rfl | rfl | rfl
  · exact (toReal_waveTriangle ht).trans (by rw [hfract]; rfl)
  · exact (toReal_waveTiltedSaw ht).trans (by rw [hfract]; rfl)
  · exact (toReal_waveSaw ht).trans (by rw [hfract]; rfl)
  · exact (toReal_quarter_wave ht (1 / 2)).trans (by rw [hfract]; norm_num [waveReal])
  · exact (toReal_quarter_wave ht (1 / 3)).trans (by rw [hfract]; norm_num [waveReal])
  · exact (toReal_waveOrgan ht).trans (by rw [hfract]; rfl)
  · exact toReal_wavePhaser hph

/-- Settles O57, instrument by instrument. -/
theorem waveforms : Obligations.Waveforms := by
  refine fun inst ph hph => ⟨fun h => toReal_wave h hph, ?_⟩
  rintro rfl
  exact toReal_waveNoise ph

/-! ### The bound -/

theorem wave_wf (m : AudioReal) {inst : BitVec 3} (hinst : inst ≠ 6#3) {ph : Surd} (hph : Surd.wf ph) :
    Surd.wf (wave m inst ph) := by
  have ht := frac_wf m hph
  rcases instrument_cases hinst with rfl | rfl | rfl | rfl | rfl | rfl | rfl
  · exact mulQ_wf m _ (subQ_wf m (abs_wf m (subQ_wf m (mulQ_wf m _ ht) _)) _)
  · change Surd.wf (waveTiltedSaw m (frac m ph))
    unfold waveTiltedSaw
    split
    · exact mulQ_wf m _ (subQ_wf m (divQ_wf m (mulQ_wf m _ ht) _) _)
    · exact mulQ_wf m _ (subQ_wf m (divQ_wf m (mulQ_wf m _ (rsubQ_wf m _ ht)) _) _)
  · refine mulQ_wf m _ ?_
    split
    · exact ht
    · exact subQ_wf m ht _
  · exact Surd.ofRat_wf _
  · exact Surd.ofRat_wf _
  · change Surd.wf (waveOrgan m (frac m ph))
    unfold waveOrgan
    split <;> exact mulQ_wf m _ (rsubQ_wf m _ (abs_wf m (subQ_wf m (mulQ_wf m _ ht) _)))
  · have hk := abs_wf m (subQ_wf m (mulQ_wf m 2 (frac_wf m (divQ_wf m hph 128))) 1)
    have hu := frac_wf m (add_wf m ht (mulQ_wf m (1 / 2) hk))
    exact mulQ_wf m _ (sub_wf m (abs_wf m (subQ_wf m (mulQ_wf m _ hu) _)) (abs_wf m (subQ_wf m (mulQ_wf m _ ht) _)))

/-- Every closed waveform stays in [−1, 1] (42_audio R269). -/
theorem abs_waveReal_le (inst : Nat) (ph : ℝ) : |waveReal inst ph| ≤ 1 := by
  have habs {a b : ℝ} (hlo : -b ≤ a) (hhi : a ≤ b) : 0 ≤ |a| ∧ |a| ≤ b := ⟨abs_nonneg a, abs_le.2 ⟨hlo, hhi⟩⟩
  have ht0 := Int.fract_nonneg ph
  have ht1 := Int.fract_lt_one ph
  unfold waveReal
  dsimp only
  generalize Int.fract ph = t at *
  rw [abs_le]
  split
  · obtain ⟨h0, h2⟩ := habs (a := 4 * t - 2) (b := 2) (by linarith) (by linarith)
    constructor <;> linarith
  · split
    · have h0 : 0 ≤ 2 * t / 0.9 := by positivity
      have h2 : 2 * t / 0.9 ≤ 2 := (div_le_iff₀ (by norm_num)).2 (by linarith)
      constructor <;> linarith
    · have h0 : 0 ≤ 2 * (1 - t) / 0.1 := div_nonneg (by linarith) (by norm_num)
      have h2 : 2 * (1 - t) / 0.1 ≤ 2 := (div_le_iff₀ (by norm_num)).2 (by linarith)
      constructor <;> linarith
  · split <;> constructor <;> linarith
  · split <;> norm_num
  · split <;> norm_num
  · split
    · obtain ⟨h0, h6⟩ := habs (a := 24 * t - 6) (b := 6) (by linarith) (by linarith)
      constructor <;> linarith
    · obtain ⟨h0, h4⟩ := habs (a := 16 * t - 12) (b := 4) (by linarith) (by linarith)
      constructor <;> linarith
  · have hu0 := Int.fract_nonneg (t + 0.5 * |2 * Int.fract (ph / 128) - 1|)
    have hu1 := Int.fract_lt_one (t + 0.5 * |2 * Int.fract (ph / 128) - 1|)
    generalize Int.fract (t + 0.5 * |2 * Int.fract (ph / 128) - 1|) = u at *
    obtain ⟨h0, h2⟩ := habs (a := 4 * u - 2) (b := 2) (by linarith) (by linarith)
    obtain ⟨h0', h4⟩ := habs (a := 8 * t - 4) (b := 4) (by linarith) (by linarith)
    constructor <;> linarith

end Sys2Proof.Machine
end

section
/-! The frequency and the volume of the note effects, under exact reals (42_audio R252, R253, R270–R276). -/

namespace Sys2Proof.Machine

open Spec Fmt

/-! ### Frequencies and notes -/

theorem toReal_keyFreq (k : BitVec 6) : Surd.toReal (keyFreq .exactReals k) = keyHz k := by
  rw [keyFreq, toReal_mulQ_exact, toReal_pow2_exact, rndQ_exact, keyHz]
  push_cast
  rfl

theorem cast_fracQ (q : Rat) : ((fracQ q : Rat) : ℝ) = Int.fract (q : ℝ) := Rat.cast_fract q

theorem cast_vibratoCurve (q : Rat) :
    ((vibratoCurve .exactReals q : Rat) : ℝ) = 4 * |Int.fract (7.5 * (q : ℝ)) - 0.5| - 1 := by
  simp only [vibratoCurve, rndQ_exact]
  push_cast [cast_fracQ]
  norm_num

theorem toReal_vibrato_formula {p : Params} (hm : p.audioReal = .exactReals) (hv : p.vibrato = .formula) (freq : Surd)
    (q : Rat) : Surd.toReal (vibrato p freq q) =
      Surd.toReal freq * 2 ^ ((4 * |Int.fract (7.5 * (q : ℝ)) - 0.5| - 1) / 12) := by
  simp only [vibrato, hm, hv, toReal_mul_exact, toReal_pow2_exact, rndQ_exact]
  rw [← cast_vibratoCurve]
  push_cast
  rfl

theorem arpeggioNote_exact (fx : BitVec 3) (q : Rat) (n speed : Nat) : arpeggioNote .exactReals fx q n speed =
    4 * (n / 4) + (⌊q * speed / ((if fx = 6#3 then 4 else 8) / (if speed ≤ 8 then 2 else 1) : Rat)⌋ % 4).toNat := by
  have hA : (((if speed ≤ 8 then (if fx = 6#3 then 4 else 8) / 2 else if fx = 6#3 then 4 else 8 : Nat)) : Rat) =
      (if fx = 6#3 then 4 else 8) / (if speed ≤ 8 then 2 else 1) := by
    split_ifs <;> norm_num
  rw [← hA]
  rfl

/-! ### Effect by effect -/

section

variable {s : State} (hm : s.params.audioReal = .exactReals) {N : Note} (C : Channel) (S : Fin 64) (n speed : Nat)
include hm

theorem effect_plain (h : N.fx = 0#3) :
    effect s N C S n speed = ⟨keyFreq .exactReals N.key, (N.vol.toNat : Rat) / 7⟩ := by
  rw [effect, hm, h]
  rfl

theorem effect_slide (h : N.fx = 1#3) : effect s N C S n speed =
    ⟨add .exactReals (keyFreq .exactReals C.prevKey)
        (mulQ .exactReals (C.offset - n) (sub .exactReals (keyFreq .exactReals N.key) (keyFreq .exactReals C.prevKey))),
      if 0 < C.prevVol then C.prevVol + ((N.vol.toNat : Rat) / 7 - C.prevVol) * (C.offset - n)
      else (N.vol.toNat : Rat) / 7⟩ := by
  rw [effect, hm, h]
  rfl

theorem effect_vibrato (h : N.fx = 2#3) : effect s N C S n speed =
    ⟨vibrato s.params (keyFreq .exactReals N.key) C.offset, (N.vol.toNat : Rat) / 7⟩ := by
  rw [effect, hm, h]
  rfl

theorem effect_drop (h : N.fx = 3#3) : effect s N C S n speed =
    ⟨mulQ .exactReals (1 - (C.offset - n)) (keyFreq .exactReals N.key), (N.vol.toNat : Rat) / 7⟩ := by
  rw [effect, hm, h]
  rfl

theorem effect_fadeIn (h : N.fx = 4#3) : effect s N C S n speed =
    ⟨keyFreq .exactReals N.key, (N.vol.toNat : Rat) / 7 * (C.offset - n)⟩ := by
  rw [effect, hm, h]
  rfl

theorem effect_fadeOut (h : N.fx = 5#3) : effect s N C S n speed =
    ⟨keyFreq .exactReals N.key, (N.vol.toNat : Rat) / 7 * (1 - (C.offset - n))⟩ := by
  rw [effect, hm, h]
  rfl

theorem effect_arpeggio (h : N.fx = 6#3 ∨ N.fx = 7#3) : effect s N C S n speed =
    ⟨keyFreq .exactReals (noteKey s S (arpeggioNote .exactReals N.fx C.offset n speed)), (N.vol.toNat : Rat) / 7⟩ := by
  rcases h with h | h
  all_goals
    rw [effect, hm, h]
    rfl

end

/-- Settles O58, effect by effect. -/
theorem noteEffects : Obligations.NoteEffects := by
  intro s N C S n speed hm
  refine ⟨fun h => ?_, fun h => ?_, fun h => ?_, fun h => ?_, fun h => ?_, fun h => ?_, fun h => ?_⟩
  · rw [effect_plain hm C S n speed h]
    exact ⟨toReal_keyFreq _, rfl⟩
  · rw [effect_slide hm C S n speed h]
    refine ⟨?_, rfl⟩
    simp only [toReal_add_exact, toReal_mulQ_exact, toReal_sub_exact, toReal_keyFreq]
    ring
  · rw [effect_vibrato hm C S n speed h]
    refine ⟨rfl, fun hv => ?_⟩
    rw [toReal_vibrato_formula hm hv, toReal_keyFreq]
  · rw [effect_drop hm C S n speed h]
    refine ⟨?_, rfl⟩
    rw [toReal_mulQ_exact, toReal_keyFreq]
    push_cast
    ring
  · rw [effect_fadeIn hm C S n speed h]
    exact ⟨toReal_keyFreq _, rfl⟩
  · rw [effect_fadeOut hm C S n speed h]
    exact ⟨toReal_keyFreq _, rfl⟩
  · rw [effect_arpeggio hm C S n speed h, arpeggioNote_exact]
    exact ⟨toReal_keyFreq _, rfl⟩

/-! ### The volume's bounds -/

theorem slide_mem_unit {p v t : Rat} (hp : 0 ≤ p ∧ p ≤ 1) (hv : 0 ≤ v ∧ v ≤ 1) (h0 : 0 ≤ t) (h1 : t ≤ 1) :
    0 ≤ p + (v - p) * t ∧ p + (v - p) * t ≤ 1 := by
  have hlow := add_nonneg (mul_nonneg hp.1 (sub_nonneg.2 h1)) (mul_nonneg hv.1 h0)
  have hhigh := add_nonneg (mul_nonneg (sub_nonneg.2 hp.2) (sub_nonneg.2 h1)) (mul_nonneg (sub_nonneg.2 hv.2) h0)
  constructor <;> linarith

/-- Whatever effect a note has, its volume stays in [0, 1] (42_audio R270–R276). -/
theorem effect_vol_mem_unit {s : State} (hm : s.params.audioReal = .exactReals) (N : Note) {C : Channel} (S : Fin 64)
    {n : Nat} (speed : Nat) (h0 : 0 ≤ C.offset - n) (h1 : C.offset - n ≤ 1) (hprev : 0 ≤ C.prevVol ∧ C.prevVol ≤ 1) :
    0 ≤ (effect s N C S n speed).vol ∧ (effect s N C S n speed).vol ≤ 1 := by
  have hfx : N.fx = 0#3 ∨ N.fx = 1#3 ∨ N.fx = 2#3 ∨ N.fx = 3#3 ∨ N.fx = 4#3 ∨ N.fx = 5#3 ∨ N.fx = 6#3 ∨ N.fx = 7#3 := by
    generalize N.fx = fx
    revert fx
    decide
  obtain ⟨hv0, hv1⟩ : 0 ≤ (N.vol.toNat : Rat) / 7 ∧ (N.vol.toNat : Rat) / 7 ≤ 1 := volOf_mem_unit .exactReals N.vol
  rcases hfx with h | h | h | h | h | h | h
  · rw [effect_plain hm C S n speed h]
    exact ⟨hv0, hv1⟩
  · rw [effect_slide hm C S n speed h]
    dsimp only
    split
    · exact slide_mem_unit hprev ⟨hv0, hv1⟩ h0 h1
    · exact ⟨hv0, hv1⟩
  · rw [effect_vibrato hm C S n speed h]
    exact ⟨hv0, hv1⟩
  · rw [effect_drop hm C S n speed h]
    exact ⟨hv0, hv1⟩
  · rw [effect_fadeIn hm C S n speed h]
    exact ⟨mul_nonneg hv0 h0, mul_le_one₀ hv1 h0 h1⟩
  · rw [effect_fadeOut hm C S n speed h]
    exact ⟨mul_nonneg hv0 (sub_nonneg.2 h1), mul_le_one₀ hv1 (sub_nonneg.2 h1) (sub_le_self 1 h0)⟩
  · rw [effect_arpeggio hm C S n speed h]
    exact ⟨hv0, hv1⟩

end Sys2Proof.Machine
end

section
/-! Bitcrush and output scaling (42_audio R285, R286), and that no instrument but the noise overflows it (R269). -/

namespace Sys2Proof.Machine

open Spec Fmt

theorem trunc_eq_truncReal {x : Surd} (hx : Surd.wf x) : Surd.trunc x = truncReal (Surd.toReal x) := Surd.trunc_eq hx

theorem toSample_exact (draws : Nat) {x : Surd} (hx : Surd.wf x) : toSample .exactReals draws x =
    let v := truncReal (32767 * Surd.toReal x)
    if -32768 ≤ v ∧ v ≤ 32767 then (v, draws) else ((Config.freeSample draws).toInt, draws + 1) := by
  unfold toSample
  rw [trunc_eq_truncReal (mulQ_wf _ _ hx), toReal_mulQ_exact]
  norm_num

/-- Settles O56: a quotient toward zero of at most 32767 by 4096 lies in −7..7. -/
theorem sampleScaling : Obligations.SampleScaling := by
  refine ⟨fun _ => rfl, fun v hlo hhi => ?_, by decide, fun draws x hx => ?_⟩
  · have hquot : (v.tdiv 4096).natAbs = v.natAbs / 4096 := Int.natAbs_tdiv v 4096
    exact ⟨v.tdiv 4096, by omega, by omega, rfl⟩
  · rw [toSample_exact draws hx]
    exact ⟨fun hlo hhi => if_pos ⟨hlo, hhi⟩, fun h => if_neg h⟩

/-! ### No overflow without noise -/

theorem abs_truncReal_le {r : ℝ} {b : ℤ} (h : |r| ≤ b) : |truncReal r| ≤ b := by
  obtain ⟨hlo, hhi⟩ := abs_le.1 h
  rw [truncReal, abs_le]
  split
  · exact ⟨Int.le_floor.2 (by exact_mod_cast hlo), Int.floor_le_iff.2 (by linarith)⟩
  · exact ⟨Int.le_ceil_iff.2 (by push_cast; linarith), Int.ceil_le.2 hhi⟩

theorem toSample_draws {draws : Nat} {x : Surd} (hx : Surd.wf x) (h : |Surd.toReal x| ≤ 1) :
    (toSample .exactReals draws x).2 = draws := by
  have hscaled : |32767 * Surd.toReal x| ≤ ((32767 : ℤ) : ℝ) := by
    rw [abs_mul]
    norm_num
    exact h
  obtain ⟨hlo, hhi⟩ := abs_le.1 (abs_truncReal_le hscaled)
  rw [toSample_exact draws hx]
  dsimp only
  rw [if_pos ⟨by omega, by omega⟩]

/-- Settles O59: the waveform and the volume stay within 1, so the scaled sample stays within 32767. -/
theorem noOverflowWithoutNoise : Obligations.NoOverflowWithoutNoise := by
  intro s t c S hinv hm hS hinst hexec
  obtain rfl : playSample s c S = t := Host.Outcome.next.inj ((exec_sample_of_playing hS).symm.trans hexec)
  have hok := hinv.channels c
  have hphase := (voiceSample_phase_nonneg s c S hok).1
  obtain ⟨⟨hq, -⟩, -, -, hprev⟩ := hok
  obtain ⟨h0, h1⟩ := sub_floor_toNat_mem_unit hq
  rw [playSample_draws]
  by_cases hvol : (noteAt s S ⌊s.ch[c].offset⌋.toNat).vol = 0
  · rw [voiceSample_of_silent_note hvol]
  · rw [voiceSample_of_sounding_note hvol] at hphase ⊢
    dsimp only at hphase ⊢
    rw [hm] at hphase ⊢
    have hwave := wave_wf .exactReals hinst hphase
    obtain ⟨hv0, hv1⟩ := effect_vol_mem_unit hm (noteAt s S ⌊s.ch[c].offset⌋.toNat) S (playSpeed s S) h0 h1 hprev
    refine toSample_draws (mulQ_wf _ _ hwave) ?_
    rw [toReal_mulQ_exact, toReal_wave hinst hphase, abs_mul]
    refine mul_le_one₀ ?_ (abs_nonneg _) (abs_waveReal_le _ _)
    rw [abs_of_nonneg (by exact_mod_cast hv0)]
    exact_mod_cast hv1

end Sys2Proof.Machine
end

section
/-! Nothing traps, faults or halts (60_exceptions R310): every well-formed transaction and every step leaves a next
state. -/

namespace Sys2Proof.Machine

open Spec

/-- The block goes on with a next state: it neither faults nor refuses. -/
def Continues (o : Out) : Prop := ∃ t, o = .next t

theorem continues_next (t : State) : Continues (.next t) := ⟨t, rfl⟩

theorem Continues.ite {p : Prop} [Decidable p] {a b : Out} (ha : Continues a) (hb : Continues b) :
    Continues (if p then a else b) := by
  split
  · exact ha
  · exact hb

/-! ### Commands that test their slots or arguments -/

section

variable (s : State)

theorem exec_line_continues (ax0 ay0 ax1 ay1 c : Arg) : Continues (exec (.line ax0 ay0 ax1 ay1 c) s) := by
  match ax1, ay1, hstart : lineStart ax0 ay0 s with
  | some ex, some ey, some _ => exact ⟨_, exec_line_of_start hstart ex ey⟩
  | none, _, _ => exact ⟨s, exec_line_incomplete (.inl rfl) c⟩
  | some _, none, _ => exact ⟨s, exec_line_incomplete (.inr (.inl rfl)) c⟩
  | some _, some _, none => exact ⟨s, exec_line_incomplete (.inr (.inr hstart)) c⟩

theorem exec_clip_continues (ax ay aw ah : Arg) : Continues (exec (.clip ax ay aw ah) s) := by
  cases ah with
  | none => exact continues_next _
  | some hw => exact continues_next _

theorem exec_mset_continues (ax ay av : Arg) : Continues (exec (.mset ax ay av) s) := by
  cases av with
  | none => exact continues_next s
  | some w => exact .ite (continues_next _) (continues_next s)

theorem exec_sset_continues (ax ay c : Arg) : Continues (exec (.sset ax ay c) s) :=
  .ite (continues_next s) (continues_next _)

theorem exec_fset_continues (an ab av : Arg) : Continues (exec (.fset an ab av) s) := by
  match ab, av with
  | _, none => exact continues_next s
  | none, some w => exact .ite (continues_next _) (continues_next s)
  | some b, some w => exact .ite (.ite (continues_next _) (continues_next s)) (continues_next s)

theorem exec_pal_continues (a0 a1 ap : Arg) : Continues (exec (.pal a0 a1 ap) s) := by
  match a0, a1 with
  | none, none => exact continues_next _
  | none, some _ => exact continues_next s
  | some _, none => exact continues_next s
  | some _, some _ => exact .ite (continues_next _) (.ite (continues_next _) (continues_next s))

theorem exec_palt_continues (ac af : Arg) : Continues (exec (.palt ac af) s) := by
  match ac, af with
  | none, none => exact continues_next _
  | none, some _ => exact continues_next s
  | some _, none => exact continues_next _
  | some _, some _ => exact continues_next _

theorem exec_sfx_continues (aid ach aoff : Arg) : Continues (exec (.sfx aid ach aoff) s) := by
  cases hvalid : sfxArgsValid (intArg aid 0) (intArg ach (-1)) (intArg aoff 0) with
  | false => exact ⟨s, exec_sfx_invalid s hvalid⟩
  | true => exact ⟨_, exec_sfx_valid s hvalid⟩

/-! ### Addresses outside the block -/

theorem exec_memr_outside {a : Nat} (ha : 2 ^ 16 ≤ a) : exec (.memr a) s = .fault (.outsideAddressSpace a) :=
  if_neg (Nat.not_lt.2 ha)

theorem exec_memw_outside {a : Nat} (ha : 2 ^ 16 ≤ a) (v : Byte) :
    exec (.memw a v) s = .fault (.outsideAddressSpace a) :=
  if_neg (Nat.not_lt.2 ha)

/-! ### Transactions and steps -/

/-- Well-formedness matters only to the address of a memory transaction; the commands not listed have one result. -/
theorem exec_continues {i : Instr} (hi : WellFormed i = true) : Continues (exec i s) := by
  cases i with
  | line x0 y0 x1 y1 c => exact exec_line_continues s x0 y0 x1 y1 c
  | clip x y w h => exact exec_clip_continues s x y w h
  | mset x y v => exact exec_mset_continues s x y v
  | sset x y c => exact exec_sset_continues s x y c
  | fset n b v => exact exec_fset_continues s n b v
  | pal c0 c1 p => exact exec_pal_continues s c0 c1 p
  | palt c f => exact exec_palt_continues s c f
  | sfx id ch off => exact exec_sfx_continues s id ch off
  | memr a => exact ⟨_, exec_memr_eq_next.2 ⟨of_decide_eq_true hi, rfl⟩⟩
  | memw a v => exact ⟨_, exec_memw_eq_next.2 ⟨of_decide_eq_true hi, rfl⟩⟩
  | sample ch =>
    obtain ⟨t, -, hexec, -⟩ := exec_sample_answers ch s
    exact ⟨t, hexec⟩
  | _ => exact continues_next _

/-- A step that runs a transaction runs a decoded one, which is well-formed. -/
theorem step_continues : Continues (step s) := by
  unfold step
  split
  · exact continues_next s
  split
  · next hdecode => exact exec_continues _ (decodedIsWellFormed _ _ _ _ hdecode).1
  · exact continues_next _
  · exact continues_next s

end

/-- Settles O12: only a memory transaction's address test can stop, and the decoder reads no address that fails it. -/
theorem nothingStops : Obligations.NothingStops :=
  ⟨step_continues, fun _ s hi => exec_continues s hi,
    fun _ v s ha => ⟨exec_memr_outside s ha, exec_memw_outside s ha v⟩⟩

end Sys2Proof.Machine
end

section
/-! The reset state (70_reset_and_hazards R330, R331): the invariant holds of it, and its channels, all Idle, stay so until an
SFX runs. -/

namespace Sys2Proof.Machine

open Spec

theorem reset_ch (c : Fin 4) : State.reset.ch[c] = Channel.reset := by
  fin_cases c <;> rfl

theorem reset_channelOk : ChannelOk Channel.reset :=
  ⟨⟨le_rfl, by norm_num [Channel.reset]⟩, fun _ => rfl, Surd.nonneg_nil, le_rfl, zero_le_one⟩

/-- Settles O14: memory lists no byte, and no channel plays an sfx. -/
theorem resetMeetsInvariant : Obligations.ResetMeetsInvariant where
  memWf := ⟨.nil, nofun⟩
  memArray := nofun
  channels := by
    intro c
    rw [reset_ch]
    exact reset_channelOk
  distinct := by
    intro a b id ha
    rw [reset_ch] at ha
    cases ha

/-! ### Memory and the register window at reset -/

theorem memRead_reset_array {a : Nat} (h : a < 0x5200 ∨ (0x6000 ≤ a ∧ a < 0x8000)) : memRead State.reset a = 0 :=
  (memRead_array (isArray_iff.2 h)).trans (Memory.read_nil _)

/-- CURSOR, CAMERA, ANCHOR, FILLP, FILLP_CTL and DISTORT. -/
theorem readReg_reset_zero {k : Nat} (hlo : 0x25 ≤ k) (hhi : k < 0x34) : readReg State.reset k = 0 := by
  interval_cases k <;> rfl

/-! ### Idle channels -/

/-- Every channel is Idle. -/
def AllIdle (s : State) : Prop := ∀ d : Fin 4, s.ch[d].sfx = none

/-- A transition of a row other than SFX's changes no channel, but for a sample of a Playing one. -/
theorem Transition.allIdle {s t : State} {r : Nat} (hT : Transition s r t) (hr : r ≠ 0x20) (h : AllIdle s) :
    AllIdle t := by
  cases hT with
  | stop => exact absurd rfl hr
  | unloop => exact absurd rfl hr
  | trigger => exact absurd rfl hr
  | sample hS => cases (h _).symm.trans hS
  | _ => simpa [AllIdle] using h

/-- A step leaves the state, or consumes the words of the next transaction, or runs the transaction they decode to on the
state without them. -/
theorem step_nextTransaction_cases {s t : State} (h : step s = .next t) : t = s ∨
    ∃ port ws rest, nextTransaction s.inbox = some (port, ws, rest) ∧
      (t = { s with inbox := rest } ∨
        ∃ i tail, decode port ws = .instr i tail ∧ exec i { s with inbox := rest } = .next t) := by
  unfold step at h
  split at h
  · exact .inl (Host.Outcome.next.inj h).symm
  next port ws rest hnext =>
  split at h
  · next i tail hdecode => exact .inr ⟨port, ws, rest, hnext, .inr ⟨i, tail, hdecode, h⟩⟩
  · exact .inr ⟨port, ws, rest, hnext, .inl (Host.Outcome.next.inj h).symm⟩
  · exact .inl (Host.Outcome.next.inj h).symm

theorem step_allIdle {s t : State} (h : AllIdle s)
    (hrow : ∀ (p : Port) (ws tail : List Word) (rest : List Transfer) (i : Instr),
      nextTransaction s.inbox = some (p, ws, rest) → decode p ws = .instr i tail → row i ≠ 0x20)
    (hstep : step s = .next t) : AllIdle t := by
  rcases step_nextTransaction_cases hstep with rfl | ⟨port, ws, rest, hnext, rfl | ⟨i, tail, hdecode, hexec⟩⟩
  · exact h
  · exact h
  · exact (exec_transition hexec).allIdle (hrow port ws tail rest i hnext hdecode) h

/-- Settles O15: the register rows of the table are finite and evaluate; the arrays list no byte, the addresses from 0x5F38
on are reserved, and the Idle channels answer 0 by the rule of a silent SAMPLE. -/
theorem resetValues : Obligations.ResetValues := by
  refine ⟨by decide, by decide, by decide, by decide, by decide, fun a hlo hhi => ?_, by decide, fun a hlo hhi => ?_,
    fun a => memRead_reset_array, reset_ch, fun s c hidle => exec_sample_of_silent fun hc => hidle ⟨c, hc⟩,
    fun s t => step_allIdle⟩
  · obtain ⟨k, rfl⟩ := Nat.exists_eq_add_of_le (show 0x5F00 ≤ a by omega)
    rw [memRead_regBase _ (by omega)]
    exact readReg_reset_zero (by omega) (by omega)
  · obtain ⟨k, rfl⟩ := Nat.exists_eq_add_of_le (show 0x5F00 ≤ a by omega)
    rw [memRead_regBase _ (by omega)]
    exact readReg_reserved _ (.inr (by omega))

end Sys2Proof.Machine
end

section
/-! The bytes that MAP rows 32–63 and SHEET rows 64–127 share under `MAP_SHEET_SHARED` (70_reset_and_hazards R344). -/

namespace Sys2Proof.Machine

open Spec

/-- A byte of the sheet's lower half reads the same at its map address (20_memory R71). -/
theorem memRead_shared {s : State} (hs : s.params.mapSheetShared = true) {a : Nat} (hlo : 0x1000 ≤ a) (hhi : a < 0x2000) :
    memRead s (0x2000 + a) = memRead s a := by
  rw [memRead_array (isArray_iff.2 (by omega)), memRead_array (isArray_iff.2 (by omega)), arrayByte, arrayByte,
    physAddr_alias hs (by omega) (by omega), physAddr_of_lt (by omega), Nat.add_sub_cancel_left]

theorem memRead_sheetByte (s : State) {x y : Nat} (hx : x < 128) (hy : y < 128) :
    memRead s (64 * y + x / 2) = Memory.read s.mem (pixelAddr sheetBase x y) := by
  obtain ⟨harray, hphys⟩ := storage_sheet s.params (pixelAddr_mem hx hy)
  have haddr : 64 * y + x / 2 = pixelAddr sheetBase x y := by unfold pixelAddr sheetBase; omega
  rw [haddr, memRead_array harray, arrayByte, hphys]

/-- The byte of a pixel after the pixel has been put. -/
theorem memRead_sheetPut_same (s : State) {x y : Nat} (hx : x < 128) (hy : y < 128) (n : Nibble) :
    memRead (sheetPut s x y n) (64 * y + x / 2) = withNibble x (memRead s (64 * y + x / 2)) n := by
  rw [memRead_sheetByte _ hx hy, memRead_sheetByte s hx hy]
  exact Memory.read_write_same _ _ _

theorem memRead_sheetByte_loadColor (c : Arg) (s : State) {x y : Nat} (hx : x < 128) (hy : y < 128) :
    memRead (loadColor c s) (64 * y + x / 2) = memRead s (64 * y + x / 2) := by
  rw [memRead_sheetByte _ hx hy, memRead_sheetByte s hx hy, loadColor_mem]

/-- The two pixels of a sheet byte are its nibbles. -/
theorem sheetNibble_of_byte {s : State} {x y : Nat} {v : Byte} (h : memRead s (64 * y + x) = v) :
    sheetNibble s (2 * x) y = v.extractLsb' 0 4 ∧ sheetNibble s (2 * x + 1) y = v.extractLsb' 4 4 := by
  unfold sheetNibble
  rw [if_pos (by omega), if_neg (by omega), show 2 * x / 2 = x by omega, show (2 * x + 1) / 2 = x by omega, h]
  exact ⟨rfl, rfl⟩

/-- An MSET at a shared map row leaves its value in the sheet byte its cell is. -/
theorem memRead_shared_of_mset {s t : State} (hs : s.params.mapSheetShared = true) {wx wy wv : Word} {x y : Nat}
    (hx : int16 wx = x) (hy : int16 wy = y) (hx128 : x < 128) (hlo : 32 ≤ y) (hhi : y < 64)
    (hexec : exec (.mset (some wx) (some wy) (some wv)) s = .next t) : memRead t (128 * y + x) = byteOf wv := by
  obtain ⟨t', hexec', hframe, hread⟩ :=
    (msetStoresCell s (some wx) (some wy) (some wv)).2 x y nofun hx hy hx128 hhi
  obtain rfl := Host.Outcome.next.inj (hexec'.symm.trans hexec)
  have hparams : t'.params = s.params := by rw [hframe]
  have hcell := hread (0x2000 + 128 * y + x)
  rw [if_pos (by simp [sameByte]), ← byteOf_argWord] at hcell
  rw [← memRead_shared (hparams ▸ hs) (by omega) (by omega), ← Nat.add_assoc]
  exact hcell

theorem exec_sset_onSheet {s : State} {wx wy : Word} {c : Arg} {x y : Nat} (hx : int16 wx = x) (hy : int16 wy = y)
    (hx128 : x < 128) (hy128 : y < 128) (hstores : c ≠ none ∨ s.params.ssetNoColour = .storesPen) :
    exec (.sset (some wx) (some wy) c) s =
      .next (sheetPut (loadColor c s) x y (penBits (loadColor c s)).primary) := by
  have hX : intArg (some wx) 0 = x := hx
  have hY : intArg (some wy) 0 = y := hy
  refine (execSset_stores hstores _ _).trans ?_
  rw [ssetResolved_eq, hX, hY, if_pos (onSheet_iff.2 (by omega)), Int.toNat_natCast, Int.toNat_natCast]

/-- Settles O22: each command writes a byte of its own array, which the other array shares (`memRead_shared`). -/
theorem sharedMapAndSheet : Obligations.SharedMapAndSheet := by
  refine fun s t hs => ⟨fun wx wy wv x y hx hy hx128 hlo hhi hexec => ?_,
    fun wx wy c x y hx hy hx128 hlo hhi hstores hexec => ?_⟩
  · have hbyte := memRead_shared_of_mset hs hx hy hx128 hlo hhi hexec
    rw [show 128 * y + x = 64 * (2 * y + x / 64) + x % 64 by omega] at hbyte
    exact sheetNibble_of_byte hbyte
  · rw [exec_sset_onSheet hx hy hx128 hhi hstores] at hexec
    obtain rfl := Host.Outcome.next.inj hexec
    have hcell : 0x2000 + 128 * (y / 2) + (64 * (y % 2) + x / 2) = 0x2000 + (64 * y + x / 2) := by omega
    dsimp only
    rw [hcell, memRead_shared (by simpa using hs) (by omega) (by omega), memRead_shared hs (by omega) (by omega),
      memRead_sheetPut_same _ hx128 hhi, memRead_sheetByte_loadColor c s hx128 hhi]
    rfl

end Sys2Proof.Machine
end
